-- ==== Sys2Proof/Word.lean ====
section
/-! DEFINITION. The word types: a host register is 32 bits wide (10_state.md R23), a store cell 8 bits (R40, R42). -/
namespace Sys2Proof

abbrev Word := BitVec 32
abbrev Byte := BitVec 8

/-- The 32-bit register value of a non-negative integer. Pseudocode values are unbounded (00_scope.md R11); every
value the rules write to a register fits it (R18). -/
abbrev word (n : Nat) : Word := BitVec.ofNat 32 n

end Sys2Proof
end

