-- ==== Sys2Proof/Config.lean ====
section
/-! DEFINITION. What is fixed when the block is built (00_scope.md R9) and the values the spec leaves free (93). -/
namespace Sys2Proof

/-- The two values of the bit-order flag (00_scope.md R16, 10_state.md R24). -/
inductive BitOrder where
  | msbFirst
  | lsbFirst
  deriving DecidableEq, Repr

/-- The implementation parameters of 00_scope.md R9 with their legal ranges. -/
structure Params where
  bfCap : Nat
  dataCap : Nat
  dictLimit : Nat
  codecOrder : BitOrder
  bfCap_legal : 3 ≤ bfCap ∧ bfCap ≤ 2 ^ 29 := by decide
  dataCap_legal : 1 ≤ dataCap ∧ dataCap ≤ 2 ^ 32 - 1 := by decide
  dictLimit_legal : 512 ≤ dictLimit ∧ dictLimit ≤ 2 ^ 31 := by decide
  deriving DecidableEq, Repr

/-- DESIGN CHOICE (log 1): the parameters of `State.reset`. R9 leaves the capacities OPEN; 95_test_vectors.md
computes its vectors with 2^16 for all three. CODEC_ORDER is R9's value for this hardware. -/
def Params.default : Params :=
  { bfCap := 2 ^ 16, dataCap := 2 ^ 16, dictLimit := 2 ^ 16, codecOrder := .lsbFirst }

/-- The two byte stores (10_state.md R40, R42). -/
inductive StoreId where
  | bf
  | data
  deriving DecidableEq, Repr

/-- Free value (93 U1, U2; log 2): what a byte of a store holds that nothing has written since the store's content
became unspecified for the `gen`-th time, or since the last of the losses of its lower part that reached the byte
(`lost`, their bounds). -/
opaque Config.freeByte : (store : StoreId) → (gen : Nat) → (lost : List Nat) → (addr : Nat) → Byte

/-- Free value (93 U3, U7; logs 5, 14): the data of a host read the spec leaves unspecified, one for each value of
the counter `freeCount`. -/
opaque Config.freeRead : (count : Nat) → Word

/-- Free value (10_state.md R46; log 16): `str` of a code that has no entry, its first byte apart so that it is not
empty. R46 says no rule applies `str` to such a code. -/
opaque Config.undefinedString : (code : Nat) → Byte × List Byte

end Sys2Proof
end

