-- ==== Sys2Proof/Syntax.lean ====
section
/-! DEFINITION. The command set: one constructor for each row of spec/opcode_table.json (30_encoding.md R94). -/
namespace Sys2Proof

/-- The six commands with the fields their words carry (30_encoding.md R90, R91). The register operands (ARG0, ARG1)
are read when the command runs. Field values are the non-negative integers of R92. -/
inductive Instr where
  /-- SETBIT, 40_bitfield.md R133. -/
  | setbit
  /-- GETBIT, 40_bitfield.md R135. -/
  | getbit
  /-- SETINT of an integer of width `w`, 40_bitfield.md R138. -/
  | setint (w : Nat)
  /-- GETINT of an integer of width `w`, 40_bitfield.md R142. -/
  | getint (w : Nat)
  /-- COMPRESS with maximum code width `maxw` and block-mode flag `blk`, 41_encoder.md R160. -/
  | compress (maxw : Nat) (blk : Bool)
  /-- DECOMPRESS, 42_decoder.md R200. -/
  | decompress
  deriving DecidableEq, Repr

end Sys2Proof
end

