-- ==== Sys2Proof/WellFormed.lean ====
section
/-! DEFINITION. Which commands a command word can hold: every field within its five bits (30_encoding.md R90, R96,
R97). MAXW 0 to 8 is well formed: COMPRESS then raises CONFIG_MAXW (R97). -/
namespace Sys2Proof

/-- WIDTH and MAXW are 5-bit fields. -/
def Instr.wf : Instr → Bool
  | .setbit => true
  | .getbit => true
  | .setint w => decide (w < 32)
  | .getint w => decide (w < 32)
  | .compress maxw _ => decide (maxw < 32)
  | .decompress => true

end Sys2Proof
end

