-- ==== Sys2Proof/Decode.lean ====
section
/-! DEFINITION. The command word (30_encoding.md R90 to R98): the decoder, total on words and rejecting by name, and
the encoder. -/
namespace Sys2Proof

/-- Why a word is no command (30_encoding.md R95). Both raise ILLEGAL_CMD (R93). -/
inductive DecodeError where
  /-- OP is 0 or 7 to 15. -/
  | reservedOpcode
  /-- A bit outside the fields the opcode uses is not 0. -/
  | reservedBits
  deriving DecidableEq, Repr

/-- CW[3:0]. -/
def opField (cw : Word) : Nat := (cw.extractLsb' 0 4).toNat
/-- CW[12:8]. -/
def widthField (cw : Word) : Nat := (cw.extractLsb' 8 5).toNat
/-- CW[20:16]. -/
def maxwField (cw : Word) : Nat := (cw.extractLsb' 16 5).toNat
/-- CW[24]. -/
def blkField (cw : Word) : Bool := cw.getLsbD 24

/-- The bits an opcode uses, 30_encoding.md R93; `none` for a reserved opcode. -/
def usedMask (op : Nat) : Option Word :=
  match op with
  | 1 | 2 | 6 => some 0x0000000F#32
  | 3 | 4 => some 0x00001F0F#32
  | 5 => some 0x011F000F#32
  | _ => none

/-- The opcode map, 30_encoding.md R94, for a word whose unused bits are 0. -/
def opcodeMap (cw : Word) : Except DecodeError Instr :=
  match opField cw with
  | 1 => .ok .setbit
  | 2 => .ok .getbit
  | 3 => .ok (.setint (widthField cw))
  | 4 => .ok (.getint (widthField cw))
  | 5 => .ok (.compress (maxwField cw) (blkField cw))
  | 6 => .ok .decompress
  | _ => .error .reservedOpcode

/-- Decode, 30_encoding.md R93: the opcode is checked first, then the unused bits. -/
def decode (cw : Word) : Except DecodeError Instr :=
  match usedMask (opField cw) with
  | none => .error .reservedOpcode
  | some used => if cw &&& ~~~used = 0 then opcodeMap cw else .error .reservedBits

/-- The command word of a command, 30_encoding.md R90, R94. -/
def encode : Instr → Word
  | .setbit => 0x00000001#32
  | .getbit => 0x00000002#32
  | .setint w => 0x00000003#32 ||| (word w <<< 8)
  | .getint w => 0x00000004#32 ||| (word w <<< 8)
  | .compress maxw blk => 0x00000005#32 ||| (word maxw <<< 16) ||| (word blk.toNat <<< 24)
  | .decompress => 0x00000006#32

/-- The command of an `nbits`-bit word numbered as spec/opcode_table.json numbers it; bits above are 0. A command is
exactly one 32-bit word (30_encoding.md R98) and registers are written as whole words (20_memory.md R66), so there is
no byte order to apply. -/
def decodeTableWord (nbits w : Nat) : Option Instr :=
  match decode (word (w % 2 ^ nbits)) with
  | .ok i => some i
  | .error _ => none

end Sys2Proof
end

