-- ==== Sys2Proof/Machine/State.lean ====
section
/-! DEFINITION. The state of the block (10_state.md R20) as plain data, and the state after reset (70_reset_and_hazards.md
R271). -/
namespace Sys2Proof.Machine

/-- A byte store. `cells` lists the bytes whose value is known, addresses strictly rising; an address that is not
listed holds an unspecified byte (93 U1, U2), read as `Config.freeByte` (log 2). `gen` counts how often the whole store
became unspecified; `lost` holds, newest first, the bounds below which its bytes became unspecified since then. -/
structure Memory where
  gen : Nat
  lost : List Nat
  cells : List Host.Cell
  deriving DecidableEq, Repr

/-- The BitField (00_scope.md R7): the byte store BF, the size register BF_SIZE (10_state.md R34) and the bit-order
flag CTRL.ORDER (R24). -/
structure BitField where
  bytes : Memory
  size : Word
  order : BitOrder
  deriving DecidableEq, Repr

/-- The values of STATUS.ERR (60_exceptions.md R241); codes 8 to 15 do not exist. -/
inductive ErrCode where
  | none
  | illegalCmd
  | configMaxw
  | configOverflow
  | capacity
  | streamTruncated
  | streamBadMagic
  | streamBadCode
  deriving DecidableEq, Repr

/-- The fields of STATUS (10_state.md R25 to R28). The other bits read 0 and hold nothing (R29). -/
structure Status where
  busy : Bool
  nodata : Bool
  reject : Bool
  err : ErrCode
  deriving DecidableEq, Repr

/-- `raise E(info)`: the error and its diagnostics, 0 where none is given (60_exceptions.md R250, R251). -/
structure Raise where
  err : ErrCode
  code : Nat := 0
  expect : Nat := 0
  bitpos : Nat := 0
  deriving DecidableEq, Repr

/-- A dictionary entry in prefix-pair form: code `code` stands for the string of `pre` followed by `byte`
(10_state.md R43, R45). A dictionary lists its entries newest first; codes 0 to 255 are implicit. -/
structure Entry where
  code : Nat
  pre : Nat
  byte : Byte
  deriving DecidableEq, Repr

/-- The encoder working registers e.* (10_state.md R47). `consumed` is e.in, `idx` is e.i. Unbounded integers, since
no pseudocode value wraps (00_scope.md R11); that each fits its stated width is an invariant. -/
structure EncRegs where
  pos : Nat
  width : Nat
  next : Nat
  full : Bool
  maxw : Nat
  blk : Bool
  ckpt : Option Nat
  base : Option Nat
  consumed : Nat
  seen : Option Nat
  idx : Nat
  deriving DecidableEq, Repr

/-- The decoder working registers d.* (10_state.md R48). -/
structure DecRegs where
  pos : Nat
  width : Nat
  next : Nat
  maxw : Nat
  wtop : Nat
  blk : Bool
  seen : Nat
  out : Nat
  deriving DecidableEq, Repr

/-- The eleven host registers (10_state.md R23). -/
inductive Reg where
  | ctrl
  | status
  | cmd
  | arg0
  | arg1
  | result
  | bfSize
  | dataLen
  | errCode
  | errExpect
  | errBitpos
  deriving DecidableEq, Repr

/-- The spaces the host reaches (20_memory.md R60). -/
inductive Space where
  | reg
  | bfb
  | datab
  deriving DecidableEq, Repr

/-- A host access: space, offset, width in bits, and for a write its data (20_memory.md R60). -/
inductive Access where
  | read (space : Space) (offset width : Nat)
  | write (space : Space) (offset width : Nat) (value : Word)
  deriving DecidableEq, Repr

/-- What reaches the block next (log 6): a host access, the engine's turn to finish the command it runs, or the
platform's reset. -/
inductive Input where
  | access (a : Access)
  | engine
  | reset
  deriving DecidableEq, Repr

/-- The state of the block: 10_state.md R20 items 1 to 5, the parameters of 00_scope.md R9 (log 1), and the model's
own `inputs` (log 6), `rdata` (log 9) and `freeCount` (log 5). -/
structure State where
  params : Params
  bf : BitField
  data : Memory
  status : Status
  cmd : Word
  arg0 : Word
  arg1 : Word
  result : Word
  dataLen : Word
  errCode : Word
  errExpect : Word
  errBitpos : Word
  enc : EncRegs
  edict : List Entry
  dec : DecRegs
  ddict : List Entry
  inputs : List Input
  rdata : Word
  freeCount : Nat
  deriving DecidableEq, Repr

/-- No constructor: an error is a command outcome that the host reads in STATUS.ERR (60_exceptions.md R240), no host
access faults (R259) and errors do not nest (R255), so nothing stops the block. Safe: a claim that no fault happens
is the spec's own. -/
inductive Fault where
  deriving DecidableEq, Repr

/-- Why the model itself declines an instruction. -/
inductive Refusal where
  /-- Raised by `exec` for an instruction that has no meaning yet; none is left. Safe: nothing is claimed of it. -/
  | notModelled (mnemonic : String)
  deriving DecidableEq, Repr

/-- DESIGN CHOICE (log 11): 93 U5 leaves the working registers' reset values unspecified and never observed. -/
def EncRegs.initial : EncRegs :=
  { pos := 0, width := 9, next := 256, full := false, maxw := 9, blk := false, ckpt := none, base := none,
    consumed := 0, seen := none, idx := 0 }

/-- DESIGN CHOICE (log 11), as above. -/
def DecRegs.initial : DecRegs :=
  { pos := 0, width := 9, next := 256, maxw := 0, wtop := 9, blk := false, seen := 0, out := 0 }

/-- The block right after power-on reset, 70_reset_and_hazards.md R271, R272: every register 0 (CTRL.ORDER MSB-first),
idle, no byte of a store known. -/
def State.reset : State :=
  { params := Params.default
    bf := { bytes := { gen := 0, lost := [], cells := [] }, size := 0, order := .msbFirst }
    data := { gen := 0, lost := [], cells := [] }
    status := { busy := false, nodata := false, reject := false, err := .none }
    cmd := 0
    arg0 := 0
    arg1 := 0
    result := 0
    dataLen := 0
    errCode := 0
    errExpect := 0
    errBitpos := 0
    enc := EncRegs.initial
    edict := []
    dec := DecRegs.initial
    ddict := []
    inputs := []
    rdata := 0
    freeCount := 0 }

end Sys2Proof.Machine
end

