-- ==== Sys2Proof/Machine/Flags.lean ====
section
/-! DEFINITION. The status and control words: what the fields of STATUS and CTRL read as, and the writes that change
STATUS (10_state.md R24 to R30). The block has no arithmetic flags (R49). -/
namespace Sys2Proof.Machine

/-- The numeric error codes, 60_exceptions.md R241. -/
def ErrCode.code : ErrCode → Nat
  | .none => 0
  | .illegalCmd => 1
  | .configMaxw => 2
  | .configOverflow => 3
  | .capacity => 4
  | .streamTruncated => 5
  | .streamBadMagic => 6
  | .streamBadCode => 7

/-- STATUS as the host reads it: BUSY bit 0, NODATA bit 1, REJECT bit 2, ERR bits 7:4, the rest 0 (10_state.md R25 to
R29). -/
def Status.word (st : Status) : Word :=
  BitVec.ofNat 32 (st.busy.toNat + 2 * st.nodata.toNat + 4 * st.reject.toNat + 16 * st.err.code)

/-- STATUS as the host reads it while BUSY = 1: BUSY and REJECT are true, NODATA and ERR are taken from the unspecified
word `free`, reserved bits read 0 (20_memory.md R73, 70_reset_and_hazards.md R283, 10_state.md R29). -/
def Status.busyWord (st : Status) (free : Word) : Word :=
  BitVec.ofNat 32 (1 + 4 * st.reject.toNat) ||| (free &&& 0x000000F2#32)

/-- CTRL as the host reads it (10_state.md R24). -/
def ctrlWord (order : BitOrder) : Word :=
  match order with
  | .msbFirst => 0
  | .lsbFirst => 1

/-- What a host write of `v` to CTRL leaves in ORDER (10_state.md R24). -/
def ctrlOrder (v : Word) : BitOrder :=
  if v.getLsbD 0 then .lsbFirst else .msbFirst

/-- Acceptance of a command: BUSY set, ERR and NODATA cleared, REJECT kept (10_state.md R25 to R28, R30). -/
def Status.accept (st : Status) : Status :=
  { st with busy := true, nodata := false, err := .none }

/-- A host write of `v` to STATUS: bit 2 is W1C, nothing else is writable (10_state.md R27, R29). -/
def Status.hostWrite (st : Status) (v : Word) : Status :=
  { st with reject := st.reject && !v.getLsbD 2 }

end Sys2Proof.Machine
end

