-- ==== Sys2Proof/Machine/Operands.lean ====
section
/-! DEFINITION. The fixed constants (00_scope.md R10) and the operands of the commands (30_encoding.md R92). -/
namespace Sys2Proof.Machine

/-- MAGIC0, 00_scope.md R10. -/
def magic0 : Nat := 0x1F
/-- MAGIC1, 00_scope.md R10. -/
def magic1 : Nat := 0x9D
/-- RESET_CODE, 00_scope.md R10. -/
def resetCode : Nat := 256
/-- INIT_WIDTH, 00_scope.md R10. -/
def initWidth : Nat := 9
/-- CHECKPOINT_BITS, 00_scope.md R10. -/
def checkpointBits : Nat := 10000
/-- Where the code stream starts, 30_encoding.md R100. -/
def headerBits : Nat := 24

/-- FIRST_CODE, 00_scope.md R10: 257 in block mode, else 256. -/
def firstCode (blk : Bool) : Nat := if blk then 257 else 256

/-- `pos = zext(ARG0)`, 30_encoding.md R92. -/
abbrev State.pos (s : State) : Nat := s.arg0.toNat
/-- `value = zext(ARG1)`, 30_encoding.md R92. -/
abbrev State.value (s : State) : Nat := s.arg1.toNat

/-- The length of the plaintext in DATA, 10_state.md R35. -/
abbrev State.dataLength (s : State) : Nat := s.dataLen.toNat

/-- The flags byte COMPRESS writes, 30_encoding.md R101, 41_encoder.md R164. -/
def flagsByte (maxw : Nat) (blk : Bool) : Nat := maxw + 128 * blk.toNat
/-- flags[4:0], 30_encoding.md R101. -/
def flagsMaxw (flags : Nat) : Nat := flags % 32
/-- flags[7], 30_encoding.md R101; flags[6:5] are ignored. -/
def flagsBlk (flags : Nat) : Bool := flags.testBit 7

end Sys2Proof.Machine
end

