-- ==== Sys2Proof/Machine/Ops.lean ====
section
/-! DEFINITION. The shared operations: byte stores, the BitField primitives, the dictionary, and the two ways a command
ends. -/
namespace Sys2Proof.Machine

/-! ### Byte stores -/

/-- The value listed at address `i`, if one is. -/
def cellsGet : List Host.Cell → Nat → Option Byte
  | [], _ => none
  | c :: cs, i => if c.1 = i then some c.2 else cellsGet cs i

/-- The list with `v` at address `i`, addresses kept rising. -/
def cellsSet : List Host.Cell → Nat → Byte → List Host.Cell
  | [], i, v => [(i, v)]
  | c :: cs, i, v => if i < c.1 then (i, v) :: c :: cs else if i = c.1 then (i, v) :: cs else c :: cellsSet cs i v

/-- The list with 0 at the `n` addresses from `lo`. -/
def cellsZero (cs : List Host.Cell) (lo n : Nat) : List Host.Cell :=
  cs.filter (fun c => c.1 < lo) ++ (List.range' lo n).map (fun i => (i, 0)) ++ cs.filter (fun c => lo + n ≤ c.1)

/-- The canonical form: addresses strictly rising. An unlisted address holds no known value, so no entry can equal what
it reads as, and two stores in this form with the same known bytes are the same list. -/
abbrev Memory.wf (m : Memory) : Prop := m.cells.Pairwise (fun c d => c.1 < d.1)

/-- The byte at address `i` of store `id`; unspecified where nothing has written it (93 U1, U2; log 2). -/
def Memory.read (id : StoreId) (m : Memory) (i : Nat) : Byte :=
  match cellsGet m.cells i with
  | some v => v
  | none => Config.freeByte id m.gen (m.lost.filter (fun n => i < n)) i

/-- `store[i] <- v`. -/
def Memory.write (m : Memory) (i : Nat) (v : Byte) : Memory := { m with cells := cellsSet m.cells i v }

/-- `for i in lo .. lo+n-1: store[i] <- 0`. -/
def Memory.zeroFill (m : Memory) (lo n : Nat) : Memory := { m with cells := cellsZero m.cells lo n }

/-- Every byte becomes unspecified (93 U1, U2; logs 2, 4). -/
def Memory.forget (m : Memory) : Memory := { gen := m.gen + 1, lost := [], cells := [] }

/-- The bytes below `n` become unspecified, every other byte stays (93 U2; logs 2, 3). -/
def Memory.forgetBelow (m : Memory) (n : Nat) : Memory :=
  { m with lost := n :: m.lost, cells := m.cells.filter (fun c => n ≤ c.1) }

/-! ### Bits of a byte -/

/-- Which bit of byte p / 8 bit position p names, 20_memory.md R62. -/
def bitIndex (order : BitOrder) (p : Nat) : Nat :=
  match order with
  | .msbFirst => 7 - p % 8
  | .lsbFirst => p % 8

/-- Which bit of a w-bit value goes to position pos+i, 20_memory.md R63. -/
def valueBit (order : BitOrder) (w i : Nat) : Nat :=
  match order with
  | .msbFirst => w - 1 - i
  | .lsbFirst => i

/-- `b[k] <- v`, all other bits unchanged (20_memory.md R62). -/
def setByteBit (b : Byte) (k : Nat) (v : Bool) : Byte :=
  if v then b ||| BitVec.twoPow 8 k else b &&& ~~~BitVec.twoPow 8 k

/-! ### The BitField (40_bitfield.md) -/

/-- `BFbit(p)`, 20_memory.md R62. -/
def BitField.bit (bf : BitField) (p : Nat) : Bool :=
  (bf.bytes.read .bf (p / 8)).getLsbD (bitIndex bf.order p)

/-- `BFbit(p) <- v`, 20_memory.md R62. -/
def BitField.putBit (bf : BitField) (p : Nat) (v : Bool) : BitField :=
  { bf with bytes := bf.bytes.write (p / 8) (setByteBit (bf.bytes.read .bf (p / 8)) (bitIndex bf.order p) v) }

/-- The growth step `EnsureBit(p)`, 40_bitfield.md R131. -/
def BitField.ensureBit (P : Params) (bf : BitField) (p : Nat) : Except ErrCode BitField :=
  if P.bfCap < p / 8 + 1 then .error .capacity
  else if bf.size.toNat < p / 8 + 1 then
    .ok { bf with bytes := bf.bytes.zeroFill bf.size.toNat (p / 8 + 1 - bf.size.toNat), size := word (p / 8 + 1) }
  else .ok bf

/-- `SetBitI(p, v)`, 40_bitfield.md R132. -/
def BitField.setBitI (P : Params) (bf : BitField) (p : Nat) (v : Bool) : Except ErrCode BitField :=
  match bf.ensureBit P p with
  | .error e => .error e
  | .ok bf' => .ok (bf'.putBit p v)

/-- `GetBitI(p)`, 40_bitfield.md R132: the bit, and the BitField as the growth step left it. -/
def BitField.getBitI (P : Params) (bf : BitField) (p : Nat) : Except ErrCode (Bool × BitField) :=
  match bf.ensureBit P p with
  | .error e => .error e
  | .ok bf' => .ok (bf'.bit p, bf')

/-- The loop of `SetInt`, its first `n` bits (40_bitfield.md R137). -/
def BitField.writeBits (P : Params) (bf : BitField) (p w v : Nat) : (n : Nat) → Except ErrCode BitField
  | 0 => .ok bf
  | n + 1 =>
    match bf.writeBits P p w v n with
    | .error e => .error e
    | .ok bf' => bf'.setBitI P (p + n) (v.testBit (valueBit bf.order w n))

/-- `SetInt(p, w, v)`, 40_bitfield.md R137: both checks come before any bit is written. -/
def BitField.setInt (P : Params) (bf : BitField) (p w v : Nat) : Except ErrCode BitField :=
  if 2 ^ w ≤ v then .error .configOverflow
  else if 0 < w ∧ P.bfCap ≤ (p + w - 1) / 8 then .error .capacity
  else bf.writeBits P p w v w

/-- The loop of `GetInt`, its first `n` bits: each bit at its place in the value (40_bitfield.md R141). -/
def BitField.readBits (bf : BitField) (p w : Nat) : (n : Nat) → Nat
  | 0 => 0
  | n + 1 => bf.readBits p w n + (bf.bit (p + n)).toNat * 2 ^ valueBit bf.order w n

/-- `GetInt(p, w)`, 40_bitfield.md R140, R141: `none` is the "insufficient data" signal. -/
def BitField.getInt (bf : BitField) (p w : Nat) : Option Nat :=
  if 8 * bf.size.toNat < p + w then none else some (bf.readBits p w w)

/-! ### The dictionaries (10_state.md R43 to R46) -/

/-- `ELookup(p, b)`, 10_state.md R44. -/
def dictLookup : List Entry → (pre : Nat) → Byte → Option Nat
  | [], _, _ => none
  | e :: es, p, b => if e.pre = p ∧ e.byte = b then some e.code else dictLookup es p b

/-- `str(c)`, 10_state.md R46. Every entry's prefix is an older code, so the recursion goes to the older entries. A code
with no entry has no string in the spec: a free value (log 16). -/
def dictStr : List Entry → (code : Nat) → List Byte
  | [], c =>
    if c < 256 then [BitVec.ofNat 8 c] else (Config.undefinedString c).1 :: (Config.undefinedString c).2
  | e :: es, c =>
    if c < 256 then [BitVec.ofNat 8 c] else if e.code = c then dictStr es e.pre ++ [e.byte] else dictStr es c

/-- `s[0]` of a string that is not empty (00_scope.md R12). -/
def firstByte (s : List Byte) : Byte := s.headD 0

/-! ### Pseudocode that may raise -/

/-- The result of a piece of pseudocode on the state `α` it works on: it reached its end, or it raised, with what it had
changed by then (60_exceptions.md R250). -/
inductive Flow (α : Type) where
  | ok (a : α)
  | raised (e : Raise) (a : α)
  deriving DecidableEq, Repr

/-- `first; second`: nothing after a raise executes (00_scope.md R13). -/
def Flow.andThen {α : Type} (x : Flow α) (f : α → Flow α) : Flow α :=
  match x with
  | .ok a => f a
  | .raised e a => .raised e a

/-! ### The end of a command (60_exceptions.md R250, R252) -/

/-- `raise E(info)`: the command-end sequence common to every error, 60_exceptions.md R250. A command's own error
outputs are applied to the state it is given. The block has no vector, no saved pc and no return operation (R250). -/
def raiseError (e : Raise) (s : State) : State :=
  { s with
    status := { s.status with busy := false, err := e.err }
    errCode := word e.code
    errExpect := word e.expect
    errBitpos := word e.bitpos
    result := 0 }

/-- Normal completion, 60_exceptions.md R252. -/
def complete (s : State) : State :=
  { s with status := { s.status with busy := false } }

/-- Completion with RESULT, 10_state.md R33. -/
def completeWith (v : Word) (s : State) : State := complete { s with result := v }

/-- The capacity pre-check of the commands that read BF_SIZE, 60_exceptions.md R243. -/
def State.bfOverCapacity (s : State) : Bool := decide (s.params.bfCap < s.bf.size.toNat)

end Sys2Proof.Machine
end

