-- ==== Sys2Proof/Machine/BitFieldCommands.lean ====
section
/-! DEFINITION. The BitField commands SETBIT, GETBIT, SETINT and GETINT (40_bitfield.md). -/
namespace Sys2Proof.Machine

/-- SETBIT, 40_bitfield.md R133. -/
def setbitEnd (s : State) : State :=
  if 1 < s.value then raiseError { err := .configOverflow } s
  else if s.bfOverCapacity then raiseError { err := .capacity } s
  else
    match s.bf.setBitI s.params s.pos (decide (s.value = 1)) with
    | .error e => raiseError { err := e } s
    | .ok bf => completeWith 0 { s with bf := bf }

/-- GETBIT, 40_bitfield.md R135. -/
def getbitEnd (s : State) : State :=
  if s.bfOverCapacity then raiseError { err := .capacity } s
  else
    match s.bf.getBitI s.params s.pos with
    | .error e => raiseError { err := e } s
    | .ok (b, bf) => completeWith (word b.toNat) { s with bf := bf }

/-- SETINT, 40_bitfield.md R138. -/
def setintEnd (w : Nat) (s : State) : State :=
  if 2 ^ w ≤ s.value then raiseError { err := .configOverflow } s
  else if s.bfOverCapacity then raiseError { err := .capacity } s
  else
    match s.bf.setInt s.params s.pos w s.value with
    | .error e => raiseError { err := e } s
    | .ok bf => completeWith 0 { s with bf := bf }

/-- GETINT, 40_bitfield.md R142: insufficient data is no error (R253). -/
def getintEnd (w : Nat) (s : State) : State :=
  if s.bfOverCapacity then raiseError { err := .capacity } s
  else
    match s.bf.getInt s.pos w with
    | none => completeWith 0 { s with status := { s.status with nodata := true } }
    | some v => completeWith (word v) s

/-- The meaning of SETBIT. -/
def execSetbit (s : State) : Host.Outcome State Fault Refusal := .next (setbitEnd s)
/-- The meaning of GETBIT. -/
def execGetbit (s : State) : Host.Outcome State Fault Refusal := .next (getbitEnd s)
/-- The meaning of SETINT. -/
def execSetint (w : Nat) (s : State) : Host.Outcome State Fault Refusal := .next (setintEnd w s)
/-- The meaning of GETINT. -/
def execGetint (w : Nat) (s : State) : Host.Outcome State Fault Refusal := .next (getintEnd w s)

end Sys2Proof.Machine
end

