-- ==== Sys2Proof/Machine/Decoder.lean ====
section
/-! DEFINITION. DECOMPRESS (42_decoder.md). Its sub-steps read the BitField and work on the registers d.*, DDICT and DATA
only (20_memory.md R61). -/
namespace Sys2Proof.Machine

/-- What the decoder's steps read and write. -/
structure DecCtx where
  regs : DecRegs
  dict : List Entry
  data : Memory
  deriving DecidableEq, Repr

/-- The result of a decoder step: go on, end of the stream, or an error (42_decoder.md R205, R240). -/
inductive DecStep where
  | go (c : DecCtx)
  | ended (c : DecCtx)
  | raised (e : Raise) (c : DecCtx)
  deriving DecidableEq, Repr

/-- `WrapBF`, 42_decoder.md R201. -/
def wrapBF (P : Params) (bf : BitField) : BitField := { bf with order := P.codecOrder }

/-- A bad magic byte, 42_decoder.md R202. -/
def badMagic (found expected bitpos : Nat) : Raise :=
  { err := .streamBadMagic, code := found, expect := expected, bitpos := bitpos }

/-- A corrupt code, 42_decoder.md R206, R207, R211. -/
def badCode (code expected bitpos : Nat) : Raise :=
  { err := .streamBadCode, code := code, expect := expected, bitpos := bitpos }

/-- `ReadHeader` up to the flags byte, 42_decoder.md R202. GetInt cannot lack data here, since BF_SIZE is at least 3; that
arm too is the truncated header (log 21). -/
def readFlags (bf : BitField) : Except Raise Nat :=
  if bf.size.toNat < 3 then .error { err := .streamTruncated }
  else
    match bf.getInt 0 8, bf.getInt 8 8, bf.getInt 16 8 with
    | some m0, some m1, some flags =>
      if m0 ≠ magic0 then .error (badMagic m0 magic0 0)
      else if m1 ≠ magic1 then .error (badMagic m1 magic1 8)
      else .ok flags
    | _, _, _ => .error { err := .streamTruncated }

/-- The configuration, 42_decoder.md R203. -/
def decConfigure (flags : Nat) (r : DecRegs) : DecRegs :=
  { r with maxw := flagsMaxw flags, blk := flagsBlk flags, wtop := max 9 (flagsMaxw flags) }

/-- `DReset`, 42_decoder.md R204. -/
def decReset (c : DecCtx) : DecCtx :=
  { c with regs := { c.regs with width := initWidth, next := firstCode c.regs.blk }, dict := [] }

/-- `d.pos <- 24; d.out <- 0`, 42_decoder.md R200. -/
def decStart (c : DecCtx) : DecCtx := { c with regs := { c.regs with pos := headerBits, out := 0 } }

/-- The code at d.pos, `none` at the end of the stream (42_decoder.md R205). -/
def codeAt (bf : BitField) (c : DecCtx) : Option Nat := bf.getInt c.regs.pos c.regs.width

/-- `d.pos <- d.pos + d.width`, 42_decoder.md R205. -/
def decAdvance (c : DecCtx) : DecCtx := { c with regs := { c.regs with pos := c.regs.pos + c.regs.width } }

/-- `Output(s)`, 42_decoder.md R215. -/
def output (P : Params) : List Byte → DecCtx → Flow DecCtx
  | [], c => .ok c
  | x :: xs, c =>
    if P.dataCap ≤ c.regs.out then .raised { err := .capacity } c
    else output P xs { c with regs := { c.regs with out := c.regs.out + 1 }, data := c.data.write c.regs.out x }

/-- `Insert(p, b)`, 42_decoder.md R214. -/
def decInsert (P : Params) (p : Nat) (b : Byte) (c : DecCtx) : Flow DecCtx :=
  if 2 ^ c.regs.wtop ≤ c.regs.next then .ok c
  else if P.dictLimit ≤ c.regs.next then .raised { err := .capacity } c
  else .ok { c with dict := { code := c.regs.next, pre := p, byte := b } :: c.dict }

/-- `Present(c)`, 42_decoder.md R208. -/
def present (r : DecRegs) (code : Nat) : Bool :=
  decide (code < 256) || (decide (firstCode r.blk ≤ code) && decide (code < r.next))

/-- A first code: of the stream (42_decoder.md R206) or after a RESET_CODE (R207). -/
def firstCodeStep (P : Params) (bf : BitField) (c : DecCtx) : DecStep :=
  match codeAt bf c with
  | none => .ended c
  | some code =>
    if 256 ≤ code then .raised (badCode code c.regs.next c.regs.pos) (decAdvance c)
    else
      match output P (dictStr c.dict code) (decAdvance c) with
      | .raised e c => .raised e c
      | .ok c => .go { c with regs := { c.regs with seen := code } }

/-- The advance, 42_decoder.md R212: d.next stops at 2^d.wtop. -/
def decNext (code : Nat) (r : DecRegs) : DecRegs :=
  { r with seen := code, next := if r.next < 2 ^ r.wtop then r.next + 1 else r.next }

/-- The width step, 42_decoder.md R213. -/
def decWidthStep (r : DecRegs) : DecRegs :=
  if 2 ^ r.width ≤ r.next ∧ r.width < r.maxw then { r with width := r.width + 1 } else r

/-- A known code, 42_decoder.md R209. -/
def knownCode (P : Params) (code : Nat) (c : DecCtx) : Flow DecCtx :=
  (output P (dictStr c.dict code) c).andThen
    (fun c' => decInsert P c.regs.seen (firstByte (dictStr c.dict code)) c')

/-- The KwKwK case, 42_decoder.md R210. -/
def kwkwkCode (P : Params) (c : DecCtx) : Flow DecCtx :=
  (decInsert P c.regs.seen (firstByte (dictStr c.dict c.regs.seen)) c).andThen
    (output P (dictStr c.dict c.regs.seen ++ [firstByte (dictStr c.dict c.regs.seen)]))

/-- The expansion of a code that is no RESET_CODE, read at bit position `p0`: known, KwKwK or corrupt (42_decoder.md
R209, R210, R211). -/
def expandCode (P : Params) (code p0 : Nat) (c : DecCtx) : Flow DecCtx :=
  if present c.regs code then knownCode P code c
  else if code = c.regs.next then kwkwkCode P c
  else .raised (badCode code c.regs.next p0) c

/-- `MainStep`, 42_decoder.md R207 to R213. -/
def mainStep (P : Params) (bf : BitField) (c : DecCtx) : DecStep :=
  match codeAt bf c with
  | none => .ended c
  | some code =>
    if c.regs.blk ∧ code = resetCode then firstCodeStep P bf (decReset (decAdvance c))
    else
      match expandCode P code c.regs.pos (decAdvance c) with
      | .raised e c => .raised e c
      | .ok c => .go { c with regs := decWidthStep (decNext code c.regs) }

/-- The main loop, 42_decoder.md R200, cut off after `n` steps. Each step consumes at least 9 bits or ends (R217), so with
`n` at least the number of codes the stream can hold it ends by itself (log 17). -/
def mainLoop (P : Params) (bf : BitField) : (n : Nat) → DecCtx → Flow DecCtx
  | 0, c => .ok c
  | n + 1, c =>
    match mainStep P bf c with
    | .ended c => .ok c
    | .raised e c => .raised e c
    | .go c => mainLoop P bf n c

/-- The bound of 42_decoder.md R217 on the code reads. -/
def codeReads (bf : BitField) : Nat := (8 * bf.size.toNat - headerBits) / 9 + 1

/-- DECOMPRESS from ReadHeader to the end of its stream, 42_decoder.md R200. -/
def decompressRun (P : Params) (bf : BitField) (c : DecCtx) : Flow DecCtx :=
  match readFlags bf with
  | .error e => .raised e c
  | .ok flags =>
    match firstCodeStep P bf (decStart (decReset { c with regs := decConfigure flags c.regs })) with
    | .ended c => .ok c
    | .raised e c => .raised e c
    | .go c => mainLoop P bf (codeReads bf) c

/-- The store DATA after a failed DECOMPRESS, 42_decoder.md R219: unchanged if no byte was output, else unspecified
(93 U2; log 4). -/
def decompressFailed (before : Memory) (out : Nat) : Memory := if out = 0 then before else before.forget

/-- DECOMPRESS, 42_decoder.md R200, R218, R219. d.out is cleared first, so that an error of ReadHeader counts as one
before any output. -/
def decompressEnd (s : State) : State :=
  if s.bfOverCapacity then raiseError { err := .capacity } s
  else
    match decompressRun s.params (wrapBF s.params s.bf)
        { regs := { s.dec with out := 0 }, dict := s.ddict, data := s.data } with
    | .ok c =>
      completeWith (word c.regs.out)
        { s with
          bf := wrapBF s.params s.bf, dec := c.regs, ddict := c.dict, data := c.data, dataLen := word c.regs.out }
    | .raised e c =>
      raiseError e
        { s with
          bf := wrapBF s.params s.bf, dec := c.regs, ddict := c.dict
          data := decompressFailed s.data c.regs.out, dataLen := 0 }

/-- The meaning of DECOMPRESS. -/
def execDecompress (s : State) : Host.Outcome State Fault Refusal := .next (decompressEnd s)

end Sys2Proof.Machine
end

