-- ==== Sys2Proof/Machine/Encoder.lean ====
section
/-! DEFINITION. COMPRESS (41_encoder.md). Its sub-steps work on the registers e.*, EDICT and the BitField only
(20_memory.md R61). -/
namespace Sys2Proof.Machine

/-- What the encoder's steps read and write. -/
structure EncCtx where
  regs : EncRegs
  dict : List Entry
  bf : BitField
  deriving DecidableEq, Repr

/-- `SetInt` inside the encoder: its error becomes the command's (00_scope.md R13). -/
def encSetInt (P : Params) (p w v : Nat) (c : EncCtx) : Flow EncCtx :=
  match c.bf.setInt P p w v with
  | .error e => .raised { err := e } c
  | .ok bf => .ok { c with bf := bf }

/-- `ConstructBF`, 41_encoder.md R162: no byte is cleared here. -/
def constructBF (P : Params) (bf : BitField) : BitField := { bf with order := P.codecOrder, size := 0 }

/-- `EReset`, 41_encoder.md R163. -/
def encReset (c : EncCtx) : EncCtx :=
  { c with regs := { c.regs with width := initWidth, next := firstCode c.regs.blk, full := false }, dict := [] }

/-- The register writes of `WriteHeader`, 41_encoder.md R164. -/
def encStart (maxw : Nat) (blk : Bool) (r : EncRegs) : EncRegs :=
  { r with maxw := maxw, blk := blk, pos := headerBits, consumed := 0, idx := 0, seen := none, ckpt := none, base := none }

/-- `WriteHeader`, 41_encoder.md R164. -/
def writeHeader (P : Params) (maxw : Nat) (blk : Bool) (c : EncCtx) : Flow EncCtx :=
  (((encSetInt P 0 8 magic0 c).andThen (encSetInt P 8 8 magic1)).andThen
      (encSetInt P 16 8 (flagsByte maxw blk))).andThen
    (fun c => .ok { c with regs := encStart maxw blk c.regs })

/-- `Emit(code)`, 41_encoder.md R168. -/
def emit (P : Params) (code : Nat) (c : EncCtx) : Flow EncCtx :=
  (encSetInt P c.regs.pos c.regs.width code c).andThen
    (fun c => .ok { c with regs := { c.regs with pos := c.regs.pos + c.regs.width } })

/-- The width step of `Grow`, 41_encoder.md R169. -/
def encWidthStep (r : EncRegs) : EncRegs :=
  if 2 ^ r.width ≤ r.next then
    if r.width < r.maxw then { r with width := r.width + 1 } else { r with full := true }
  else r

/-- The insertion of `Grow`, 41_encoder.md R170, R171. -/
def encInsert (P : Params) (seen : Nat) (b : Byte) (c : EncCtx) : Flow EncCtx :=
  if c.regs.full then .ok c
  else if P.dictLimit ≤ c.regs.next then .raised { err := .capacity } c
  else
    .ok { c with
      regs := { c.regs with next := c.regs.next + 1 }
      dict := { code := c.regs.next, pre := seen, byte := b } :: c.dict }

/-- The ratio-triggered reset, 41_encoder.md R176. -/
def ratioReset (P : Params) (c : EncCtx) : Flow EncCtx :=
  (emit P resetCode c).andThen
    (fun c => .ok { encReset c with regs := { (encReset c).regs with ckpt := none, base := none } })

/-- Whether a ratio is the first or no worse than the baseline, 41_encoder.md R175. -/
def ratioHolds (base : Option Nat) (ratio : Nat) : Bool :=
  match base with
  | none => true
  | some b => decide (b ≤ ratio)

/-- The ratio measurement at a passed checkpoint `k`, 41_encoder.md R174 to R176. A denominator of 0 skips it (93 S1;
it cannot occur, since e.pos is at least 24). -/
def measureRatio (P : Params) (k : Nat) (c : EncCtx) : Flow EncCtx :=
  if c.regs.pos / 8 = 0 then .ok c
  else if ratioHolds c.regs.base (c.regs.consumed / (c.regs.pos / 8)) then
    .ok { c with
      regs := { c.regs with base := some (c.regs.consumed / (c.regs.pos / 8)), ckpt := some (k + checkpointBits) } }
  else ratioReset P c

/-- `Monitor`, 41_encoder.md R173 to R176; a checkpoint is passed strictly (R174). -/
def monitor (P : Params) (c : EncCtx) : Flow EncCtx :=
  match c.regs.ckpt with
  | none => .ok { c with regs := { c.regs with ckpt := some (c.regs.pos + checkpointBits) } }
  | some k => if k < c.regs.pos then measureRatio P k c else .ok c

/-- `Grow(seen, b)`, 41_encoder.md R169 to R172: the width step, the insertion, then the monitor. -/
def grow (P : Params) (seen : Nat) (b : Byte) (c : EncCtx) : Flow EncCtx :=
  (encInsert P seen b { c with regs := encWidthStep c.regs }).andThen
    (fun c => if c.regs.blk && c.regs.full then monitor P c else .ok c)

/-- A miss, 41_encoder.md R167. -/
def encMiss (P : Params) (seen : Nat) (b : Byte) (c : EncCtx) : Flow EncCtx :=
  ((emit P seen c).andThen (grow P seen b)).andThen
    (fun c => .ok { c with regs := { c.regs with seen := some b.toNat } })

/-- `ScanByte(b)`, 41_encoder.md R165 to R167. -/
def scanByte (P : Params) (b : Byte) (c : EncCtx) : Flow EncCtx :=
  let c := { c with regs := { c.regs with consumed := c.regs.consumed + 1 } }
  match c.regs.seen with
  | none => .ok { c with regs := { c.regs with seen := some b.toNat } }
  | some p =>
    match dictLookup c.dict p b with
    | some code => .ok { c with regs := { c.regs with seen := some code } }
    | none => encMiss P p b c

/-- `e.i <- e.i + 1`, 41_encoder.md R160. -/
def encAdvance (c : EncCtx) : EncCtx := { c with regs := { c.regs with idx := c.regs.idx + 1 } }

/-- The scan loop over the `n` bytes of DATA still to read, 41_encoder.md R160. -/
def scanLoop (P : Params) (data : Memory) : (n : Nat) → EncCtx → Flow EncCtx
  | 0, c => .ok c
  | n + 1, c =>
    match scanByte P (data.read .data c.regs.idx) c with
    | .ok c => scanLoop P data n (encAdvance c)
    | .raised e c => .raised e c

/-- `Flush`, 41_encoder.md R177. -/
def flush (P : Params) (c : EncCtx) : Flow EncCtx :=
  match c.regs.seen with
  | none => .ok c
  | some p => emit P p c

/-- COMPRESS from its construction of the BitField to its flush, 41_encoder.md R160. -/
def compressRun (P : Params) (data : Memory) (len maxw : Nat) (blk : Bool) (c : EncCtx) : Flow EncCtx :=
  ((writeHeader P maxw blk { c with bf := constructBF P c.bf }).andThen
      (fun c => scanLoop P data len (encReset c))).andThen (flush P)

/-- The error outputs of COMPRESS after ConstructBF, 41_encoder.md R178: BF_SIZE 0 and the bytes of BF it wrote
unspecified (93 U2). It wrote those below the BF_SIZE it had reached, since it starts from BF_SIZE 0 (R162) and writes
only what the growth step took in; every other byte is as last stored (20_memory.md R64; log 3). -/
def compressFailed (bf : BitField) : BitField :=
  { bf with bytes := bf.bytes.forgetBelow bf.size.toNat, size := 0 }

/-- COMPRESS, 41_encoder.md R160, R161, R178. -/
def compressEnd (maxw : Nat) (blk : Bool) (s : State) : State :=
  if maxw < 9 ∨ 31 < maxw then raiseError { err := .configMaxw } s
  else if s.params.dataCap < s.dataLength then raiseError { err := .capacity } s
  else
    match compressRun s.params s.data s.dataLength maxw blk { regs := s.enc, dict := s.edict, bf := s.bf } with
    | .ok c => completeWith c.bf.size { s with bf := c.bf, enc := c.regs, edict := c.dict }
    | .raised e c => raiseError e { s with bf := compressFailed c.bf, enc := c.regs, edict := c.dict }

/-- The meaning of COMPRESS. -/
def execCompress (maxw : Nat) (blk : Bool) (s : State) : Host.Outcome State Fault Refusal :=
  .next (compressEnd maxw blk s)

end Sys2Proof.Machine
end

