-- ==== Sys2Proof/Machine/Dispatch.lean ====
section
/-! DEFINITION. One arm per command (30_encoding.md R94). -/
namespace Sys2Proof.Machine

def exec (i : Instr) (s : State) : Host.Outcome State Fault Refusal :=
  match i with
  | .setbit => Sys2Proof.Machine.execSetbit s
  | .getbit => Sys2Proof.Machine.execGetbit s
  | .setint w => Sys2Proof.Machine.execSetint w s
  | .getint w => Sys2Proof.Machine.execGetint w s
  | .compress maxw blk => Sys2Proof.Machine.execCompress maxw blk s
  | .decompress => Sys2Proof.Machine.execDecompress s

end Sys2Proof.Machine
end

