-- ==== Sys2Proof/Machine/HostPort.lean ====
section
/-! DEFINITION. The host's accesses (20_memory.md R60 to R67, 10_state.md R23 to R39) and the platform's reset
(70_reset_and_hazards.md R270, R271), idle and busy (R282, R283). -/
namespace Sys2Proof.Machine

/-- The size of REG, 20_memory.md R60. -/
def regSpaceSize : Nat := 0x40

/-- The register map, 10_state.md R23; `none` at the reserved offsets (R39). -/
def regAt (offset : Nat) : Option Reg :=
  match offset with
  | 0x00 => some .ctrl
  | 0x04 => some .status
  | 0x08 => some .cmd
  | 0x0C => some .arg0
  | 0x10 => some .arg1
  | 0x14 => some .result
  | 0x18 => some .bfSize
  | 0x1C => some .dataLen
  | 0x20 => some .errCode
  | 0x24 => some .errExpect
  | 0x28 => some .errBitpos
  | _ => none

/-- What an idle register reads as, 10_state.md R23 to R38. -/
def readReg (r : Reg) (s : State) : Word :=
  match r with
  | .ctrl => ctrlWord s.bf.order
  | .status => s.status.word
  | .cmd => 0
  | .arg0 => s.arg0
  | .arg1 => s.arg1
  | .result => s.result
  | .bfSize => s.bf.size
  | .dataLen => s.dataLen
  | .errCode => s.errCode
  | .errExpect => s.errExpect
  | .errBitpos => s.errBitpos

/-- Acceptance of a command word, 10_state.md R30: the word is latched whole (20_memory.md R77) and the engine runs it at
its turn. -/
def acceptCommand (w : Word) (s : State) : State :=
  { s with status := s.status.accept, cmd := w, errCode := 0, errExpect := 0, errBitpos := 0 }

/-- A host write to an idle register, 10_state.md R23: RO registers ignore it. -/
def writeReg (r : Reg) (v : Word) (s : State) : State :=
  match r with
  | .ctrl => { s with bf := { s.bf with order := ctrlOrder v } }
  | .status => { s with status := s.status.hostWrite v }
  | .cmd => acceptCommand v s
  | .arg0 => { s with arg0 := v }
  | .arg1 => { s with arg1 := v }
  | .result => s
  | .bfSize => { s with bf := { s.bf with size := v } }
  | .dataLen => { s with dataLen := v }
  | .errCode => s
  | .errExpect => s
  | .errBitpos => s

/-- The host gets `v`. -/
def answer (v : Word) (s : State) : State := { s with rdata := v }

/-- The host gets a word the spec leaves unspecified (93 U3, U7; logs 5, 14). -/
def answerFree (s : State) : State :=
  { s with rdata := Config.freeRead s.freeCount, freeCount := s.freeCount + 1 }

/-- The host gets a byte the spec leaves unspecified, zero-extended (93 U3; logs 5, 15). -/
def answerFreeByte (s : State) : State :=
  { s with rdata := ((Config.freeRead s.freeCount).setWidth 8).setWidth 32, freeCount := s.freeCount + 1 }

/-- A read of STATUS while busy, 20_memory.md R73, 70_reset_and_hazards.md R283. -/
def answerBusyStatus (s : State) : State :=
  { s with rdata := s.status.busyWord (Config.freeRead s.freeCount), freeCount := s.freeCount + 1 }

/-- A dropped write, 70_reset_and_hazards.md R282: no effect, and REJECT is set. -/
def dropWrite (s : State) : State := { s with status := { s.status with reject := true } }

/-- The busy rule of a write that is not a STATUS write: dropped while busy (70_reset_and_hazards.md R282, 93 V6: any
non-STATUS write), `f` when idle. -/
def writeUnlessBusy (f : State → State) (s : State) : State := if s.status.busy then dropWrite s else f s

/-- A legal access width and alignment for REG, 20_memory.md R67. -/
def regAccessOk (offset width : Nat) : Bool := decide (width = 32) && decide (offset % 4 = 0)

/-- A host read of a register. -/
def readRegSpace (offset width : Nat) (s : State) : State :=
  if regSpaceSize ≤ offset then answerFree s
  else if regAccessOk offset width then
    match regAt offset with
    | none => answer 0 s
    | some r =>
      if s.status.busy then if r = .status then answerBusyStatus s else answerFree s else answer (readReg r s) s
  else answer 0 s

/-- The offset lies in the word of STATUS (10_state.md R23), at its first byte or, misaligned, inside it (log 12). -/
def inStatusWord (offset : Nat) : Bool := decide (offset / 4 = 1)

/-- A write to an idle register; one of another width or alignment (20_memory.md R67) or to a reserved offset (10_state.md
R39) is ignored. -/
def writeRegIdle (offset width : Nat) (v : Word) (s : State) : State :=
  if regAccessOk offset width then
    match regAt offset with
    | none => s
    | some r => writeReg r v s
  else s

/-- A host write to a register. Offsets at or above 0x40 do not reach the block (10_state.md R39); STATUS is written in
the same way busy and idle (R27, 70_reset_and_hazards.md R282). -/
def writeRegSpace (offset width : Nat) (v : Word) (s : State) : State :=
  if regSpaceSize ≤ offset then s
  else if inStatusWord offset then writeRegIdle offset width v s
  else writeUnlessBusy (writeRegIdle offset width v) s

/-- A host read of a byte window whose store holds `cap` bytes and whose byte at the index is `b`, 20_memory.md R64,
R65, R67. -/
def readWindow (cap offset width : Nat) (b : Byte) (s : State) : State :=
  if width = 8 ∧ offset < cap then if s.status.busy then answerFreeByte s else answer (b.setWidth 32) s
  else answer 0 s

/-- A write of the BF byte window while idle, 20_memory.md R64, R67. It stores the low byte of its data (log 15). -/
def writeBfbIdle (offset width : Nat) (v : Word) (s : State) : State :=
  if width = 8 ∧ offset < s.params.bfCap then
    { s with bf := { s.bf with bytes := s.bf.bytes.write offset (v.setWidth 8) } }
  else s

/-- A write of the DATA window while idle, 20_memory.md R65, R67. It stores the low byte of its data (log 15). -/
def writeDatabIdle (offset width : Nat) (v : Word) (s : State) : State :=
  if width = 8 ∧ offset < s.params.dataCap then { s with data := s.data.write offset (v.setWidth 8) } else s

/-- A host access, 20_memory.md R60. -/
def hostAccess (a : Access) (s : State) : State :=
  match a with
  | .read .reg offset width => readRegSpace offset width s
  | .read .bfb offset width => readWindow s.params.bfCap offset width (s.bf.bytes.read .bf offset) s
  | .read .datab offset width => readWindow s.params.dataCap offset width (s.data.read .data offset) s
  | .write .reg offset width v => writeRegSpace offset width v s
  | .write .bfb offset width v => writeUnlessBusy (writeBfbIdle offset width v) s
  | .write .datab offset width v => writeUnlessBusy (writeDatabIdle offset width v) s

/-- The platform's reset, 70_reset_and_hazards.md R270, R271: a running command is abandoned, every register is 0, every
byte of the stores is unspecified, the parameters stay (R273). The working registers and dictionaries, unspecified and
never observed (93 U5), stay too (log 18). -/
def platformReset (s : State) : State :=
  { s with
    bf := { bytes := s.bf.bytes.forget, size := 0, order := .msbFirst }
    data := s.data.forget
    status := { busy := false, nodata := false, reject := false, err := .none }
    arg0 := 0
    arg1 := 0
    result := 0
    dataLen := 0
    errCode := 0
    errExpect := 0
    errBitpos := 0 }

end Sys2Proof.Machine
end

