-- ==== Sys2Proof/Machine/Engine.lean ====
section
/-! DEFINITION. The engine's turn and the taking of an input; Step.lean only chooses between them (00_scope.md R14). -/
namespace Sys2Proof.Machine

/-- The engine runs the latched command word: a command by its meaning, any other word as ILLEGAL_CMD (30_encoding.md
R93, R95). -/
def runCommand (s : State) : Host.Outcome State Fault Refusal :=
  match decode s.cmd with
  | .ok i => exec i s
  | .error _ => .next (raiseError { err := .illegalCmd } s)

/-- The engine's turn: it finishes the command it runs, and when idle nothing changes (60_exceptions.md R264). -/
def engineTurn (s : State) : Host.Outcome State Fault Refusal :=
  if s.status.busy then runCommand s else .next s

/-- One input taken from the front of the queue, of which `s` holds the rest. -/
def takeInput (i : Input) (s : State) : Host.Outcome State Fault Refusal :=
  match i with
  | .access a => .next (hostAccess a s)
  | .engine => engineTurn s
  | .reset => .next (platformReset s)

/-- A step: the next input, or, when none is left, the engine's turn. -/
def stepOf (s : State) : Host.Outcome State Fault Refusal :=
  match s.inputs with
  | [] => engineTurn s
  | i :: rest => takeInput i { s with inputs := rest }

/-- `s` after the accepted write of command word `w`, the engine's turn next. -/
def latchCommand (w : Word) (s : State) : State := { acceptCommand w s with inputs := .engine :: s.inputs }

end Sys2Proof.Machine
end

