-- ==== Sys2Proof/Machine/Step.lean ====
section
/-! DEFINITION. One step of the block. -/
namespace Sys2Proof.Machine

/-- One step: a host access, a platform reset, or the engine running its command whole (00_scope.md R14). -/
def step (s : State) : Host.Outcome State Fault Refusal := stepOf s

/-- The block fetches nothing (10_state.md R22): the next command is the word latched by the accepted CMD write
(R30). This is `s` with the `nbits`-bit word `w` latched that way and the engine's turn next, so that the next step runs
it (log 10). -/
def State.withFetchWord (s : State) (nbits w : Nat) : State := latchCommand (word (w % 2 ^ nbits)) s

end Sys2Proof.Machine
end

