-- ==== Sys2Proof/Machine/HostProgram.lean ====
section
/-! DEFINITION. The host statements, command mnemonics and pseudo-commands of 30_encoding.md R108 to R110, as the inputs
they are. -/
namespace Sys2Proof.Machine

/-- The offset of a register, 10_state.md R23. -/
def regOffset : Reg → Nat
  | .ctrl => 0x00
  | .status => 0x04
  | .cmd => 0x08
  | .arg0 => 0x0C
  | .arg1 => 0x10
  | .result => 0x14
  | .bfSize => 0x18
  | .dataLen => 0x1C
  | .errCode => 0x20
  | .errExpect => 0x24
  | .errBitpos => 0x28

/-- `WR <reg>, v`, 30_encoding.md R108. -/
def stWr (r : Reg) (v : Word) : Input := .access (.write .reg (regOffset r) 32 v)
/-- `RD <reg>`. -/
def stRd (r : Reg) : Input := .access (.read .reg (regOffset r) 32)
/-- `WRB BF[i], v`. -/
def stWrb (i : Nat) (v : Byte) : Input := .access (.write .bfb i 8 (v.setWidth 32))
/-- `RDB BF[i]`. -/
def stRdb (i : Nat) : Input := .access (.read .bfb i 8)
/-- `WRD DATA[i], v`. -/
def stWrd (i : Nat) (v : Byte) : Input := .access (.write .datab i 8 (v.setWidth 32))
/-- `RDD DATA[i]`. -/
def stRdd (i : Nat) : Input := .access (.read .datab i 8)

/-- `WAIT`: `polls` reads of STATUS while the engine runs, its turn, and the read that returns BUSY = 0. How many polls it
takes is the command's unspecified, finite duration (70_reset_and_hazards.md R289; log 6). -/
def stWait (polls : Nat) : List Input := List.replicate polls (stRd .status) ++ [.engine, stRd .status]

/-- The command mnemonics, 30_encoding.md R109, each with the number of polls of its own WAIT (log 6). -/
def asmSetbit (pos v : Word) (polls : Nat) : List Input :=
  [stWr .arg0 pos, stWr .arg1 v, stWr .cmd (encode .setbit)] ++ stWait polls
def asmGetbit (pos : Word) (polls : Nat) : List Input :=
  [stWr .arg0 pos, stWr .cmd (encode .getbit)] ++ stWait polls
def asmSetint (pos : Word) (w : Nat) (v : Word) (polls : Nat) : List Input :=
  [stWr .arg0 pos, stWr .arg1 v, stWr .cmd (encode (.setint w))] ++ stWait polls
def asmGetint (pos : Word) (w : Nat) (polls : Nat) : List Input :=
  [stWr .arg0 pos, stWr .cmd (encode (.getint w))] ++ stWait polls
/-- `COMPRESS blk, maxw`; `COMPRESS` alone has the source's defaults. -/
def asmCompress (polls : Nat) (blk : Bool := true) (maxw : Nat := 16) : List Input :=
  stWr .cmd (encode (.compress maxw blk)) :: stWait polls
def asmDecompress (polls : Nat) : List Input := stWr .cmd (encode .decompress) :: stWait polls

/-- The pseudo-commands, 30_encoding.md R110. -/
def asmNewbf (ord : Word) : List Input := [stWr .ctrl ord, stWr .bfSize 0]
def asmLoadbf (bs : List Byte) : List Input := bs.zipIdx.map (fun x => stWrb x.2 x.1) ++ [stWr .bfSize (word bs.length)]
def asmLoaddata (bs : List Byte) : List Input :=
  bs.zipIdx.map (fun x => stWrd x.2 x.1) ++ [stWr .dataLen (word bs.length)]
def asmBytesize : List Input := [stRd .bfSize]
/-- ITERBITS over a BitField of `n` bytes. R289 leaves the duration of each GETBIT open and lets it depend on the operands:
the WAIT of the GETBIT at `p` polls `polls p` times, any number for each (log 6). -/
def asmIterbits (n : Nat) (polls : Nat → Nat) : List Input :=
  (List.range (8 * n)).flatMap (fun p => asmGetbit (word p) (polls p))
/-- READBF of a BitField of `n` bytes. -/
def asmReadbf (n : Nat) : List Input := stRd .bfSize :: (List.range n).map stRdb
/-- READDATA of `n` bytes. -/
def asmReaddata (n : Nat) : List Input := stRd .dataLen :: (List.range n).map stRdd

end Sys2Proof.Machine
end

