-- ==== Sys2Proof/Safety.lean ====
section
/-! DEFINITION. The terms the statements use: a state right after acceptance, the ways a command ends, what a BitField
command leaves, and the invariant of the machine. Written from the rules, apart from the meanings. -/
namespace Sys2Proof.Machine

/-! ### Acceptance and command end -/

/-- What acceptance leaves in STATUS and ERR_* (10_state.md R30): the state a command starts from. -/
def State.accepted (s : State) : Prop :=
  s.status.busy = true ∧ s.status.nodata = false ∧ s.status.err = .none ∧ s.errCode = 0 ∧ s.errExpect = 0 ∧
    s.errBitpos = 0

/-- Normal completion with RESULT `v` (60_exceptions.md R252, 10_state.md R33). -/
def State.finishedWith (v : Word) (s : State) : State :=
  { s with status := { s.status with busy := false }, result := v }

/-- The end of a command by an error with diagnostics (60_exceptions.md R250, R251). -/
def State.failedAs (e : ErrCode) (code expect bitpos : Word) (s : State) : State :=
  { s with
    status := { s.status with busy := false, err := e }
    errCode := code
    errExpect := expect
    errBitpos := bitpos
    result := 0 }

/-- The end of a command by an error without diagnostics. -/
def State.failedWith (e : ErrCode) (s : State) : State := s.failedAs e 0 0 0

/-! ### Reserved command words (30_encoding.md R91, R95) -/

/-- Bit `k` of the command word belongs to a field that opcode `op` uses (R90, R91). -/
def usesBit (op k : Nat) : Prop :=
  k ≤ 3 ∨ ((op = 3 ∨ op = 4) ∧ 8 ≤ k ∧ k ≤ 12) ∨ (op = 5 ∧ ((16 ≤ k ∧ k ≤ 20) ∨ k = 24))

/-- An opcode outside 1 to 6, or a non-zero bit outside the fields the opcode uses. -/
def reservedWord (w : Word) : Prop :=
  w.toNat % 16 = 0 ∨ 7 ≤ w.toNat % 16 ∨ ∃ k, k < 32 ∧ w.getLsbD k = true ∧ ¬usesBit (w.toNat % 16) k

/-! ### What the BitField commands leave -/

/-- `bf'` is `bf` grown so that it contains bit position `p` (40_bitfield.md R131): smallest whole-byte size, added bytes
zero, everything else as before. -/
def BitField.grownFor (bf bf' : BitField) (p : Nat) : Prop :=
  bf'.order = bf.order ∧ bf'.size.toNat = max bf.size.toNat (p / 8 + 1) ∧
    ∀ i, bf'.bytes.read .bf i = if bf.size.toNat ≤ i ∧ i < p / 8 + 1 then 0 else bf.bytes.read .bf i

/-- Bit `i` of a `w`-bit value `v` in the order of the positions (20_memory.md R63). -/
def orderedBit (order : BitOrder) (w v i : Nat) : Bool :=
  match order with
  | .msbFirst => v.testBit (w - 1 - i)
  | .lsbFirst => v.testBit i

/-- `bf'` is `bf` with the `w`-bit value `v` at `pos` (40_bitfield.md R137): grown to hold its last bit, its bits at
positions pos .. pos+w-1, every other bit as before or zero where added, and no byte written that holds none of its bits
and was not added. -/
def BitField.writtenWith (bf bf' : BitField) (pos w v : Nat) : Prop :=
  bf'.order = bf.order ∧
    bf'.size.toNat = (if w = 0 then bf.size.toNat else max bf.size.toNat ((pos + w - 1) / 8 + 1)) ∧
    (∀ q, q < 8 * bf'.size.toNat →
      bf'.bit q =
        if pos ≤ q ∧ q < pos + w then orderedBit bf.order w v (q - pos)
        else if q < 8 * bf.size.toNat then bf.bit q
        else false) ∧
    ∀ i, i < bf.size.toNat ∨ bf'.size.toNat ≤ i → (∀ j, j < w → (pos + j) / 8 ≠ i) →
      bf'.bytes.read .bf i = bf.bytes.read .bf i

/-- `v` is the `w`-bit integer at `pos` (40_bitfield.md R141). -/
def BitField.holdsInt (bf : BitField) (pos w v : Nat) : Prop :=
  v < 2 ^ w ∧ ∀ i, i < w → bf.bit (pos + i) = orderedBit bf.order w v i

/-! ### A sequence of BitField commands (40_bitfield.md R145) -/

/-- A BitField command with the operands its mnemonic loads (30_encoding.md R109). -/
structure BfCommand where
  instr : Instr
  arg0 : Word
  arg1 : Word
  deriving DecidableEq, Repr

/-- One of SETBIT, GETBIT, SETINT, GETINT. -/
def isBitField : Instr → Bool
  | .setbit => true
  | .getbit => true
  | .setint _ => true
  | .getint _ => true
  | .compress _ _ => false
  | .decompress => false

/-- The number of bytes up to the last bit position a command addresses; GETINT and width 0 address none. -/
def BfCommand.reach (c : BfCommand) : Nat :=
  match c.instr with
  | .setbit => c.arg0.toNat / 8 + 1
  | .getbit => c.arg0.toNat / 8 + 1
  | .setint w => if w = 0 then 0 else (c.arg0.toNat + w - 1) / 8 + 1
  | .getint _ => 0
  | .compress _ _ => 0
  | .decompress => 0

/-- The state in which a command of a sequence starts: operands loaded, command accepted. -/
def BfCommand.start (c : BfCommand) (s : State) : State :=
  acceptCommand (encode c.instr) { s with arg0 := c.arg0, arg1 := c.arg1 }

/-- The commands run one after the other, each successful (STATUS.ERR 0), and lead from the first state to the second. -/
def runsTo : List BfCommand → State → State → Prop
  | [], s, t => t = s
  | c :: cs, s, t => ∃ u, exec c.instr (c.start s) = .next u ∧ u.status.err = .none ∧ runsTo cs u t

/-! ### The invariant -/

/-- Every listed address is below `cap`: nothing outside a store was written. -/
def Memory.within (m : Memory) (cap : Nat) : Prop := ∀ c ∈ m.cells, c.1 < cap

/-- A code that has a string: a byte, or an entry's code (42_decoder.md R208). -/
def knownCodeIn (first : Nat) (d : List Entry) (code : Nat) : Prop :=
  code < 256 ∨ (first ≤ code ∧ code < first + d.length)

/-- The form of a dictionary whose first assignable code is `first` (10_state.md R43, R45, R46): its codes are
consecutive from `first`, newest first, and every prefix is an older known code. -/
def dictFrom (first : Nat) : List Entry → Prop
  | [] => True
  | e :: es => e.code = first + es.length ∧ knownCodeIn first es e.pre ∧ dictFrom first es

/-- At most one entry for each pair (prefix, byte), 10_state.md R43. -/
def dictUnique (d : List Entry) : Prop := d.Pairwise (fun e f => ¬(e.pre = f.pre ∧ e.byte = f.byte))

/-- The encoder registers within their stated widths, 10_state.md R47. -/
def EncRegs.inRange (r : EncRegs) : Prop :=
  r.pos < 2 ^ 33 ∧ (9 ≤ r.width ∧ r.width ≤ 31) ∧ r.next ≤ 2 ^ 31 ∧ (9 ≤ r.maxw ∧ r.maxw ≤ 31) ∧
    (∀ k, r.ckpt = some k → k < 2 ^ 34) ∧ (∀ b, r.base = some b → b < 2 ^ 32) ∧ r.consumed < 2 ^ 32 ∧
    (∀ c, r.seen = some c → c < 2 ^ 31) ∧ r.idx < 2 ^ 32

/-- The decoder registers within their stated widths, 10_state.md R48. -/
def DecRegs.inRange (r : DecRegs) : Prop :=
  r.pos < 2 ^ 33 ∧ (9 ≤ r.width ∧ r.width ≤ 31) ∧ r.next ≤ 2 ^ 31 ∧ r.maxw ≤ 31 ∧ (9 ≤ r.wtop ∧ r.wtop ≤ 31) ∧
    r.seen < 2 ^ 31 ∧ r.out < 2 ^ 32

/-- The invariant of the machine: both stores in canonical form and within their capacity, both dictionaries in
prefix-pair form with every code below DICT_LIMIT, and every working register within its stated width. -/
structure State.Inv (s : State) : Prop where
  bfCanonical : s.bf.bytes.wf
  bfWithin : s.bf.bytes.within s.params.bfCap
  dataCanonical : s.data.wf
  dataWithin : s.data.within s.params.dataCap
  edictForm : ∃ blk, dictFrom (firstCode blk) s.edict
  edictUnique : dictUnique s.edict
  edictBelow : ∀ e ∈ s.edict, e.code < s.params.dictLimit
  ddictForm : ∃ blk, dictFrom (firstCode blk) s.ddict
  ddictBelow : ∀ e ∈ s.ddict, e.code < s.params.dictLimit
  encRange : s.enc.inRange
  decRange : s.dec.inRange

/-! ### The encoder's loop state -/

/-- What holds of the encoder between two bytes (41_encoder.md R179): e.next fits the current width, every stored code is
below e.next, and so is what the next Emit writes. -/
structure EncCtx.CodesFit (c : EncCtx) : Prop where
  width_range : 9 ≤ c.regs.width ∧ c.regs.width ≤ c.regs.maxw
  next_le : c.regs.next ≤ 2 ^ c.regs.width
  stored_lt : ∀ e ∈ c.dict, e.code < c.regs.next
  seen_lt : ∀ p, c.regs.seen = some p → p < 2 ^ c.regs.width

/-! ### The decoder's loop state -/

/-- What holds of the decoder between two codes (10_state.md R45, 42_decoder.md R203, R208): DDICT holds exactly the codes
from FIRST_CODE to d.next - 1, d.next does not pass 2^wtop, the width does not pass d.wtop, and the previous code is
known. -/
structure DecCtx.Mirrors (c : DecCtx) : Prop where
  form : dictFrom (firstCode c.regs.blk) c.dict
  next_eq : c.regs.next = firstCode c.regs.blk + c.dict.length
  next_le : c.regs.next ≤ 2 ^ c.regs.wtop
  width_range : 9 ≤ c.regs.width ∧ c.regs.width ≤ c.regs.wtop
  maxw_le : c.regs.maxw ≤ c.regs.wtop
  seen_known : knownCodeIn (firstCode c.regs.blk) c.dict c.regs.seen

end Sys2Proof.Machine
end

