-- ==== Sys2Proof/Certificates/Slice0/Obligations.lean ====
section
/-! DEFINITION. The statements for the provers. Each docstring names the rule it formalises. -/

open Sys2Proof Sys2Proof.Machine

/-! ### Encoding -/

/-- 30_encoding.md R90 to R94: decoding the word of a well-formed command gives the command back. -/
def Obligations.DecodeEncodeRoundTrip : Prop :=
  ∀ i : Instr, i.wf = true → decode (encode i) = .ok i

/-- 30_encoding.md R90 to R95: a word that decodes is the word of the command it decodes to, and that command is well
formed. -/
def Obligations.DecodedWordEncodesBack : Prop :=
  ∀ (w : Word) (i : Instr), decode w = .ok i → i.wf = true ∧ encode i = w

/-- 30_encoding.md R95, 60_exceptions.md R245: exactly the reserved words have no command, and running one changes
nothing but the command-end fields. -/
def Obligations.ReservedWordsRaiseIllegalCmd : Prop :=
  (∀ w : Word, (∃ e, decode w = .error e) ↔ reservedWord w) ∧
    ∀ (s : State) (rest : List Input), s.status.busy = true → reservedWord s.cmd → s.inputs = .engine :: rest →
      step s = .next (State.failedWith .illegalCmd { s with inputs := rest })

/-- 30_encoding.md R94, R109: words written out from the encoding. -/
def Obligations.OpcodeMapWords : Prop :=
  decode 0x00000001#32 = .ok .setbit ∧ decode 0x00000002#32 = .ok .getbit ∧
    decode 0x00000903#32 = .ok (.setint 9) ∧ decode 0x00001F03#32 = .ok (.setint 31) ∧
    decode 0x00000004#32 = .ok (.getint 0) ∧ decode 0x00001004#32 = .ok (.getint 16) ∧
    decode 0x01100005#32 = .ok (.compress 16 true) ∧ decode 0x00090005#32 = .ok (.compress 9 false) ∧
    decode 0x00000006#32 = .ok .decompress

/-- 10_state.md R30, 00_scope.md R14: at the engine's turn the latched word's command runs, whole. -/
def Obligations.StepRunsLatchedCommand : Prop :=
  ∀ (s : State) (i : Instr), s.status.busy = true → decode s.cmd = .ok i →
    (s.inputs = [] → step s = exec i s) ∧
      ∀ rest, s.inputs = .engine :: rest → step s = exec i { s with inputs := rest }

/-! ### The BitField -/

/-- 20_memory.md R62: which bit of which byte a position names, and a write of one bit. -/
def Obligations.BitPositionMapping : Prop :=
  ∀ (bf : BitField) (p k : Nat) (v : Bool),
    (bf.order = .msbFirst → k = 7 - p % 8) → (bf.order = .lsbFirst → k = p % 8) →
      bf.bit p = (bf.bytes.read .bf (p / 8)).getLsbD k ∧
        (bf.putBit p v).size = bf.size ∧ (bf.putBit p v).order = bf.order ∧
        ∀ i j, j < 8 →
          ((bf.putBit p v).bytes.read .bf i).getLsbD j =
            if i = p / 8 ∧ j = k then v else (bf.bytes.read .bf i).getLsbD j

/-- 40_bitfield.md R131: the growth step. -/
def Obligations.GrowthStep : Prop :=
  ∀ (P : Params) (bf : BitField) (p : Nat),
    (P.bfCap < p / 8 + 1 → bf.ensureBit P p = .error .capacity) ∧
      (p / 8 + 1 ≤ P.bfCap → ∃ bf', bf.ensureBit P p = .ok bf' ∧ bf.grownFor bf' p)

/-- 40_bitfield.md R133: SETBIT, its errors in order and its completion. -/
def Obligations.SetbitMeaning : Prop :=
  ∀ s : State,
    (1 < s.arg1.toNat → exec .setbit s = .next (s.failedWith .configOverflow)) ∧
    (s.arg1.toNat ≤ 1 → s.params.bfCap < s.bf.size.toNat ∨ s.params.bfCap ≤ s.arg0.toNat / 8 →
      exec .setbit s = .next (s.failedWith .capacity)) ∧
    (s.arg1.toNat ≤ 1 → s.bf.size.toNat ≤ s.params.bfCap → s.arg0.toNat / 8 < s.params.bfCap →
      ∃ bf', s.bf.writtenWith bf' s.arg0.toNat 1 s.arg1.toNat ∧
        exec .setbit s = .next (State.finishedWith 0 { s with bf := bf' }))

/-- 40_bitfield.md R135: GETBIT, its errors and its completion. -/
def Obligations.GetbitMeaning : Prop :=
  ∀ s : State,
    (s.params.bfCap < s.bf.size.toNat ∨ s.params.bfCap ≤ s.arg0.toNat / 8 →
      exec .getbit s = .next (s.failedWith .capacity)) ∧
    (s.bf.size.toNat ≤ s.params.bfCap → s.arg0.toNat / 8 < s.params.bfCap →
      ∃ bf', s.bf.grownFor bf' s.arg0.toNat ∧
        exec .getbit s =
          .next (State.finishedWith
            (if s.arg0.toNat < 8 * s.bf.size.toNat ∧ s.bf.bit s.arg0.toNat = true then 1 else 0) { s with bf := bf' }))

/-- 40_bitfield.md R138: SETINT, its errors in order and its completion. -/
def Obligations.SetintMeaning : Prop :=
  ∀ (s : State) (w : Nat),
    (2 ^ w ≤ s.arg1.toNat → exec (.setint w) s = .next (s.failedWith .configOverflow)) ∧
    (s.arg1.toNat < 2 ^ w →
      s.params.bfCap < s.bf.size.toNat ∨ (0 < w ∧ s.params.bfCap ≤ (s.arg0.toNat + w - 1) / 8) →
      exec (.setint w) s = .next (s.failedWith .capacity)) ∧
    (s.arg1.toNat < 2 ^ w → s.bf.size.toNat ≤ s.params.bfCap →
      w = 0 ∨ (s.arg0.toNat + w - 1) / 8 < s.params.bfCap →
      ∃ bf', s.bf.writtenWith bf' s.arg0.toNat w s.arg1.toNat ∧
        exec (.setint w) s = .next (State.finishedWith 0 { s with bf := bf' }))

/-- 40_bitfield.md R140, R142: GETINT, its error, its insufficient data and its result. -/
def Obligations.GetintMeaning : Prop :=
  ∀ (s : State) (w : Nat), w ≤ 31 →
    (s.params.bfCap < s.bf.size.toNat → exec (.getint w) s = .next (s.failedWith .capacity)) ∧
    (s.bf.size.toNat ≤ s.params.bfCap → 8 * s.bf.size.toNat < s.arg0.toNat + w →
      exec (.getint w) s =
        .next (State.finishedWith 0 { s with status := { s.status with nodata := true } })) ∧
    (s.bf.size.toNat ≤ s.params.bfCap → s.arg0.toNat + w ≤ 8 * s.bf.size.toNat →
      ∃ v, s.bf.holdsInt s.arg0.toNat w v.toNat ∧ exec (.getint w) s = .next (s.finishedWith v))

/-- 40_bitfield.md R134, which the spec derives: a bit written by a successful SETBIT is the one a later GETBIT of the
position returns, whatever else happened, as long as the bit itself and the order stay and BF_SIZE does not fall. -/
def Obligations.BitLaw : Prop :=
  ∀ s t u : State, s.accepted → exec .setbit s = .next t → t.status.err = .none →
    u.params = s.params → u.arg0 = s.arg0 → u.bf.order = t.bf.order → t.bf.size.toNat ≤ u.bf.size.toNat →
    u.bf.size.toNat ≤ u.params.bfCap → u.bf.bit s.arg0.toNat = t.bf.bit s.arg0.toNat →
    exec .getbit u = .next (u.finishedWith s.arg1)

/-- 40_bitfield.md R139, which the spec derives: an integer written by a successful SETINT is the one a later GETINT
of the same position and width returns, whatever else happened, as long as its bits and the order stay and BF_SIZE
does not fall. At width 0 nothing is written, and R142's NODATA applies beyond the end (log 22). -/
def Obligations.IntegerLaw : Prop :=
  ∀ (s t u : State) (w : Nat), w ≤ 31 → s.accepted → exec (.setint w) s = .next t → t.status.err = .none →
    u.params = s.params → u.arg0 = s.arg0 → u.bf.order = t.bf.order → t.bf.size.toNat ≤ u.bf.size.toNat →
    u.bf.size.toNat ≤ u.params.bfCap →
    (∀ q, s.arg0.toNat ≤ q → q < s.arg0.toNat + w → u.bf.bit q = t.bf.bit q) →
    (0 < w ∨ s.arg0.toNat ≤ 8 * u.bf.size.toNat → exec (.getint w) u = .next (u.finishedWith s.arg1)) ∧
    (w = 0 → 8 * u.bf.size.toNat < s.arg0.toNat →
      exec (.getint w) u = .next (State.finishedWith 0 { u with status := { u.status with nodata := true } }))

/-- 40_bitfield.md R145, which the spec derives: after any sequence of successful BitField commands from BF_SIZE = 0,
BF_SIZE is the number of bytes up to the largest bit position addressed. -/
def Obligations.SizeLaw : Prop :=
  ∀ (cs : List BfCommand) (s t : State), (∀ c ∈ cs, isBitField c.instr = true) → s.bf.size = 0 → runsTo cs s t →
    t.bf.size.toNat = (cs.map BfCommand.reach).foldl max 0

/-- 40_bitfield.md R146, which the spec derives: bit iteration. A GETBIT inside the BitField changes nothing but
RESULT. -/
def Obligations.GetbitInsideReadsOnly : Prop :=
  ∀ s : State, s.bf.size.toNat ≤ s.params.bfCap → s.arg0.toNat < 8 * s.bf.size.toNat →
    exec .getbit s = .next (s.finishedWith (if s.bf.bit s.arg0.toNat = true then 1 else 0))

/-! ### The host interface -/

/-- 10_state.md R25 to R29, 60_exceptions.md R241: the bits of STATUS, and the code of every outcome. -/
def Obligations.StatusWordLayout : Prop :=
  (∀ st : Status,
    st.word.getLsbD 0 = st.busy ∧ st.word.getLsbD 1 = st.nodata ∧ st.word.getLsbD 2 = st.reject ∧
      st.word.getLsbD 3 = false ∧ (st.word.extractLsb' 4 4).toNat = st.err.code ∧ st.err.code ≤ 7 ∧
      st.word.extractLsb' 8 24 = 0) ∧
    ErrCode.none.code = 0 ∧ ErrCode.illegalCmd.code = 1 ∧ ErrCode.configMaxw.code = 2 ∧
      ErrCode.configOverflow.code = 3 ∧ ErrCode.capacity.code = 4 ∧ ErrCode.streamTruncated.code = 5 ∧
      ErrCode.streamBadMagic.code = 6 ∧ ErrCode.streamBadCode.code = 7

/-- 10_state.md R23, R24, R27, R29, R31 to R38: idle host writes and reads of the registers, whatever inputs follow (a
write of CMD is O18's). -/
def Obligations.RegisterMap : Prop :=
  ∀ (s : State) (v : Word) (rest : List Input), s.status.busy = false →
    let write := fun off => step { s with inputs := .access (.write .reg off 32 v) :: rest }
    let read := fun off => step { s with inputs := .access (.read .reg off 32) :: rest }
    let u : State := { s with inputs := rest }
    write 0x00 = .next { u with bf := { s.bf with order := if v.getLsbD 0 then .lsbFirst else .msbFirst } } ∧
    write 0x04 =
      .next { u with status := { s.status with reject := if v.getLsbD 2 then false else s.status.reject } } ∧
    write 0x0C = .next { u with arg0 := v } ∧ write 0x10 = .next { u with arg1 := v } ∧
    write 0x18 = .next { u with bf := { s.bf with size := v } } ∧ write 0x1C = .next { u with dataLen := v } ∧
    write 0x14 = .next u ∧ write 0x20 = .next u ∧ write 0x24 = .next u ∧ write 0x28 = .next u ∧
    read 0x00 = .next { u with rdata := if s.bf.order = .lsbFirst then 1 else 0 } ∧
    read 0x04 = .next { u with rdata := s.status.word } ∧ read 0x08 = .next { u with rdata := 0 } ∧
    read 0x0C = .next { u with rdata := s.arg0 } ∧ read 0x10 = .next { u with rdata := s.arg1 } ∧
    read 0x14 = .next { u with rdata := s.result } ∧ read 0x18 = .next { u with rdata := s.bf.size } ∧
    read 0x1C = .next { u with rdata := s.dataLen } ∧ read 0x20 = .next { u with rdata := s.errCode } ∧
    read 0x24 = .next { u with rdata := s.errExpect } ∧ read 0x28 = .next { u with rdata := s.errBitpos }

/-- 10_state.md R30: a CMD write while idle is accepted and the engine then executes the word as it decodes; while
busy it is dropped; CMD reads 0. -/
def Obligations.CommandAcceptance : Prop :=
  ∀ (s : State) (w : Word) (rest : List Input), s.inputs = .access (.write .reg 0x08 32 w) :: .engine :: rest →
    (s.status.busy = false →
      ∃ t, step s = .next t ∧
        t = { s with
              status := { busy := true, nodata := false, reject := s.status.reject, err := .none }
              cmd := w, errCode := 0, errExpect := 0, errBitpos := 0, inputs := .engine :: rest } ∧
        (∀ i, decode w = .ok i → step t = exec i { t with inputs := rest }) ∧
        ∀ e, decode w = .error e → step t = .next (State.failedWith .illegalCmd { t with inputs := rest })) ∧
    (s.status.busy = true →
      step s = .next { s with status := { s.status with reject := true }, inputs := .engine :: rest }) ∧
    (s.status.busy = false →
      step { s with inputs := .access (.read .reg 0x08 32) :: rest } = .next { s with rdata := 0, inputs := rest })

/-- 70_reset_and_hazards.md R282: host writes while busy. The first clause takes in every write to REG, BFB or DATAB that
is not one to STATUS, as 92 D23 and 93 V6 have it: a reserved offset, another width or alignment and an index beyond the
capacity too. -/
def Obligations.BusyWritesDropped : Prop :=
  ∀ (s : State) (sp : Space) (off width : Nat) (v : Word) (rest : List Input), s.status.busy = true →
    s.inputs = .access (.write sp off width v) :: rest →
    (sp ≠ .reg ∨ (off < 0x40 ∧ off / 4 ≠ 1) →
      step s = .next { s with status := { s.status with reject := true }, inputs := rest }) ∧
    (sp = .reg → off = 0x04 → width = 32 →
      step s =
        .next { s with
          status := { s.status with reject := if v.getLsbD 2 then false else s.status.reject }, inputs := rest })

/-- 70_reset_and_hazards.md R283: host reads while busy have no effect but the word they return, and a read of STATUS
returns BUSY = 1 and the true REJECT. That its reserved bits read 0 while busy is log 5's deduction from 10_state.md R29,
not R283's. -/
def Obligations.BusyReads : Prop :=
  ∀ (s t : State) (sp : Space) (off width : Nat) (rest : List Input), s.status.busy = true →
    s.inputs = .access (.read sp off width) :: rest → step s = .next t →
      t = { s with rdata := t.rdata, freeCount := t.freeCount, inputs := rest } ∧
        (sp = .reg → off = 0x04 → width = 32 →
          t.rdata.getLsbD 0 = true ∧ t.rdata.getLsbD 2 = s.status.reject ∧ t.rdata.getLsbD 3 = false ∧
            t.rdata.extractLsb' 8 24 = 0)

/-- 10_state.md R27, 70_reset_and_hazards.md R282: no command changes REJECT, only a host write while busy sets it,
and only a host write of 1 to STATUS bit 2, or the platform's reset, clears it. A write at the offset of
STATUS never sets it. -/
def Obligations.RejectChangesOnlyByHost : Prop :=
  ∀ s t : State, step s = .next t →
    (s.status.reject = false → t.status.reject = true →
      s.status.busy = true ∧
        ∃ sp off width v rest, s.inputs = .access (.write sp off width v) :: rest ∧
          (sp = .reg → off < 0x40 ∧ off ≠ 0x04)) ∧
    (s.status.reject = true → t.status.reject = false →
      (∃ v rest, v.getLsbD 2 = true ∧ s.inputs = .access (.write .reg 0x04 32 v) :: rest) ∨
        ∃ rest, s.inputs = .reset :: rest)

/-- 20_memory.md R64, R65: idle accesses to the byte windows, inside and beyond the capacity, whatever inputs follow. That
a write stores the low byte of its 32-bit data and a read is zero-extended is the model's choice (log 15). -/
def Obligations.ByteWindows : Prop :=
  ∀ (s : State) (i : Nat) (v : Word) (rest : List Input), s.status.busy = false →
    let bfRead := step { s with inputs := .access (.read .bfb i 8) :: rest }
    let bfWrite := step { s with inputs := .access (.write .bfb i 8 v) :: rest }
    let dataRead := step { s with inputs := .access (.read .datab i 8) :: rest }
    let dataWrite := step { s with inputs := .access (.write .datab i 8 v) :: rest }
    let u : State := { s with inputs := rest }
    bfRead = .next { u with rdata := if i < s.params.bfCap then (s.bf.bytes.read .bf i).setWidth 32 else 0 } ∧
    dataRead = .next { u with rdata := if i < s.params.dataCap then (s.data.read .data i).setWidth 32 else 0 } ∧
    (s.params.bfCap ≤ i → bfWrite = .next u) ∧ (s.params.dataCap ≤ i → dataWrite = .next u) ∧
    (i < s.params.bfCap →
      ∃ m, bfWrite = .next { u with bf := { s.bf with bytes := m } } ∧
        ∀ j, m.read .bf j = if j = i then v.setWidth 8 else s.bf.bytes.read .bf j) ∧
    (i < s.params.dataCap →
      ∃ m, dataWrite = .next { u with data := m } ∧
        ∀ j, m.read .data j = if j = i then v.setWidth 8 else s.data.read .data j)

/-- 20_memory.md R67: accesses of another width or alignment are ignored or read 0. While busy such a write is dropped as
any other non-STATUS write (92 D23, 93 V6). That an ill-formed write in the word of STATUS is no such write (log 12), and
that the read returns 0 while busy too (log 13), are the model's deductions. -/
def Obligations.IllFormedAccesses : Prop :=
  ∀ (s : State) (sp : Space) (off width : Nat) (v : Word) (rest : List Input),
    (sp = .reg ∧ off < 0x40 ∧ (width ≠ 32 ∨ off % 4 ≠ 0)) ∨ (sp ≠ .reg ∧ width ≠ 8) →
    (s.inputs = .access (.read sp off width) :: rest → step s = .next { s with rdata := 0, inputs := rest }) ∧
    (s.inputs = .access (.write sp off width v) :: rest →
      (s.status.busy = false ∨ (sp = .reg ∧ off / 4 = 1) → step s = .next { s with inputs := rest }) ∧
      (s.status.busy = true → ¬(sp = .reg ∧ off / 4 = 1) →
        step s = .next { s with status := { s.status with reject := true }, inputs := rest }))

/-- 10_state.md R39: the reserved offsets read 0 and ignore writes; offsets at or above 0x40 do not reach the block; both
whatever inputs follow. -/
def Obligations.ReservedOffsets : Prop :=
  ∀ (s : State) (off width : Nat) (v : Word) (rest : List Input),
    let u : State := { s with inputs := rest }
    (0x2C ≤ off → off < 0x40 → off % 4 = 0 → s.status.busy = false →
      step { s with inputs := .access (.read .reg off 32) :: rest } = .next { u with rdata := 0 } ∧
      step { s with inputs := .access (.write .reg off 32 v) :: rest } = .next u) ∧
    (0x40 ≤ off →
      step { s with inputs := .access (.write .reg off width v) :: rest } = .next u ∧
      ∃ t, step { s with inputs := .access (.read .reg off width) :: rest } = .next t ∧
        t = { u with rdata := t.rdata, freeCount := t.freeCount })

/-! ### What every command does and keeps -/

/-- 10_state.md R31, R32, R27, 20_memory.md R61, 70_reset_and_hazards.md R273: no command writes ARG0, ARG1, REJECT, the
parameters or anything of the host's side, and each writes only what R61 lists for it and its own working registers
(10_state.md R47, R48). That the latched word is kept is the model's choice (log 8). -/
def Obligations.CommandFrame : Prop :=
  ∀ (i : Instr) (s t : State), exec i s = .next t →
    t.arg0 = s.arg0 ∧ t.arg1 = s.arg1 ∧ t.status.reject = s.status.reject ∧ t.params = s.params ∧ t.cmd = s.cmd ∧
      t.inputs = s.inputs ∧ t.rdata = s.rdata ∧ t.freeCount = s.freeCount ∧
      (isBitField i = true →
        t.data = s.data ∧ t.dataLen = s.dataLen ∧ t.bf.order = s.bf.order ∧ t.enc = s.enc ∧ t.edict = s.edict ∧
          t.dec = s.dec ∧ t.ddict = s.ddict) ∧
      (∀ maxw blk, i = .compress maxw blk → t.data = s.data ∧ t.dataLen = s.dataLen ∧ t.dec = s.dec ∧ t.ddict = s.ddict) ∧
      (i = .decompress →
        t.bf.bytes = s.bf.bytes ∧ t.bf.size = s.bf.size ∧ t.enc = s.enc ∧ t.edict = s.edict) ∧
      (∀ w, i = .getint w → t.bf = s.bf)

/-- 60_exceptions.md R240, R250, R252, R253: every command ends, in exactly one of three ways. -/
def Obligations.EveryCommandEnds : Prop :=
  ∀ (i : Instr) (s : State), s.accepted →
    ∃ t, exec i s = .next t ∧ t.status.busy = false ∧
      ((t.status.err = .none ∧ t.status.nodata = false) ∨
        (t.status.err = .none ∧ t.status.nodata = true ∧ t.result = 0 ∧ ∃ w, i = .getint w) ∨
        (t.status.err ≠ .none ∧ t.status.nodata = false ∧ t.result = 0))

/-- 60_exceptions.md R251: the diagnostics of every outcome. -/
def Obligations.ErrorDiagnostics : Prop :=
  ∀ (i : Instr) (s t : State), s.accepted → exec i s = .next t →
    (t.status.err = .streamBadCode →
      ∃ code, t.errCode = word code ∧ t.errExpect = word t.dec.next ∧
        t.errBitpos = word (t.dec.pos - t.dec.width) ∧ t.dec.width ≤ t.dec.pos ∧
        t.bf.getInt (t.dec.pos - t.dec.width) t.dec.width = some code) ∧
    (t.status.err = .streamBadMagic →
      (t.errCode = (s.bf.bytes.read .bf 0).setWidth 32 ∧ t.errExpect = 0x1F ∧ t.errBitpos = 0) ∨
        (t.errCode = (s.bf.bytes.read .bf 1).setWidth 32 ∧ t.errExpect = 0x9D ∧ t.errBitpos = 8)) ∧
    (t.status.err ≠ .streamBadCode → t.status.err ≠ .streamBadMagic →
      t.errCode = 0 ∧ t.errExpect = 0 ∧ t.errBitpos = 0)

/-- 60_exceptions.md R244, R246 to R249, 41_encoder.md R179: the errors each command can end with; COMPRESS never
overflows. -/
def Obligations.ErrorsOfEachCommand : Prop :=
  ∀ (i : Instr) (s t : State), s.accepted → exec i s = .next t →
    (i = .setbit → t.status.err ∈ [ErrCode.none, .configOverflow, .capacity]) ∧
    (i = .getbit → t.status.err ∈ [ErrCode.none, .capacity]) ∧
    (∀ w, i = .setint w → t.status.err ∈ [ErrCode.none, .configOverflow, .capacity]) ∧
    (∀ w, i = .getint w → t.status.err ∈ [ErrCode.none, .capacity]) ∧
    (∀ maxw blk, i = .compress maxw blk → t.status.err ∈ [ErrCode.none, .configMaxw, .capacity]) ∧
    (i = .decompress →
      t.status.err ∈ [ErrCode.none, .capacity, .streamTruncated, .streamBadMagic, .streamBadCode])

/-- 10_state.md R26: NODATA is set by GETINT, exactly when data are insufficient, and by no other command. -/
def Obligations.NodataOnlyByGetint : Prop :=
  ∀ (i : Instr) (s t : State), s.accepted → exec i s = .next t →
    (t.status.nodata = true ↔
      ∃ w, i = .getint w ∧ s.bf.size.toNat ≤ s.params.bfCap ∧ 8 * s.bf.size.toNat < s.arg0.toNat + w)

/-- 70_reset_and_hazards.md R271: the state after reset. -/
def Obligations.ResetState : Prop :=
  (∀ r : Reg, readReg r State.reset = 0) ∧ State.reset.status.busy = false ∧ State.reset.bf.order = .msbFirst ∧
    State.reset.bf.bytes.cells = [] ∧ State.reset.data.cells = []

/-- 70_reset_and_hazards.md R270, R271, R273: a platform reset, also while a command runs: the command is abandoned,
every register is 0, no byte of a store is known, the parameters stay. -/
def Obligations.PlatformResetAbandons : Prop :=
  ∀ (s : State) (rest : List Input), s.inputs = .reset :: rest →
    ∃ t, step s = .next t ∧ (∀ r : Reg, readReg r t = 0) ∧ t.status.busy = false ∧ t.bf.bytes.cells = [] ∧
      t.data.cells = [] ∧ t.params = s.params ∧ t.inputs = rest

/-- 60_exceptions.md R264: an idle block keeps its state. -/
def Obligations.IdleKeepsState : Prop :=
  ∀ s : State, s.status.busy = false →
    (s.inputs = [] → step s = .next s) ∧
      ∀ rest, s.inputs = .engine :: rest → step s = .next { s with inputs := rest }

/-- 70_reset_and_hazards.md R282: the running command cannot have its inputs or outputs changed under it. Any host
accesses that arrive while it runs leave the state it ends in as it would be without them, but for REJECT and the word
the last read returned. -/
def Obligations.BusyAccessesDoNotDisturb : Prop :=
  ∀ (as : List Access) (s : State) (rest : List Input), s.status.busy = true →
    ∃ t u,
      Host.Core.run Sys2Proof.core (as.length + 1) { s with inputs := as.map .access ++ .engine :: rest } = .next t ∧
      step { s with inputs := .engine :: rest } = .next u ∧
      t = { u with
            status := { u.status with reject := t.status.reject }, rdata := t.rdata, freeCount := t.freeCount }

/-- 70_reset_and_hazards.md R273: nothing changes the parameters. -/
def Obligations.ParametersNeverChange : Prop :=
  ∀ s t : State, step s = .next t → t.params = s.params

/-- The invariant holds after reset (with the model's own reset values of the working registers, log 11). -/
def Obligations.ResetSatisfiesInvariant : Prop := State.reset.Inv

/-- 10_state.md R40 to R48: every step keeps the stores canonical and within capacity, the dictionaries in prefix-pair
form and every working register within its stated width. -/
def Obligations.StepKeepsInvariant : Prop :=
  ∀ s t : State, s.Inv → step s = .next t → t.Inv

/-! ### COMPRESS -/

/-- 41_encoder.md R161, 60_exceptions.md R246: the start checks, in order, with nothing changed. -/
def Obligations.CompressStartChecks : Prop :=
  ∀ (s : State) (maxw : Nat) (blk : Bool),
    (maxw < 9 ∨ 31 < maxw → exec (.compress maxw blk) s = .next (s.failedWith .configMaxw)) ∧
    (9 ≤ maxw → maxw ≤ 31 → s.params.dataCap < s.dataLen.toNat →
      exec (.compress maxw blk) s = .next (s.failedWith .capacity))

/-- 41_encoder.md R160, R178, 60_exceptions.md R248: COMPRESS completes whenever the block is large enough for the
input, and leaves a stream that starts with the header. -/
def Obligations.CompressCompletes : Prop :=
  ∀ (s : State) (maxw : Nat) (blk : Bool), 9 ≤ maxw → maxw ≤ 31 → s.dataLen.toNat ≤ s.params.dataCap →
    24 + 62 * s.dataLen.toNat ≤ 8 * s.params.bfCap →
    (2 ^ maxw ≤ s.params.dictLimit ∨ 257 + s.dataLen.toNat ≤ s.params.dictLimit) →
    ∃ bf' regs dict,
      exec (.compress maxw blk) s =
        .next (State.finishedWith bf'.size { s with bf := bf', enc := regs, edict := dict }) ∧
      bf'.order = s.params.codecOrder ∧ bf'.size.toNat = (regs.pos + 7) / 8 ∧ regs.consumed = s.dataLen.toNat ∧
      bf'.bytes.read .bf 0 = 0x1F ∧ bf'.bytes.read .bf 1 = 0x9D ∧
      bf'.bytes.read .bf 2 = BitVec.ofNat 8 (maxw + 128 * blk.toNat)

/-- 41_encoder.md R178, 20_memory.md R64, 93 U2: the outputs of a COMPRESS that passed its start checks, on success and on
error. No byte above the stream, or above what was written of it before the error, changes (log 3). -/
def Obligations.CompressOutputs : Prop :=
  ∀ (s : State) (maxw : Nat) (blk : Bool), 9 ≤ maxw → maxw ≤ 31 → s.dataLen.toNat ≤ s.params.dataCap →
    ∃ bf' regs dict, bf'.order = s.params.codecOrder ∧
      ((exec (.compress maxw blk) s =
          .next (State.finishedWith bf'.size { s with bf := bf', enc := regs, edict := dict }) ∧
        bf'.size.toNat = (regs.pos + 7) / 8 ∧
        ∀ i, bf'.size.toNat ≤ i → bf'.bytes.read .bf i = s.bf.bytes.read .bf i) ∨
       (exec (.compress maxw blk) s =
          .next (State.failedWith .capacity { s with bf := bf', enc := regs, edict := dict }) ∧
        bf'.size = 0 ∧
        ∀ i, (regs.pos + 7) / 8 ≤ i → bf'.bytes.read .bf i = s.bf.bytes.read .bf i))

/-- 41_encoder.md R177, 30_encoding.md R106: an empty input gives the header alone. -/
def Obligations.CompressEmptyInput : Prop :=
  ∀ (s : State) (maxw : Nat) (blk : Bool), 9 ≤ maxw → maxw ≤ 31 → s.dataLen = 0 →
    ∃ bf' regs,
      exec (.compress maxw blk) s = .next (State.finishedWith 3 { s with bf := bf', enc := regs, edict := [] }) ∧
      bf'.order = s.params.codecOrder ∧ bf'.size = 3 ∧
      bf'.bytes.read .bf 0 = 0x1F ∧ bf'.bytes.read .bf 1 = 0x9D ∧
      bf'.bytes.read .bf 2 = BitVec.ofNat 8 (maxw + 128 * blk.toNat) ∧
      ∀ i, 3 ≤ i → bf'.bytes.read .bf i = s.bf.bytes.read .bf i

/-- 41_encoder.md R179, which the spec derives: the loop state whose codes fit is kept by every byte, and the only
error of a byte is CAPACITY. -/
def Obligations.EncoderCodesFit : Prop :=
  ∀ (P : Params) (b : Byte) (c : EncCtx), c.CodesFit →
    (∀ c', scanByte P b c = .ok c' → c'.CodesFit) ∧
      (∀ e c', scanByte P b c = .raised e c' → e = { err := .capacity }) ∧
      ∀ e c', flush P c = .raised e c' → e = { err := .capacity }

/-- 41_encoder.md R180, which the spec derives: between resets the code width never falls, by a byte it grows by at
most one, and it never exceeds the maximum. -/
def Obligations.EncoderWidthMonotone : Prop :=
  ∀ (P : Params) (b : Byte) (c c' : EncCtx), c.regs.width ≤ c.regs.maxw → 9 ≤ c.regs.maxw → scanByte P b c = .ok c' →
    c'.regs.maxw = c.regs.maxw ∧ c'.regs.width ≤ c'.regs.maxw ∧
      ((c.regs.width ≤ c'.regs.width ∧ c'.regs.width ≤ c.regs.width + 1) ∨
        (c.regs.blk = true ∧ c'.regs.width = 9 ∧ c'.regs.next = 257 ∧ c'.regs.full = false ∧ c'.dict = []))

/-- 41_encoder.md R169, R170, R171, R172: the width step, then the insertion, where the call does not reach the monitor:
while the dictionary is not full, on becoming full in non-block mode, and once full in non-block mode. -/
def Obligations.GrowInserts : Prop :=
  ∀ (P : Params) (seen : Nat) (b : Byte) (c : EncCtx),
    let entry : Entry := { code := c.regs.next, pre := seen, byte := b }
    (c.regs.full = false →
      (c.regs.next < 2 ^ c.regs.width → c.regs.next < P.dictLimit →
        grow P seen b c = .ok { c with regs := { c.regs with next := c.regs.next + 1 }, dict := entry :: c.dict }) ∧
      (2 ^ c.regs.width ≤ c.regs.next → c.regs.width < c.regs.maxw → c.regs.next < P.dictLimit →
        grow P seen b c =
          .ok { c with
            regs := { c.regs with width := c.regs.width + 1, next := c.regs.next + 1 }, dict := entry :: c.dict }) ∧
      (2 ^ c.regs.width ≤ c.regs.next → c.regs.maxw ≤ c.regs.width → c.regs.blk = false →
        grow P seen b c = .ok { c with regs := { c.regs with full := true } }) ∧
      (c.regs.next < 2 ^ c.regs.width ∨ c.regs.width < c.regs.maxw → P.dictLimit ≤ c.regs.next →
        ∃ c', grow P seen b c = .raised { err := .capacity } c' ∧ c'.dict = c.dict ∧ c'.regs.next = c.regs.next)) ∧
    (c.regs.full = true → c.regs.blk = false → c.regs.next < 2 ^ c.regs.width ∨ c.regs.maxw ≤ c.regs.width →
      grow P seen b c = .ok c)

/-- 41_encoder.md R169, R172 to R176: what Grow does in block mode when the dictionary is full, the call in which it
becomes full included. -/
def Obligations.MonitorOutcomes : Prop :=
  ∀ (P : Params) (seen : Nat) (b : Byte) (c : EncCtx), c.regs.blk = true → 24 ≤ c.regs.pos →
    2 ^ c.regs.width ≤ c.regs.next → c.regs.width = c.regs.maxw →
    let ratio := c.regs.consumed / (c.regs.pos / 8)
    (c.regs.ckpt = none →
      grow P seen b c = .ok { c with regs := { c.regs with full := true, ckpt := some (c.regs.pos + 10000) } }) ∧
    (∀ k, c.regs.ckpt = some k → c.regs.pos ≤ k →
      grow P seen b c = .ok { c with regs := { c.regs with full := true } }) ∧
    (∀ k, c.regs.ckpt = some k → k < c.regs.pos → (∀ base, c.regs.base = some base → base ≤ ratio) →
      grow P seen b c =
        .ok { c with regs := { c.regs with full := true, base := some ratio, ckpt := some (k + 10000) } }) ∧
    (∀ k base, c.regs.ckpt = some k → k < c.regs.pos → c.regs.base = some base → ratio < base → 9 ≤ c.regs.width →
      ((c.regs.pos + c.regs.width - 1) / 8 < P.bfCap →
        ∃ bf', c.bf.writtenWith bf' c.regs.pos c.regs.width 256 ∧
          grow P seen b c =
            .ok { regs := { c.regs with
                    pos := c.regs.pos + c.regs.width, width := 9, next := 257, full := false, ckpt := none
                    base := none }
                  dict := [], bf := bf' }) ∧
      (P.bfCap ≤ (c.regs.pos + c.regs.width - 1) / 8 →
        grow P seen b c = .raised { err := .capacity } { c with regs := { c.regs with full := true } }))

/-- 41_encoder.md R182, which the spec derives: COMPRESS depends on DATA below DATA_LEN, its operands and the
parameters only: whatever BF, the working registers and everything else held, the outcome and the stream are the same.
-/
def Obligations.CompressDeterminism : Prop :=
  ∀ (s₁ s₂ t₁ t₂ : State) (maxw : Nat) (blk : Bool), s₁.accepted → s₂.accepted → s₁.params = s₂.params →
    s₁.dataLen = s₂.dataLen → (∀ i, i < s₁.dataLen.toNat → s₁.data.read .data i = s₂.data.read .data i) →
    exec (.compress maxw blk) s₁ = .next t₁ → exec (.compress maxw blk) s₂ = .next t₂ →
    t₁.status.err = t₂.status.err ∧ t₁.result = t₂.result ∧ t₁.errCode = t₂.errCode ∧
      (9 ≤ maxw → maxw ≤ 31 → s₁.dataLen.toNat ≤ s₁.params.dataCap →
        t₁.bf.size = t₂.bf.size ∧ t₁.bf.order = t₂.bf.order ∧
        ∀ i, i < t₁.bf.size.toNat → t₁.bf.bytes.read .bf i = t₂.bf.bytes.read .bf i)

/-! ### DECOMPRESS -/

/-- 42_decoder.md R202, 60_exceptions.md R243, R251: the capacity pre-check and the header checks, in order. -/
def Obligations.DecompressHeaderChecks : Prop :=
  ∀ s : State,
    (s.params.bfCap < s.bf.size.toNat → exec .decompress s = .next (s.failedWith .capacity)) ∧
    (s.bf.size.toNat ≤ s.params.bfCap →
      ∃ regs,
        let wrapped : State := { s with bf := { s.bf with order := s.params.codecOrder }, dec := regs, dataLen := 0 }
        (s.bf.size.toNat < 3 → exec .decompress s = .next (wrapped.failedWith .streamTruncated)) ∧
        (3 ≤ s.bf.size.toNat → s.bf.bytes.read .bf 0 ≠ 0x1F →
          exec .decompress s =
            .next (wrapped.failedAs .streamBadMagic ((s.bf.bytes.read .bf 0).setWidth 32) 0x1F 0)) ∧
        (3 ≤ s.bf.size.toNat → s.bf.bytes.read .bf 0 = 0x1F → s.bf.bytes.read .bf 1 ≠ 0x9D →
          exec .decompress s =
            .next (wrapped.failedAs .streamBadMagic ((s.bf.bytes.read .bf 1).setWidth 32) 0x9D 8)))

/-- 42_decoder.md R201, R218, R219: the outputs of a DECOMPRESS that passed the pre-check, on success and on error. -/
def Obligations.DecompressOutputs : Prop :=
  ∀ s : State, s.bf.size.toNat ≤ s.params.bfCap →
    ∃ regs dict data,
      let wrapped : State :=
        { s with bf := { s.bf with order := s.params.codecOrder }, dec := regs, ddict := dict, data := data }
      (exec .decompress s = .next (State.finishedWith (word regs.out) { wrapped with dataLen := word regs.out }) ∧
        regs.out ≤ s.params.dataCap ∧
        ∀ i, regs.out ≤ i → data.read .data i = s.data.read .data i) ∨
      (∃ e code expect bitpos, e ≠ .none ∧
        exec .decompress s = .next (State.failedAs e code expect bitpos { wrapped with dataLen := 0 }) ∧
        (regs.out = 0 → data = s.data))

/-- 42_decoder.md R206, 92 D10: a header and too few bits for a code decode to the empty output. -/
def Obligations.DecompressHeaderOnly : Prop :=
  ∀ s : State, s.bf.size.toNat ≤ s.params.bfCap → s.bf.size.toNat = 3 ∨ s.bf.size.toNat = 4 →
    s.bf.bytes.read .bf 0 = 0x1F → s.bf.bytes.read .bf 1 = 0x9D →
    ∃ regs,
      exec .decompress s =
        .next (State.finishedWith 0
          { s with
            bf := { s.bf with order := s.params.codecOrder }, dec := regs, ddict := [], dataLen := 0 }) ∧
      regs.out = 0

/-- 42_decoder.md R206, 92 D9: a first code of 256 or more is STREAM_BAD_CODE at bit 24, with DATA unchanged. -/
def Obligations.FirstCodeMustBeByte : Prop :=
  ∀ (s : State) (code : Nat), s.bf.size.toNat ≤ s.params.bfCap →
    s.bf.bytes.read .bf 0 = 0x1F → s.bf.bytes.read .bf 1 = 0x9D →
    BitField.getInt { s.bf with order := s.params.codecOrder } 24 9 = some code → 256 ≤ code →
    ∃ regs,
      exec .decompress s =
        .next (State.failedAs .streamBadCode (word code)
          (if (s.bf.bytes.read .bf 2).getLsbD 7 then 257 else 256) 24
          { s with
            bf := { s.bf with order := s.params.codecOrder }, dec := regs, ddict := [], dataLen := 0 })

/-- 42_decoder.md R204 to R213: a stream of byte codes at width 9 decodes to those bytes. DECOMPRESS completes on it
whatever else the state holds. -/
def Obligations.DecompressLiteralStream : Prop :=
  ∀ (s : State) (codes : List Byte), s.bf.size.toNat ≤ s.params.bfCap →
    s.bf.bytes.read .bf 0 = 0x1F → s.bf.bytes.read .bf 1 = 0x9D → (s.bf.bytes.read .bf 2).toNat % 32 ≤ 9 →
    24 + 9 * codes.length ≤ 8 * s.bf.size.toNat → 8 * s.bf.size.toNat < 24 + 9 * (codes.length + 1) →
    codes.length ≤ s.params.dataCap →
    (∀ k (h : k < codes.length),
      BitField.holdsInt { s.bf with order := s.params.codecOrder } (24 + 9 * k) 9 codes[k].toNat) →
    ∃ regs dict data,
      exec .decompress s =
        .next (State.finishedWith (word codes.length)
          { s with
            bf := { s.bf with order := s.params.codecOrder }, dec := regs, ddict := dict, data := data
            dataLen := word codes.length }) ∧
      (∀ k (h : k < codes.length), data.read .data k = codes[k]) ∧
      ∀ i, codes.length ≤ i → data.read .data i = s.data.read .data i

/-- 42_decoder.md R207, R215: a RESET_CODE in block mode, and the code after it. -/
def Obligations.ResetCodeStep : Prop :=
  ∀ (P : Params) (bf : BitField) (c : DecCtx), c.regs.blk = true → codeAt bf c = some 256 →
    (bf.getInt (c.regs.pos + c.regs.width) 9 = none →
      ∃ c', mainStep P bf c = .ended c' ∧ c'.regs.out = c.regs.out ∧ c'.data = c.data) ∧
    (∀ b : Byte, bf.getInt (c.regs.pos + c.regs.width) 9 = some b.toNat → c.regs.out < P.dataCap →
      ∃ c', mainStep P bf c = .go c' ∧ c'.dict = [] ∧ c'.data = c.data.write c.regs.out b ∧
        c'.regs = { c.regs with
          pos := c.regs.pos + c.regs.width + 9, width := 9, next := 257, seen := b.toNat, out := c.regs.out + 1 }) ∧
    (∀ code, bf.getInt (c.regs.pos + c.regs.width) 9 = some code → 256 ≤ code →
      ∃ c', mainStep P bf c =
        .raised { err := .streamBadCode, code := code, expect := 257, bitpos := c.regs.pos + c.regs.width } c') ∧
    (∀ b : Byte, bf.getInt (c.regs.pos + c.regs.width) 9 = some b.toNat → P.dataCap ≤ c.regs.out →
      ∃ c', mainStep P bf c = .raised { err := .capacity } c' ∧ c'.data = c.data)

/-- 42_decoder.md R209 to R215: a code that is no RESET_CODE. A known code outputs its string and stores seen plus its
first byte; d.next itself outputs seen plus seen's first byte and stores the same; then seen, d.next and the width
advance. Without room in DATA for the output or in the dictionary for the entry the code raises CAPACITY. Any other code
is corrupt. -/
def Obligations.CodeExpansion : Prop :=
  ∀ (P : Params) (bf : BitField) (c : DecCtx) (code : Nat), c.Mirrors → codeAt bf c = some code →
    ¬(c.regs.blk = true ∧ code = 256) →
    (∀ word, (knownCodeIn (firstCode c.regs.blk) c.dict code ∧ word = dictStr c.dict code) ∨
        (code = c.regs.next ∧ word = dictStr c.dict c.regs.seen ++ (dictStr c.dict c.regs.seen).take 1) →
      (c.regs.next < P.dictLimit ∨ 2 ^ c.regs.wtop ≤ c.regs.next → c.regs.out + word.length ≤ P.dataCap →
        ∃ c', mainStep P bf c = .go c' ∧ c'.regs.seen = code ∧ c'.regs.out = c.regs.out + word.length ∧
          c'.regs.pos = c.regs.pos + c.regs.width ∧
          (∀ k (h : k < word.length), c'.data.read .data (c.regs.out + k) = word[k]) ∧
          (∀ i, i < c.regs.out ∨ c.regs.out + word.length ≤ i → c'.data.read .data i = c.data.read .data i) ∧
          (2 ^ c.regs.wtop ≤ c.regs.next → c'.regs.next = c.regs.next ∧ c'.dict = c.dict) ∧
          (c.regs.next < 2 ^ c.regs.wtop →
            c'.regs.next = c.regs.next + 1 ∧
              c'.dict = { code := c.regs.next, pre := c.regs.seen, byte := word.headD 0 } :: c.dict) ∧
          c'.regs.width =
            if 2 ^ c.regs.width ≤ c'.regs.next ∧ c.regs.width < c.regs.maxw then c.regs.width + 1
            else c.regs.width) ∧
      ((c.regs.next < 2 ^ c.regs.wtop ∧ P.dictLimit ≤ c.regs.next) ∨ P.dataCap < c.regs.out + word.length →
        ∃ c', mainStep P bf c = .raised { err := .capacity } c')) ∧
    (¬knownCodeIn (firstCode c.regs.blk) c.dict code → code ≠ c.regs.next →
      ∃ c', mainStep P bf c =
        .raised { err := .streamBadCode, code := code, expect := c.regs.next, bitpos := c.regs.pos } c')

/-- 10_state.md R46: in a dictionary of the stored form the string of a byte is the byte and the string of an entry is
its prefix's string and its byte. -/
def Obligations.StringsFollowEntries : Prop :=
  ∀ (blk : Bool) (d : List Entry), dictFrom (firstCode blk) d →
    (∀ c : Byte, dictStr d c.toNat = [c]) ∧ ∀ e ∈ d, dictStr d e.code = dictStr d e.pre ++ [e.byte]

/-- 42_decoder.md R208, whose claim the spec derives: from the first code on, DDICT holds an entry for every code from
FIRST_CODE below d.next, and every code that counts as present is known. -/
def Obligations.DecoderEntriesComplete : Prop :=
  ∀ (P : Params) (bf : BitField) (c c' : DecCtx),
    (9 ≤ c.regs.wtop → c.regs.maxw ≤ c.regs.wtop → firstCodeStep P bf (decReset c) = .go c' → c'.Mirrors) ∧
    (c.Mirrors → mainStep P bf c = .go c' → c'.Mirrors) ∧
    (c.Mirrors → ∀ code, present c.regs code = true ↔ knownCodeIn (firstCode c.regs.blk) c.dict code)

/-- 42_decoder.md R217, which the spec derives: the main loop ends by itself within the bound on the code reads; a
larger bound changes nothing. -/
def Obligations.DecompressTerminates : Prop :=
  ∀ (P : Params) (bf : BitField) (c : DecCtx) (n : Nat), headerBits ≤ c.regs.pos → 9 ≤ c.regs.width →
    codeReads bf ≤ n → mainLoop P bf n c = mainLoop P bf (codeReads bf) c

/-- 42_decoder.md R216, which the spec derives: DECOMPRESS of the stream a successful COMPRESS left restores the
input. -/
def Obligations.CompressThenDecompressRestores : Prop :=
  ∀ (s t u : State) (maxw : Nat) (blk : Bool), s.accepted → exec (.compress maxw blk) s = .next t →
    t.status.err = .none → u.bf = t.bf → u.params = t.params → u.accepted →
    ∃ v, exec .decompress u = .next v ∧ v.status.err = .none ∧ v.dataLen = s.dataLen ∧ v.result = s.dataLen ∧
      v.bf.bytes = t.bf.bytes ∧ v.bf.size = t.bf.size ∧
      ∀ i, i < s.dataLen.toNat → v.data.read .data i = s.data.read .data i

/-- 70_reset_and_hazards.md R281, 30_encoding.md R108: after WAIT the command has ended, however long it took, and the
last read of STATUS shows BUSY = 0. -/
def Obligations.WaitEndsIdle : Prop :=
  ∀ (s : State) (polls : Nat) (rest : List Input), s.status.busy = true →
    ∃ t, Host.Core.run Sys2Proof.core (polls + 2) { s with inputs := stWait polls ++ rest } = .next t ∧
      t.status.busy = false ∧ t.rdata = t.status.word ∧ t.rdata.getLsbD 0 = false ∧ t.inputs = rest

/-! ### One byte of the encoder -/

/-- 41_encoder.md R165, R166, R167: one byte of the scan. The first is only taken; a match extends seen without output; a
miss emits seen at e.pos with e.width, then grows, then sets seen to the byte. -/
def Obligations.ScanByteMeaning : Prop :=
  ∀ (P : Params) (b : Byte) (c : EncCtx),
    let taken : EncCtx := { c with regs := { c.regs with consumed := c.regs.consumed + 1 } }
    (c.regs.seen = none → scanByte P b c = .ok { taken with regs := { taken.regs with seen := some b.toNat } }) ∧
    (∀ p e, c.regs.seen = some p → dictUnique c.dict → e ∈ c.dict → e.pre = p → e.byte = b →
      scanByte P b c = .ok { taken with regs := { taken.regs with seen := some e.code } }) ∧
    (∀ p, c.regs.seen = some p → (∀ e ∈ c.dict, ¬(e.pre = p ∧ e.byte = b)) → 9 ≤ c.regs.width →
      p < 2 ^ c.regs.width →
      ((c.regs.pos + c.regs.width - 1) / 8 < P.bfCap →
        ∃ bf', c.bf.writtenWith bf' c.regs.pos c.regs.width p ∧
          let sent : EncCtx := { taken with regs := { taken.regs with pos := c.regs.pos + c.regs.width }, bf := bf' }
          (∀ c', grow P p b sent = .ok c' →
            scanByte P b c = .ok { c' with regs := { c'.regs with seen := some b.toNat } }) ∧
          ∀ r c', grow P p b sent = .raised r c' → scanByte P b c = .raised r c') ∧
      (P.bfCap ≤ (c.regs.pos + c.regs.width - 1) / 8 → scanByte P b c = .raised { err := .capacity } taken))

/-- 41_encoder.md R168, R177: the flush emits the last seen, if there is one, and nothing else follows. -/
def Obligations.FlushEmitsSeen : Prop :=
  ∀ (P : Params) (c : EncCtx),
    (c.regs.seen = none → flush P c = .ok c) ∧
    (∀ p, c.regs.seen = some p → 9 ≤ c.regs.width → p < 2 ^ c.regs.width →
      ((c.regs.pos + c.regs.width - 1) / 8 < P.bfCap →
        ∃ bf', c.bf.writtenWith bf' c.regs.pos c.regs.width p ∧
          flush P c = .ok { c with regs := { c.regs with pos := c.regs.pos + c.regs.width }, bf := bf' }) ∧
      (P.bfCap ≤ (c.regs.pos + c.regs.width - 1) / 8 → flush P c = .raised { err := .capacity } c))

/-- 41_encoder.md R160, R165, R168, R177, R178: COMPRESS of one byte emits that byte as a 9-bit code at bit 24, and raises
CAPACITY where BF has no byte for its last bit (95_test_vectors.md E11b, E11c), with every byte above the header kept
(93 U2; log 3). -/
def Obligations.CompressOneByte : Prop :=
  ∀ (s : State) (maxw : Nat) (blk : Bool), 9 ≤ maxw → maxw ≤ 31 → s.dataLen = 1 →
    ∃ bf' regs, bf'.order = s.params.codecOrder ∧
      (5 ≤ s.params.bfCap →
        exec (.compress maxw blk) s = .next (State.finishedWith 5 { s with bf := bf', enc := regs, edict := [] }) ∧
        bf'.size = 5 ∧ bf'.bytes.read .bf 0 = 0x1F ∧ bf'.bytes.read .bf 1 = 0x9D ∧
        bf'.bytes.read .bf 2 = BitVec.ofNat 8 (maxw + 128 * blk.toNat) ∧
        bf'.holdsInt 24 9 (s.data.read .data 0).toNat ∧
        ∀ i, 5 ≤ i → bf'.bytes.read .bf i = s.bf.bytes.read .bf i) ∧
      (s.params.bfCap < 5 →
        exec (.compress maxw blk) s =
          .next (State.failedWith .capacity { s with bf := bf', enc := regs, edict := [] }) ∧
        bf'.size = 0 ∧ ∀ i, 3 ≤ i → bf'.bytes.read .bf i = s.bf.bytes.read .bf i)
end

