-- ==== Sys2Proof/Laws/Memory.lean ====
section
/-! SUPPORT. The laws of a byte store: what a read gives after a write, a zero fill or a loss of content, and that each
keeps the canonical form. -/
namespace Sys2Proof.Machine

@[simp] theorem cellsGet_nil (i : Nat) : cellsGet [] i = none := rfl

@[simp] theorem cellsGet_cons (c : Host.Cell) (cs : List Host.Cell) (i : Nat) :
    cellsGet (c :: cs) i = if c.1 = i then some c.2 else cellsGet cs i := rfl

theorem cellsGet_set (cs : List Host.Cell) (i : Nat) (v : Byte) (j : Nat) :
    cellsGet (cellsSet cs i v) j = if i = j then some v else cellsGet cs j := by
  induction cs with
  | nil => rfl
  | cons c cs ih =>
    simp only [cellsSet]
    split
    · simp only [cellsGet_cons]
    · split
      · next h => subst h; by_cases h : c.1 = j <;> simp [h]
      · next h =>
        rw [cellsGet_cons, ih, cellsGet_cons]
        by_cases h1 : c.1 = j <;> by_cases h2 : i = j <;> simp_all

theorem cellsGet_append (xs ys : List Host.Cell) (i : Nat) :
    cellsGet (xs ++ ys) i = (cellsGet xs i).or (cellsGet ys i) := by
  induction xs with
  | nil => simp
  | cons c xs ih => simp only [List.cons_append, cellsGet_cons, ih]; split <;> simp

theorem cellsGet_filter (p : Nat → Bool) (cs : List Host.Cell) (i : Nat) :
    cellsGet (cs.filter (fun c => p c.1)) i = if p i then cellsGet cs i else none := by
  induction cs with
  | nil => simp
  | cons c cs ih =>
    rw [List.filter_cons]
    by_cases h : c.1 = i
    · subst h; cases hp : p c.1 <;> simp [ih, hp]
    · cases hp : p c.1 <;> simp [ih, h]

theorem cellsGet_zeros (lo n i : Nat) :
    cellsGet ((List.range' lo n).map (fun i => (i, (0 : Byte)))) i = if lo ≤ i ∧ i < lo + n then some 0 else none := by
  induction n generalizing lo with
  | zero => simp
  | succ n ih =>
    simp only [List.range'_succ, List.map_cons, cellsGet_cons, ih]
    split
    · rw [if_pos (by omega)]
    · by_cases h : lo + 1 ≤ i ∧ i < lo + 1 + n
      · rw [if_pos h, if_pos (by omega)]
      · rw [if_neg h, if_neg (by omega)]

theorem cellsGet_zero (cs : List Host.Cell) (lo n i : Nat) :
    cellsGet (cellsZero cs lo n) i = if lo ≤ i ∧ i < lo + n then some 0 else cellsGet cs i := by
  rw [cellsZero, cellsGet_append, cellsGet_append, cellsGet_filter (fun a => a < lo), cellsGet_zeros,
    cellsGet_filter (fun a => lo + n ≤ a)]
  by_cases h1 : i < lo
  · have : ¬ (lo ≤ i ∧ i < lo + n) := by omega
    have h2 : ¬ (lo + n ≤ i) := by omega
    simp [h1, this, h2]
  · by_cases h2 : i < lo + n
    · have h3 : lo ≤ i ∧ i < lo + n := by omega
      simp [h1, h3]
    · have h3 : lo + n ≤ i := by omega
      have h4 : ¬ (lo ≤ i ∧ i < lo + n) := by omega
      simp [h1, h3, h4]

/-! ### Reads -/

theorem Memory.read_write (id : StoreId) (m : Memory) (i : Nat) (v : Byte) (j : Nat) :
    (m.write i v).read id j = if i = j then v else m.read id j := by
  simp only [Memory.read, Memory.write, cellsGet_set]
  by_cases h : i = j <;> simp [h]

@[simp] theorem Memory.read_write_same (id : StoreId) (m : Memory) (i : Nat) (v : Byte) : (m.write i v).read id i = v := by
  simp [Memory.read_write]

theorem Memory.read_write_ne (id : StoreId) (m : Memory) {i j : Nat} (v : Byte) (h : i ≠ j) :
    (m.write i v).read id j = m.read id j := by
  simp [Memory.read_write, h]

theorem Memory.read_zeroFill (id : StoreId) (m : Memory) (lo n j : Nat) :
    (m.zeroFill lo n).read id j = if lo ≤ j ∧ j < lo + n then 0 else m.read id j := by
  simp only [Memory.read, Memory.zeroFill, cellsGet_zero]
  by_cases h : lo ≤ j ∧ j < lo + n <;> simp [h]

/-- A loss of the bytes below `n` leaves every other byte. -/
theorem Memory.read_forgetBelow (id : StoreId) (m : Memory) {n i : Nat} (h : n ≤ i) :
    (m.forgetBelow n).read id i = m.read id i := by
  have hl : (n :: m.lost).filter (fun k => i < k) = m.lost.filter (fun k => i < k) := by
    rw [List.filter_cons, if_neg (by simpa using h)]
  simp only [Memory.read, Memory.forgetBelow, cellsGet_filter (fun a => n ≤ a), hl, decide_eq_true h, if_true]

/-! ### Which addresses are listed, and the canonical form -/

theorem mem_cellsSet {cs : List Host.Cell} {i : Nat} {v : Byte} {c : Host.Cell} (h : c ∈ cellsSet cs i v) :
    c = (i, v) ∨ c ∈ cs := by
  induction cs with
  | nil => simpa [cellsSet] using h
  | cons d cs ih =>
    simp only [cellsSet] at h
    split at h
    · simpa using h
    · split at h
      · rcases List.mem_cons.mp h with h | h
        · exact .inl h
        · exact .inr (List.mem_cons_of_mem _ h)
      · rcases List.mem_cons.mp h with h | h
        · exact .inr (h ▸ List.mem_cons_self)
        · exact (ih h).imp id (List.mem_cons_of_mem _)

theorem mem_cellsZero {cs : List Host.Cell} {lo n : Nat} {c : Host.Cell} (h : c ∈ cellsZero cs lo n) :
    (lo ≤ c.1 ∧ c.1 < lo + n) ∨ c ∈ cs := by
  simp only [cellsZero, List.mem_append, List.mem_filter, List.mem_map, List.mem_range'_1] at h
  rcases h with (⟨h, _⟩ | ⟨i, hi, rfl⟩) | ⟨h, _⟩
  · exact .inr h
  · exact .inl hi
  · exact .inr h

theorem Memory.wf_write {m : Memory} (h : m.wf) (i : Nat) (v : Byte) : (m.write i v).wf := by
  obtain ⟨gen, lost, cs⟩ := m
  simp only [Memory.wf, Memory.write] at *
  induction cs with
  | nil => simp [cellsSet]
  | cons c cs ih =>
    have hc := List.pairwise_cons.mp h
    simp only [cellsSet]
    split
    · next hi =>
      refine List.pairwise_cons.mpr ⟨fun d hd => ?_, h⟩
      rcases List.mem_cons.mp hd with rfl | hd
      · exact hi
      · exact Nat.lt_trans hi (hc.1 d hd)
    · split
      · next _ hi => subst hi; exact List.pairwise_cons.mpr ⟨hc.1, hc.2⟩
      · next h1 h2 =>
        refine List.pairwise_cons.mpr ⟨fun d hd => ?_, ih hc.2⟩
        rcases mem_cellsSet hd with rfl | hd
        · simp only; omega
        · exact hc.1 d hd

theorem Memory.wf_zeroFill {m : Memory} (h : m.wf) (lo n : Nat) : (m.zeroFill lo n).wf := by
  simp only [Memory.wf, Memory.zeroFill, cellsZero] at *
  refine List.pairwise_append.mpr ⟨List.pairwise_append.mpr ⟨h.filter _, ?_, ?_⟩, h.filter _, ?_⟩
  · rw [List.pairwise_map]
    exact List.pairwise_lt_range' (s := lo) (n := n)
  · intro a ha b hb
    simp only [List.mem_filter, decide_eq_true_eq, List.mem_map, List.mem_range'_1] at ha hb
    obtain ⟨i, hi, rfl⟩ := hb
    exact Nat.lt_of_lt_of_le ha.2 hi.1
  · intro a ha b hb
    simp only [List.mem_append, List.mem_filter, decide_eq_true_eq, List.mem_map, List.mem_range'_1] at ha hb
    rcases ha with ha | ⟨i, hi, rfl⟩
    · omega
    · exact Nat.lt_of_lt_of_le hi.2 hb.2

theorem Memory.wf_forgetBelow {m : Memory} (h : m.wf) (n : Nat) : (m.forgetBelow n).wf := h.filter _

@[simp] theorem Memory.wf_forget (m : Memory) : m.forget.wf := by simp [Memory.wf, Memory.forget]

theorem Memory.within_write {m : Memory} {cap : Nat} (h : m.within cap) {i : Nat} (hi : i < cap) (v : Byte) :
    (m.write i v).within cap := fun c hc => by
  rcases mem_cellsSet hc with rfl | hc
  · exact hi
  · exact h c hc

theorem Memory.within_zeroFill {m : Memory} {cap : Nat} (h : m.within cap) {lo n : Nat} (hn : lo + n ≤ cap) :
    (m.zeroFill lo n).within cap := fun c hc => by
  rcases mem_cellsZero hc with hc | hc
  · omega
  · exact h c hc

theorem Memory.within_forgetBelow {m : Memory} {cap : Nat} (h : m.within cap) (n : Nat) :
    (m.forgetBelow n).within cap := fun c hc => h c (List.mem_filter.mp hc).1

@[simp] theorem Memory.within_forget (m : Memory) (cap : Nat) : m.forget.within cap := by
  simp [Memory.within, Memory.forget]

/-- In canonical form the list is determined by the known bytes: equal stores are equal data. -/
theorem cells_ext {cs ds : List Host.Cell} (hc : cs.Pairwise (fun a b => a.1 < b.1))
    (hd : ds.Pairwise (fun a b => a.1 < b.1)) (h : ∀ i, cellsGet cs i = cellsGet ds i) : cs = ds := by
  have none_of_lt : ∀ {es : List Host.Cell} {i : Nat}, (∀ e ∈ es, i < e.1) → cellsGet es i = none := by
    intro es i he
    induction es with
    | nil => rfl
    | cons e es ih =>
      have h1 := he e List.mem_cons_self
      rw [cellsGet_cons, if_neg (by omega)]
      exact ih (fun d hd => he d (List.mem_cons_of_mem _ hd))
  induction cs generalizing ds with
  | nil =>
    cases ds with
    | nil => rfl
    | cons d ds => have := h d.1; simp at this
  | cons c cs ih =>
    cases ds with
    | nil => have := h c.1; simp at this
    | cons d ds =>
      have hc' := List.pairwise_cons.mp hc
      have hd' := List.pairwise_cons.mp hd
      have key : c.1 = d.1 := by
        rcases Nat.lt_trichotomy c.1 d.1 with hlt | heq | hlt
        · have := h c.1
          rw [none_of_lt (es := d :: ds)] at this
          · simp at this
          · intro e he
            rcases List.mem_cons.mp he with rfl | he
            · exact hlt
            · exact Nat.lt_trans hlt (hd'.1 e he)
        · exact heq
        · have := h d.1
          rw [none_of_lt (es := c :: cs)] at this
          · simp at this
          · intro e he
            rcases List.mem_cons.mp he with rfl | he
            · exact hlt
            · exact Nat.lt_trans hlt (hc'.1 e he)
      have hv : c.2 = d.2 := by have := h c.1; simpa [key] using this
      have hcd : c = d := Prod.ext key hv
      subst hcd
      congr 1
      refine ih hc'.2 hd'.2 (fun i => ?_)
      by_cases hi : c.1 = i
      · subst hi
        rw [none_of_lt hc'.1, none_of_lt hd'.1]
      · have := h i
        simpa [hi] using this

end Sys2Proof.Machine
end

