-- ==== Sys2Proof/Laws/BitField.lean ====
section
/-! SUPPORT. The laws of the BitField primitives: what a bit reads as after a write, what the growth step, SetInt and
GetInt do, said once for all their users. -/
namespace Sys2Proof.Machine

/-! ### Bits of a byte -/

theorem setByteBit_getLsbD (b : Byte) {k : Nat} (hk : k < 8) (v : Bool) (j : Nat) :
    (setByteBit b k v).getLsbD j = if j = k then v else b.getLsbD j := by
  unfold setByteBit
  by_cases h : j = k
  · subst h; cases v <;> simp [hk]
  · have h' : k ≠ j := fun e => h e.symm
    cases v
    · by_cases hj : j < 8
      · simp [h, hj]
      · simp [h, hj, BitVec.getLsbD_of_ge b j (by omega)]
    · simp [h, h', BitVec.getLsbD_twoPow]

theorem bitIndex_lt (order : BitOrder) (p : Nat) : bitIndex order p < 8 := by
  cases order <;> simp only [bitIndex] <;> omega

theorem bitIndex_inj (order : BitOrder) {p q : Nat} (h : bitIndex order p = bitIndex order q) : p % 8 = q % 8 := by
  cases order <;> simp only [bitIndex] at h <;> omega

/-- Every bit of a byte of the BitField is a bit position. -/
theorem exists_bitIndex (order : BitOrder) (i : Nat) {k : Nat} (hk : k < 8) : ∃ p, p / 8 = i ∧ bitIndex order p = k := by
  cases order
  · exact ⟨8 * i + (7 - k), by omega, by simp only [bitIndex]; omega⟩
  · exact ⟨8 * i + k, by omega, by simp only [bitIndex]; omega⟩

/-- Two BitFields of one order agree on a byte if they agree on its bits. -/
theorem BitField.byte_ext {bf bf' : BitField} (ho : bf'.order = bf.order) {i : Nat}
    (h : ∀ p, p / 8 = i → bf'.bit p = bf.bit p) : bf'.bytes.read .bf i = bf.bytes.read .bf i := by
  refine BitVec.eq_of_getLsbD_eq (fun k hk => ?_)
  obtain ⟨p, rfl, rfl⟩ := exists_bitIndex bf.order i hk
  have := h p rfl
  simpa only [BitField.bit, ho] using this

/-! ### One bit -/

@[simp] theorem BitField.putBit_size (bf : BitField) (p : Nat) (v : Bool) : (bf.putBit p v).size = bf.size := rfl
@[simp] theorem BitField.putBit_order (bf : BitField) (p : Nat) (v : Bool) : (bf.putBit p v).order = bf.order := rfl

theorem BitField.bit_putBit (bf : BitField) (p : Nat) (v : Bool) (q : Nat) :
    (bf.putBit p v).bit q = if q = p then v else bf.bit q := by
  simp only [BitField.bit, BitField.putBit, Memory.read_write]
  by_cases hb : p / 8 = q / 8
  · rw [if_pos hb, setByteBit_getLsbD _ (bitIndex_lt _ _), hb]
    by_cases hq : q = p
    · subst hq; simp
    · rw [if_neg hq, if_neg]
      intro h
      have := bitIndex_inj _ h
      omega
  · rw [if_neg hb, if_neg (by rintro rfl; exact hb rfl)]

theorem BitField.putBit_read (bf : BitField) (p : Nat) (v : Bool) {i : Nat} (h : p / 8 ≠ i) :
    (bf.putBit p v).bytes.read .bf i = bf.bytes.read .bf i := Memory.read_write_ne _ _ _ h

/-! ### The growth step -/

theorem BitField.ensureBit_error {P : Params} {bf : BitField} {p : Nat} (h : P.bfCap ≤ p / 8) :
    bf.ensureBit P p = .error .capacity := by
  simp [BitField.ensureBit, Nat.lt_succ_of_le h]

/-- What the growth step does when it does not raise (40_bitfield.md R131). -/
theorem BitField.ensureBit_ok {P : Params} {bf : BitField} {p : Nat} (h : p / 8 < P.bfCap) :
    ∃ bf', bf.ensureBit P p = .ok bf' ∧ bf.grownFor bf' p := by
  have hcap := P.bfCap_legal.2
  unfold BitField.ensureBit
  rw [if_neg (by omega)]
  by_cases hs : bf.size.toNat < p / 8 + 1
  · rw [if_pos hs]
    refine ⟨_, rfl, rfl, ?_, fun i => ?_⟩
    · simp only [BitVec.toNat_ofNat]
      rw [Nat.mod_eq_of_lt (by omega)]
      omega
    · simp only [Memory.read_zeroFill]
      congr 1
      simp only [eq_iff_iff]
      omega
  · rw [if_neg hs]
    refine ⟨_, rfl, rfl, by omega, fun i => ?_⟩
    rw [if_neg (by omega)]

theorem BitField.ensureBit_spec {P : Params} {bf bf' : BitField} {p : Nat} (h : bf.ensureBit P p = .ok bf') :
    p / 8 < P.bfCap ∧ bf.grownFor bf' p := by
  by_cases hp : p / 8 < P.bfCap
  · obtain ⟨b, hb, hg⟩ := BitField.ensureBit_ok (bf := bf) hp
    rw [hb] at h
    cases h
    exact ⟨hp, hg⟩
  · rw [BitField.ensureBit_error (by omega)] at h
    cases h

theorem BitField.grownFor_bit {bf bf' : BitField} {p : Nat} (h : bf.grownFor bf' p) (q : Nat) :
    bf'.bit q = if bf.size.toNat ≤ q / 8 ∧ q / 8 < p / 8 + 1 then false else bf.bit q := by
  obtain ⟨ho, _, hb⟩ := h
  simp only [BitField.bit, ho, hb]
  split <;> simp

/-! ### `SetBitI` and `SetInt` -/

/-- What `SetBitI` does when it does not raise. -/
theorem BitField.setBitI_spec {P : Params} {bf bf' : BitField} {p : Nat} {v : Bool} (h : bf.setBitI P p v = .ok bf') :
    p / 8 < P.bfCap ∧ bf'.order = bf.order ∧ bf'.size.toNat = max bf.size.toNat (p / 8 + 1) ∧
      (∀ q, bf'.bit q =
        if q = p then v else if bf.size.toNat ≤ q / 8 ∧ q / 8 < p / 8 + 1 then false else bf.bit q) ∧
      ∀ i, i ≠ p / 8 →
        bf'.bytes.read .bf i = if bf.size.toNat ≤ i ∧ i < p / 8 + 1 then 0 else bf.bytes.read .bf i := by
  unfold BitField.setBitI at h
  split at h
  · cases h
  · next b hb =>
    cases h
    obtain ⟨hp, hg⟩ := BitField.ensureBit_spec hb
    refine ⟨hp, hg.1, hg.2.1, fun q => ?_, fun i hi => ?_⟩
    · rw [BitField.bit_putBit, BitField.grownFor_bit hg]
    · rw [BitField.putBit_read _ _ _ (fun e => hi e.symm), hg.2.2]

theorem BitField.setBitI_ok {P : Params} (bf : BitField) {p : Nat} (v : Bool) (h : p / 8 < P.bfCap) :
    ∃ bf', bf.setBitI P p v = .ok bf' := by
  obtain ⟨b, hb, _⟩ := BitField.ensureBit_ok (bf := bf) h
  exact ⟨b.putBit p v, by simp [BitField.setBitI, hb]⟩

theorem BitField.setBitI_error {P : Params} (bf : BitField) {p : Nat} (v : Bool) (h : P.bfCap ≤ p / 8) :
    bf.setBitI P p v = .error .capacity := by
  simp [BitField.setBitI, BitField.ensureBit_error h]

/-- What the first `n` bits of the loop of `SetInt` leave. -/
theorem BitField.writeBits_spec {P : Params} {bf : BitField} {p w v : Nat} (n : Nat)
    (hn : n = 0 ∨ (p + n - 1) / 8 < P.bfCap) :
    ∃ bf', bf.writeBits P p w v n = .ok bf' ∧ bf'.order = bf.order ∧
      bf'.size.toNat = (if n = 0 then bf.size.toNat else max bf.size.toNat ((p + n - 1) / 8 + 1)) ∧
      (∀ q, bf'.bit q =
        if p ≤ q ∧ q < p + n then v.testBit (valueBit bf.order w (q - p))
        else if bf.size.toNat ≤ q / 8 ∧ q / 8 < bf'.size.toNat then false else bf.bit q) ∧
      ∀ i, (∀ j, j < n → (p + j) / 8 ≠ i) →
        bf'.bytes.read .bf i =
          if bf.size.toNat ≤ i ∧ i < bf'.size.toNat then 0 else bf.bytes.read .bf i := by
  induction n with
  | zero =>
    refine ⟨bf, rfl, rfl, rfl, fun q => ?_, fun i _ => ?_⟩
    · rw [if_neg (by omega), if_neg (by omega)]
    · rw [if_neg (by omega)]
  | succ n ih =>
    have hlast : (p + n) / 8 < P.bfCap := by
      rcases hn with hn | hn
      · omega
      · have : p + (n + 1) - 1 = p + n := by omega
        rwa [this] at hn
    obtain ⟨b, hb, ho, hs, hbit, hread⟩ := ih (by
      rcases Nat.eq_zero_or_pos n with h | h
      · exact .inl h
      · exact .inr (Nat.lt_of_le_of_lt (Nat.div_le_div_right (by omega)) hlast))
    obtain ⟨b', hb'⟩ := BitField.setBitI_ok b (v.testBit (valueBit bf.order w n)) hlast
    obtain ⟨_, ho', hs', hbit', hread'⟩ := BitField.setBitI_spec hb'
    have hsz : b'.size.toNat = max bf.size.toNat ((p + n) / 8 + 1) := by
      rw [hs', hs]
      split
      · rfl
      · have : (p + n - 1) / 8 ≤ (p + n) / 8 := Nat.div_le_div_right (by omega)
        omega
    have hle : bf.size.toNat ≤ b.size.toNat ∧ b.size.toNat ≤ max bf.size.toNat ((p + n) / 8 + 1) := by
      rw [hs]
      split
      · omega
      · have : (p + n - 1) / 8 ≤ (p + n) / 8 := Nat.div_le_div_right (by omega)
        omega
    refine ⟨b', by simp [BitField.writeBits, hb, hb'], by rw [ho', ho], ?_, fun q => ?_, fun i hi => ?_⟩
    · have : p + (n + 1) - 1 = p + n := by omega
      rw [if_neg (by omega), this, hsz]
    · rw [hbit', hbit, hsz]
      by_cases hq : q = p + n
      · subst hq
        rw [if_pos rfl, if_pos (by omega)]
        congr 2; omega
      · rw [if_neg hq]
        by_cases h1 : p ≤ q ∧ q < p + n
        · have hq8 : q / 8 ≤ (p + n - 1) / 8 := Nat.div_le_div_right (by omega)
          have hb8 : q / 8 < b.size.toNat := by rw [hs, if_neg (by omega)]; omega
          rw [if_neg (by omega), if_pos h1, if_pos (by omega)]
        · rw [if_neg h1, if_neg (show ¬(p ≤ q ∧ q < p + (n + 1)) by omega)]
          by_cases h2 : bf.size.toNat ≤ q / 8
          · by_cases h3 : q / 8 < b.size.toNat
            · rw [if_neg (by omega), if_pos (by omega), if_pos (by omega)]
            · by_cases h4 : q / 8 < (p + n) / 8 + 1
              · rw [if_pos (by omega), if_pos (by omega)]
              · rw [if_neg (by omega), if_neg (by omega), if_neg (by omega)]
          · rw [if_neg (by omega), if_neg (by omega), if_neg (by omega)]
    · rw [hread' i (fun e => hi n (by omega) e.symm), hread i (fun j hj => hi j (by omega)), hsz]
      by_cases h2 : bf.size.toNat ≤ i
      · by_cases h3 : i < b.size.toNat
        · rw [if_neg (by omega), if_pos (by omega), if_pos (by omega)]
        · by_cases h4 : i < (p + n) / 8 + 1
          · rw [if_pos (by omega), if_pos (by omega)]
          · rw [if_neg (by omega), if_neg (by omega), if_neg (by omega)]
      · rw [if_neg (by omega), if_neg (by omega), if_neg (by omega)]

theorem orderedBit_eq (order : BitOrder) (w v i : Nat) : orderedBit order w v i = v.testBit (valueBit order w i) := by
  cases order <;> rfl

theorem BitField.setInt_overflow {P : Params} {bf : BitField} {p w v : Nat} (h : 2 ^ w ≤ v) :
    bf.setInt P p w v = .error .configOverflow := by
  simp [BitField.setInt, h]

theorem BitField.setInt_capacity {P : Params} {bf : BitField} {p w v : Nat} (h : v < 2 ^ w) (hw : 0 < w)
    (hc : P.bfCap ≤ (p + w - 1) / 8) : bf.setInt P p w v = .error .capacity := by
  simp [BitField.setInt, Nat.not_le.mpr h, hw, hc]

/-- `SetInt` succeeds when the value fits its width and its last bit fits the store (40_bitfield.md R137). -/
theorem BitField.setInt_ok {P : Params} (bf : BitField) {p w v : Nat} (hv : v < 2 ^ w)
    (hc : w = 0 ∨ (p + w - 1) / 8 < P.bfCap) :
    ∃ bf', bf.setInt P p w v = .ok bf' ∧ bf.writtenWith bf' p w v := by
  obtain ⟨b, hb, ho, hs, hbit, hread⟩ := BitField.writeBits_spec (bf := bf) (p := p) (w := w) (v := v) w hc
  refine ⟨b, ?_, ho, hs, fun q hq => ?_, fun i hi hj => ?_⟩
  · rw [BitField.setInt, if_neg (by omega), if_neg (by omega), hb]
  · rw [hbit, orderedBit_eq]
    split
    · rfl
    · by_cases h : q < 8 * bf.size.toNat
      · rw [if_neg (by omega), if_pos h]
      · rw [if_pos (by omega), if_neg h]
  · rw [hread i hj, if_neg (by omega)]

/-- The converse: when `SetInt` succeeds, its checks held. -/
theorem BitField.setInt_spec {P : Params} {bf bf' : BitField} {p w v : Nat} (h : bf.setInt P p w v = .ok bf') :
    v < 2 ^ w ∧ (w = 0 ∨ (p + w - 1) / 8 < P.bfCap) ∧ bf.writtenWith bf' p w v := by
  have hv : v < 2 ^ w := by
    by_contra hv
    rw [BitField.setInt_overflow (by omega)] at h
    cases h
  have hc : w = 0 ∨ (p + w - 1) / 8 < P.bfCap := by
    by_contra hc
    rw [BitField.setInt_capacity hv (by omega) (by omega)] at h
    cases h
  obtain ⟨b, hb, hw⟩ := BitField.setInt_ok bf hv hc
  rw [hb] at h
  cases h
  exact ⟨hv, hc, hw⟩

theorem BitField.setInt_error {P : Params} {bf : BitField} {p w v : Nat} {e : ErrCode} (h : bf.setInt P p w v = .error e) :
    (e = .configOverflow ∧ 2 ^ w ≤ v) ∨ (e = .capacity ∧ v < 2 ^ w ∧ 0 < w ∧ P.bfCap ≤ (p + w - 1) / 8) := by
  by_cases hv : v < 2 ^ w
  · by_cases hc : w = 0 ∨ (p + w - 1) / 8 < P.bfCap
    · obtain ⟨b, hb, _⟩ := BitField.setInt_ok bf hv hc
      rw [hb] at h
      cases h
    · rw [BitField.setInt_capacity hv (by omega) (by omega)] at h
      cases h
      exact .inr ⟨rfl, hv, by omega, by omega⟩
  · rw [BitField.setInt_overflow (by omega)] at h
    cases h
    exact .inl ⟨rfl, by omega⟩

/-! ### `GetInt` -/

theorem BitField.readBits_lsb {bf : BitField} (ho : bf.order = .lsbFirst) (p w n : Nat) :
    bf.readBits p w n < 2 ^ n ∧ ∀ j, (bf.readBits p w n).testBit j = (decide (j < n) && bf.bit (p + j)) := by
  induction n with
  | zero => simp [BitField.readBits]
  | succ n ih =>
    have e : bf.readBits p w (n + 1) = 2 ^ n * (bf.bit (p + n)).toNat + bf.readBits p w n := by
      simp only [BitField.readBits, ho, valueBit]
      rw [Nat.mul_comm, Nat.add_comm]
    constructor
    · rw [e, Nat.pow_succ]
      have := Bool.toNat_le (bf.bit (p + n))
      have : 2 ^ n * (bf.bit (p + n)).toNat ≤ 2 ^ n * 1 := Nat.mul_le_mul_left _ this
      omega
    · intro j
      rw [e, Nat.testBit_two_pow_mul_add _ ih.1]
      by_cases hj : j < n
      · rw [if_pos hj, ih.2]
        simp [hj, Nat.lt_succ_of_lt hj]
      · rw [if_neg hj]
        by_cases hjn : j = n
        · subst hjn; cases bf.bit (p + j) <;> simp
        · have h1 : ¬ j < n + 1 := by omega
          have h2 : j - n = (j - n - 1) + 1 := by omega
          rw [h2]
          cases bf.bit (p + n) <;> simp [h1, Nat.testBit_succ]

theorem BitField.readBits_msb {bf : BitField} (ho : bf.order = .msbFirst) (p w n : Nat) (hn : n ≤ w) :
    2 ^ (w - n) ∣ bf.readBits p w n ∧
      ∀ j, (bf.readBits p w n).testBit j = (decide (w - n ≤ j ∧ j < w) && bf.bit (p + (w - 1 - j))) := by
  induction n with
  | zero =>
    refine ⟨by simp [BitField.readBits], fun j => ?_⟩
    have : ¬ (w - 0 ≤ j ∧ j < w) := by omega
    simp only [BitField.readBits, Nat.zero_testBit, this, decide_false, Bool.false_and]
  | succ n ih =>
    obtain ⟨⟨A, hA⟩, ht⟩ := ih (by omega)
    have hw : w - n = (w - (n + 1)) + 1 := by omega
    have hsub : w - 1 - n = w - (n + 1) := by omega
    have e : bf.readBits p w (n + 1) = 2 ^ (w - n) * A + (bf.bit (p + n)).toNat * 2 ^ (w - (n + 1)) := by
      simp only [BitField.readBits, ho, valueBit, hA, hsub]
    have hlt : (bf.bit (p + n)).toNat * 2 ^ (w - (n + 1)) < 2 ^ (w - n) := by
      rw [hw, Nat.pow_succ]
      have := Nat.two_pow_pos (w - (n + 1))
      cases bf.bit (p + n) <;> simp
    refine ⟨?_, fun j => ?_⟩
    · rw [e, hw, Nat.pow_succ, Nat.mul_assoc, Nat.mul_comm (bf.bit (p + n)).toNat]
      exact Nat.dvd_add (Nat.dvd_mul_right _ _) (Nat.dvd_mul_right _ _)
    · rw [e, Nat.testBit_two_pow_mul_add _ hlt]
      by_cases hj : j < w - n
      · rw [if_pos hj]
        by_cases hjn : j = w - (n + 1)
        · have h1 : w - (n + 1) ≤ j ∧ j < w := by omega
          have h2 : w - 1 - j = n := by omega
          rw [h2]
          simp only [h1, and_self, decide_true, Bool.true_and]
          rw [hjn]
          cases bf.bit (p + n) <;> simp [Nat.testBit_two_pow_self]
        · have h1 : ¬ (w - (n + 1) ≤ j ∧ j < w) := by omega
          simp only [h1, decide_false, Bool.false_and]
          cases bf.bit (p + n)
          · simp
          · simp only [Bool.toNat_true, Nat.one_mul]
            exact Nat.testBit_two_pow_of_ne (fun e => hjn e.symm)
      · rw [if_neg hj]
        have hr : A.testBit (j - (w - n)) = (bf.readBits p w n).testBit j := by
          rw [hA, Nat.testBit_two_pow_mul]
          simp [Nat.le_of_not_lt hj]
        rw [hr, ht]
        have : (w - n ≤ j ∧ j < w) ↔ (w - (n + 1) ≤ j ∧ j < w) := by omega
        simp only [this]

/-- `GetInt` reads the integer that the positions hold (40_bitfield.md R141). -/
theorem BitField.holdsInt_readBits (bf : BitField) (p w : Nat) : bf.holdsInt p w (bf.readBits p w w) := by
  cases ho : bf.order
  · have h := (BitField.readBits_msb ho p w w (Nat.le_refl w)).2
    refine ⟨Nat.lt_pow_two_of_testBit _ (fun j hj => ?_), fun i hi => ?_⟩
    · rw [h]
      have : ¬ (w - w ≤ j ∧ j < w) := by omega
      simp only [this, decide_false, Bool.false_and]
    · simp only [orderedBit, ho, h]
      have h1 : w - w ≤ w - 1 - i ∧ w - 1 - i < w := by omega
      have h2 : w - 1 - (w - 1 - i) = i := by omega
      simp [h1, h2]
  · have h := BitField.readBits_lsb ho p w w
    refine ⟨h.1, fun i hi => ?_⟩
    simp [orderedBit, ho, h.2, hi]

/-- The positions hold one integer only. -/
theorem BitField.holdsInt_unique {bf : BitField} {p w v v' : Nat} (h : bf.holdsInt p w v) (h' : bf.holdsInt p w v') :
    v = v' := by
  refine Nat.eq_of_testBit_eq (fun j => ?_)
  by_cases hj : j < w
  · cases ho : bf.order
    · have h1 := h.2 (w - 1 - j) (by omega)
      have h2 := h'.2 (w - 1 - j) (by omega)
      simp only [orderedBit, ho] at h1 h2
      have e : w - 1 - (w - 1 - j) = j := by omega
      rw [e] at h1 h2
      rw [← h1, ← h2]
    · have h1 := h.2 j hj
      have h2 := h'.2 j hj
      simp only [orderedBit, ho] at h1 h2
      rw [← h1, ← h2]
  · have hp : 2 ^ w ≤ 2 ^ j := Nat.pow_le_pow_right (by omega) (by omega)
    rw [Nat.testBit_lt_two_pow (Nat.lt_of_lt_of_le h.1 hp), Nat.testBit_lt_two_pow (Nat.lt_of_lt_of_le h'.1 hp)]

theorem BitField.getInt_none {bf : BitField} {p w : Nat} (h : 8 * bf.size.toNat < p + w) : bf.getInt p w = none := by
  simp [BitField.getInt, h]

theorem BitField.getInt_some {bf : BitField} {p w : Nat} (h : p + w ≤ 8 * bf.size.toNat) :
    ∃ v, bf.getInt p w = some v ∧ bf.holdsInt p w v :=
  ⟨_, by rw [BitField.getInt, if_neg (by omega)], bf.holdsInt_readBits p w⟩

/-- What `GetInt` answers (40_bitfield.md R140, R141). -/
theorem BitField.getInt_spec {bf : BitField} {p w v : Nat} (h : bf.getInt p w = some v) :
    p + w ≤ 8 * bf.size.toNat ∧ bf.holdsInt p w v := by
  unfold BitField.getInt at h
  split at h
  · cases h
  · cases h
    exact ⟨by omega, bf.holdsInt_readBits p w⟩

/-- A value that the positions hold is the one `GetInt` reads. -/
theorem BitField.getInt_of_holdsInt {bf : BitField} {p w v : Nat} (hs : p + w ≤ 8 * bf.size.toNat)
    (h : bf.holdsInt p w v) : bf.getInt p w = some v := by
  obtain ⟨v', e, h'⟩ := BitField.getInt_some hs
  rw [e, BitField.holdsInt_unique h h']

/-- After `SetInt` the positions hold the value written (40_bitfield.md R139). -/
theorem BitField.writtenWith_holdsInt {bf bf' : BitField} {p w v : Nat} (hv : v < 2 ^ w) (h : bf.writtenWith bf' p w v) :
    bf'.holdsInt p w v := by
  obtain ⟨ho, hs, hb, _⟩ := h
  refine ⟨hv, fun i hi => ?_⟩
  have hsz : (p + w - 1) / 8 + 1 ≤ bf'.size.toNat := by rw [hs, if_neg (by omega)]; omega
  rw [hb (p + i) (by omega), if_pos (by omega), ho]
  congr 1; omega

/-! ### The canonical form and the capacity -/

theorem BitField.ensureBit_keeps {P : Params} {bf bf' : BitField} {p : Nat} (h : bf.ensureBit P p = .ok bf')
    (hw : bf.bytes.wf) (hc : bf.bytes.within P.bfCap) : bf'.bytes.wf ∧ bf'.bytes.within P.bfCap := by
  unfold BitField.ensureBit at h
  split at h
  · cases h
  · split at h
    · cases h
      exact ⟨Memory.wf_zeroFill hw _ _, Memory.within_zeroFill hc (by omega)⟩
    · cases h
      exact ⟨hw, hc⟩

theorem BitField.setBitI_keeps {P : Params} {bf bf' : BitField} {p : Nat} {v : Bool} (h : bf.setBitI P p v = .ok bf')
    (hw : bf.bytes.wf) (hc : bf.bytes.within P.bfCap) : bf'.bytes.wf ∧ bf'.bytes.within P.bfCap := by
  have hp := (BitField.setBitI_spec h).1
  unfold BitField.setBitI at h
  split at h
  · cases h
  · next b hb =>
    cases h
    obtain ⟨hw', hc'⟩ := BitField.ensureBit_keeps hb hw hc
    exact ⟨Memory.wf_write hw' _ _, Memory.within_write hc' hp _⟩

theorem BitField.writeBits_keeps {P : Params} {bf bf' : BitField} {p w v n : Nat}
    (h : bf.writeBits P p w v n = .ok bf') (hw : bf.bytes.wf) (hc : bf.bytes.within P.bfCap) :
    bf'.bytes.wf ∧ bf'.bytes.within P.bfCap := by
  induction n generalizing bf' with
  | zero => cases h; exact ⟨hw, hc⟩
  | succ n ih =>
    simp only [BitField.writeBits] at h
    split at h
    · cases h
    · next b hb =>
      obtain ⟨hw', hc'⟩ := ih hb
      exact BitField.setBitI_keeps h hw' hc'

theorem BitField.setInt_keeps {P : Params} {bf bf' : BitField} {p w v : Nat} (h : bf.setInt P p w v = .ok bf')
    (hw : bf.bytes.wf) (hc : bf.bytes.within P.bfCap) : bf'.bytes.wf ∧ bf'.bytes.within P.bfCap := by
  unfold BitField.setInt at h
  split at h
  · cases h
  · split at h
    · cases h
    · exact BitField.writeBits_keeps h hw hc

end Sys2Proof.Machine
end

