-- ==== Sys2Proof/Laws/Flow.lean ====
section
/-! SUPPORT. How a sequence of pseudocode steps can end. -/
namespace Sys2Proof.Machine

variable {α : Type}

@[simp] theorem Flow.andThen_ok (a : α) (f : α → Flow α) : (Flow.ok a).andThen f = f a := rfl
@[simp] theorem Flow.andThen_raised (e : Raise) (a : α) (f : α → Flow α) : (Flow.raised e a).andThen f = .raised e a := rfl

theorem Flow.andThen_eq_ok {x : Flow α} {f : α → Flow α} {b : α} :
    x.andThen f = .ok b ↔ ∃ a, x = .ok a ∧ f a = .ok b := by
  cases x <;> simp [Flow.andThen]

theorem Flow.andThen_eq_raised {x : Flow α} {f : α → Flow α} {e : Raise} {b : α} :
    x.andThen f = .raised e b ↔ x = .raised e b ∨ ∃ a, x = .ok a ∧ f a = .raised e b := by
  cases x <;> simp [Flow.andThen]

end Sys2Proof.Machine
end

