-- ==== Sys2Proof/Laws/State.lean ====
section
/-! SUPPORT. One lemma for each field under each named update of the state, so that no proof unfolds a record update. -/
namespace Sys2Proof.Machine

@[simp] theorem raiseError_params (e : Raise) (s : State) : (raiseError e s).params = s.params := rfl
@[simp] theorem raiseError_bf (e : Raise) (s : State) : (raiseError e s).bf = s.bf := rfl
@[simp] theorem raiseError_data (e : Raise) (s : State) : (raiseError e s).data = s.data := rfl
@[simp] theorem raiseError_status (e : Raise) (s : State) : (raiseError e s).status = { s.status with busy := false, err := e.err } := rfl
@[simp] theorem raiseError_cmd (e : Raise) (s : State) : (raiseError e s).cmd = s.cmd := rfl
@[simp] theorem raiseError_arg0 (e : Raise) (s : State) : (raiseError e s).arg0 = s.arg0 := rfl
@[simp] theorem raiseError_arg1 (e : Raise) (s : State) : (raiseError e s).arg1 = s.arg1 := rfl
@[simp] theorem raiseError_result (e : Raise) (s : State) : (raiseError e s).result = 0 := rfl
@[simp] theorem raiseError_dataLen (e : Raise) (s : State) : (raiseError e s).dataLen = s.dataLen := rfl
@[simp] theorem raiseError_errCode (e : Raise) (s : State) : (raiseError e s).errCode = word e.code := rfl
@[simp] theorem raiseError_errExpect (e : Raise) (s : State) : (raiseError e s).errExpect = word e.expect := rfl
@[simp] theorem raiseError_errBitpos (e : Raise) (s : State) : (raiseError e s).errBitpos = word e.bitpos := rfl
@[simp] theorem raiseError_enc (e : Raise) (s : State) : (raiseError e s).enc = s.enc := rfl
@[simp] theorem raiseError_edict (e : Raise) (s : State) : (raiseError e s).edict = s.edict := rfl
@[simp] theorem raiseError_dec (e : Raise) (s : State) : (raiseError e s).dec = s.dec := rfl
@[simp] theorem raiseError_ddict (e : Raise) (s : State) : (raiseError e s).ddict = s.ddict := rfl
@[simp] theorem raiseError_inputs (e : Raise) (s : State) : (raiseError e s).inputs = s.inputs := rfl
@[simp] theorem raiseError_rdata (e : Raise) (s : State) : (raiseError e s).rdata = s.rdata := rfl
@[simp] theorem raiseError_freeCount (e : Raise) (s : State) : (raiseError e s).freeCount = s.freeCount := rfl

@[simp] theorem complete_params (s : State) : (complete s).params = s.params := rfl
@[simp] theorem complete_bf (s : State) : (complete s).bf = s.bf := rfl
@[simp] theorem complete_data (s : State) : (complete s).data = s.data := rfl
@[simp] theorem complete_status (s : State) : (complete s).status = { s.status with busy := false } := rfl
@[simp] theorem complete_cmd (s : State) : (complete s).cmd = s.cmd := rfl
@[simp] theorem complete_arg0 (s : State) : (complete s).arg0 = s.arg0 := rfl
@[simp] theorem complete_arg1 (s : State) : (complete s).arg1 = s.arg1 := rfl
@[simp] theorem complete_result (s : State) : (complete s).result = s.result := rfl
@[simp] theorem complete_dataLen (s : State) : (complete s).dataLen = s.dataLen := rfl
@[simp] theorem complete_errCode (s : State) : (complete s).errCode = s.errCode := rfl
@[simp] theorem complete_errExpect (s : State) : (complete s).errExpect = s.errExpect := rfl
@[simp] theorem complete_errBitpos (s : State) : (complete s).errBitpos = s.errBitpos := rfl
@[simp] theorem complete_enc (s : State) : (complete s).enc = s.enc := rfl
@[simp] theorem complete_edict (s : State) : (complete s).edict = s.edict := rfl
@[simp] theorem complete_dec (s : State) : (complete s).dec = s.dec := rfl
@[simp] theorem complete_ddict (s : State) : (complete s).ddict = s.ddict := rfl
@[simp] theorem complete_inputs (s : State) : (complete s).inputs = s.inputs := rfl
@[simp] theorem complete_rdata (s : State) : (complete s).rdata = s.rdata := rfl
@[simp] theorem complete_freeCount (s : State) : (complete s).freeCount = s.freeCount := rfl

@[simp] theorem completeWith_params (v : Word) (s : State) : (completeWith v s).params = s.params := rfl
@[simp] theorem completeWith_bf (v : Word) (s : State) : (completeWith v s).bf = s.bf := rfl
@[simp] theorem completeWith_data (v : Word) (s : State) : (completeWith v s).data = s.data := rfl
@[simp] theorem completeWith_status (v : Word) (s : State) : (completeWith v s).status = { s.status with busy := false } := rfl
@[simp] theorem completeWith_cmd (v : Word) (s : State) : (completeWith v s).cmd = s.cmd := rfl
@[simp] theorem completeWith_arg0 (v : Word) (s : State) : (completeWith v s).arg0 = s.arg0 := rfl
@[simp] theorem completeWith_arg1 (v : Word) (s : State) : (completeWith v s).arg1 = s.arg1 := rfl
@[simp] theorem completeWith_result (v : Word) (s : State) : (completeWith v s).result = v := rfl
@[simp] theorem completeWith_dataLen (v : Word) (s : State) : (completeWith v s).dataLen = s.dataLen := rfl
@[simp] theorem completeWith_errCode (v : Word) (s : State) : (completeWith v s).errCode = s.errCode := rfl
@[simp] theorem completeWith_errExpect (v : Word) (s : State) : (completeWith v s).errExpect = s.errExpect := rfl
@[simp] theorem completeWith_errBitpos (v : Word) (s : State) : (completeWith v s).errBitpos = s.errBitpos := rfl
@[simp] theorem completeWith_enc (v : Word) (s : State) : (completeWith v s).enc = s.enc := rfl
@[simp] theorem completeWith_edict (v : Word) (s : State) : (completeWith v s).edict = s.edict := rfl
@[simp] theorem completeWith_dec (v : Word) (s : State) : (completeWith v s).dec = s.dec := rfl
@[simp] theorem completeWith_ddict (v : Word) (s : State) : (completeWith v s).ddict = s.ddict := rfl
@[simp] theorem completeWith_inputs (v : Word) (s : State) : (completeWith v s).inputs = s.inputs := rfl
@[simp] theorem completeWith_rdata (v : Word) (s : State) : (completeWith v s).rdata = s.rdata := rfl
@[simp] theorem completeWith_freeCount (v : Word) (s : State) : (completeWith v s).freeCount = s.freeCount := rfl

@[simp] theorem acceptCommand_params (w : Word) (s : State) : (acceptCommand w s).params = s.params := rfl
@[simp] theorem acceptCommand_bf (w : Word) (s : State) : (acceptCommand w s).bf = s.bf := rfl
@[simp] theorem acceptCommand_data (w : Word) (s : State) : (acceptCommand w s).data = s.data := rfl
@[simp] theorem acceptCommand_status (w : Word) (s : State) : (acceptCommand w s).status = s.status.accept := rfl
@[simp] theorem acceptCommand_cmd (w : Word) (s : State) : (acceptCommand w s).cmd = w := rfl
@[simp] theorem acceptCommand_arg0 (w : Word) (s : State) : (acceptCommand w s).arg0 = s.arg0 := rfl
@[simp] theorem acceptCommand_arg1 (w : Word) (s : State) : (acceptCommand w s).arg1 = s.arg1 := rfl
@[simp] theorem acceptCommand_result (w : Word) (s : State) : (acceptCommand w s).result = s.result := rfl
@[simp] theorem acceptCommand_dataLen (w : Word) (s : State) : (acceptCommand w s).dataLen = s.dataLen := rfl
@[simp] theorem acceptCommand_errCode (w : Word) (s : State) : (acceptCommand w s).errCode = 0 := rfl
@[simp] theorem acceptCommand_errExpect (w : Word) (s : State) : (acceptCommand w s).errExpect = 0 := rfl
@[simp] theorem acceptCommand_errBitpos (w : Word) (s : State) : (acceptCommand w s).errBitpos = 0 := rfl
@[simp] theorem acceptCommand_enc (w : Word) (s : State) : (acceptCommand w s).enc = s.enc := rfl
@[simp] theorem acceptCommand_edict (w : Word) (s : State) : (acceptCommand w s).edict = s.edict := rfl
@[simp] theorem acceptCommand_dec (w : Word) (s : State) : (acceptCommand w s).dec = s.dec := rfl
@[simp] theorem acceptCommand_ddict (w : Word) (s : State) : (acceptCommand w s).ddict = s.ddict := rfl
@[simp] theorem acceptCommand_inputs (w : Word) (s : State) : (acceptCommand w s).inputs = s.inputs := rfl
@[simp] theorem acceptCommand_rdata (w : Word) (s : State) : (acceptCommand w s).rdata = s.rdata := rfl
@[simp] theorem acceptCommand_freeCount (w : Word) (s : State) : (acceptCommand w s).freeCount = s.freeCount := rfl

@[simp] theorem dropWrite_params (s : State) : (dropWrite s).params = s.params := rfl
@[simp] theorem dropWrite_bf (s : State) : (dropWrite s).bf = s.bf := rfl
@[simp] theorem dropWrite_data (s : State) : (dropWrite s).data = s.data := rfl
@[simp] theorem dropWrite_status (s : State) : (dropWrite s).status = { s.status with reject := true } := rfl
@[simp] theorem dropWrite_cmd (s : State) : (dropWrite s).cmd = s.cmd := rfl
@[simp] theorem dropWrite_arg0 (s : State) : (dropWrite s).arg0 = s.arg0 := rfl
@[simp] theorem dropWrite_arg1 (s : State) : (dropWrite s).arg1 = s.arg1 := rfl
@[simp] theorem dropWrite_result (s : State) : (dropWrite s).result = s.result := rfl
@[simp] theorem dropWrite_dataLen (s : State) : (dropWrite s).dataLen = s.dataLen := rfl
@[simp] theorem dropWrite_errCode (s : State) : (dropWrite s).errCode = s.errCode := rfl
@[simp] theorem dropWrite_errExpect (s : State) : (dropWrite s).errExpect = s.errExpect := rfl
@[simp] theorem dropWrite_errBitpos (s : State) : (dropWrite s).errBitpos = s.errBitpos := rfl
@[simp] theorem dropWrite_enc (s : State) : (dropWrite s).enc = s.enc := rfl
@[simp] theorem dropWrite_edict (s : State) : (dropWrite s).edict = s.edict := rfl
@[simp] theorem dropWrite_dec (s : State) : (dropWrite s).dec = s.dec := rfl
@[simp] theorem dropWrite_ddict (s : State) : (dropWrite s).ddict = s.ddict := rfl
@[simp] theorem dropWrite_inputs (s : State) : (dropWrite s).inputs = s.inputs := rfl
@[simp] theorem dropWrite_rdata (s : State) : (dropWrite s).rdata = s.rdata := rfl
@[simp] theorem dropWrite_freeCount (s : State) : (dropWrite s).freeCount = s.freeCount := rfl

@[simp] theorem answer_params (v : Word) (s : State) : (answer v s).params = s.params := rfl
@[simp] theorem answer_bf (v : Word) (s : State) : (answer v s).bf = s.bf := rfl
@[simp] theorem answer_data (v : Word) (s : State) : (answer v s).data = s.data := rfl
@[simp] theorem answer_status (v : Word) (s : State) : (answer v s).status = s.status := rfl
@[simp] theorem answer_cmd (v : Word) (s : State) : (answer v s).cmd = s.cmd := rfl
@[simp] theorem answer_arg0 (v : Word) (s : State) : (answer v s).arg0 = s.arg0 := rfl
@[simp] theorem answer_arg1 (v : Word) (s : State) : (answer v s).arg1 = s.arg1 := rfl
@[simp] theorem answer_result (v : Word) (s : State) : (answer v s).result = s.result := rfl
@[simp] theorem answer_dataLen (v : Word) (s : State) : (answer v s).dataLen = s.dataLen := rfl
@[simp] theorem answer_errCode (v : Word) (s : State) : (answer v s).errCode = s.errCode := rfl
@[simp] theorem answer_errExpect (v : Word) (s : State) : (answer v s).errExpect = s.errExpect := rfl
@[simp] theorem answer_errBitpos (v : Word) (s : State) : (answer v s).errBitpos = s.errBitpos := rfl
@[simp] theorem answer_enc (v : Word) (s : State) : (answer v s).enc = s.enc := rfl
@[simp] theorem answer_edict (v : Word) (s : State) : (answer v s).edict = s.edict := rfl
@[simp] theorem answer_dec (v : Word) (s : State) : (answer v s).dec = s.dec := rfl
@[simp] theorem answer_ddict (v : Word) (s : State) : (answer v s).ddict = s.ddict := rfl
@[simp] theorem answer_inputs (v : Word) (s : State) : (answer v s).inputs = s.inputs := rfl
@[simp] theorem answer_rdata (v : Word) (s : State) : (answer v s).rdata = v := rfl
@[simp] theorem answer_freeCount (v : Word) (s : State) : (answer v s).freeCount = s.freeCount := rfl

@[simp] theorem answerFree_params (s : State) : (answerFree s).params = s.params := rfl
@[simp] theorem answerFree_bf (s : State) : (answerFree s).bf = s.bf := rfl
@[simp] theorem answerFree_data (s : State) : (answerFree s).data = s.data := rfl
@[simp] theorem answerFree_status (s : State) : (answerFree s).status = s.status := rfl
@[simp] theorem answerFree_cmd (s : State) : (answerFree s).cmd = s.cmd := rfl
@[simp] theorem answerFree_arg0 (s : State) : (answerFree s).arg0 = s.arg0 := rfl
@[simp] theorem answerFree_arg1 (s : State) : (answerFree s).arg1 = s.arg1 := rfl
@[simp] theorem answerFree_result (s : State) : (answerFree s).result = s.result := rfl
@[simp] theorem answerFree_dataLen (s : State) : (answerFree s).dataLen = s.dataLen := rfl
@[simp] theorem answerFree_errCode (s : State) : (answerFree s).errCode = s.errCode := rfl
@[simp] theorem answerFree_errExpect (s : State) : (answerFree s).errExpect = s.errExpect := rfl
@[simp] theorem answerFree_errBitpos (s : State) : (answerFree s).errBitpos = s.errBitpos := rfl
@[simp] theorem answerFree_enc (s : State) : (answerFree s).enc = s.enc := rfl
@[simp] theorem answerFree_edict (s : State) : (answerFree s).edict = s.edict := rfl
@[simp] theorem answerFree_dec (s : State) : (answerFree s).dec = s.dec := rfl
@[simp] theorem answerFree_ddict (s : State) : (answerFree s).ddict = s.ddict := rfl
@[simp] theorem answerFree_inputs (s : State) : (answerFree s).inputs = s.inputs := rfl
@[simp] theorem answerFree_rdata (s : State) : (answerFree s).rdata = Config.freeRead s.freeCount := rfl
@[simp] theorem answerFree_freeCount (s : State) : (answerFree s).freeCount = s.freeCount + 1 := rfl

@[simp] theorem platformReset_params (s : State) : (platformReset s).params = s.params := rfl
@[simp] theorem platformReset_bf (s : State) : (platformReset s).bf = { bytes := s.bf.bytes.forget, size := 0, order := .msbFirst } := rfl
@[simp] theorem platformReset_data (s : State) : (platformReset s).data = s.data.forget := rfl
@[simp] theorem platformReset_status (s : State) : (platformReset s).status = { busy := false, nodata := false, reject := false, err := .none } := rfl
@[simp] theorem platformReset_cmd (s : State) : (platformReset s).cmd = s.cmd := rfl
@[simp] theorem platformReset_arg0 (s : State) : (platformReset s).arg0 = 0 := rfl
@[simp] theorem platformReset_arg1 (s : State) : (platformReset s).arg1 = 0 := rfl
@[simp] theorem platformReset_result (s : State) : (platformReset s).result = 0 := rfl
@[simp] theorem platformReset_dataLen (s : State) : (platformReset s).dataLen = 0 := rfl
@[simp] theorem platformReset_errCode (s : State) : (platformReset s).errCode = 0 := rfl
@[simp] theorem platformReset_errExpect (s : State) : (platformReset s).errExpect = 0 := rfl
@[simp] theorem platformReset_errBitpos (s : State) : (platformReset s).errBitpos = 0 := rfl
@[simp] theorem platformReset_enc (s : State) : (platformReset s).enc = s.enc := rfl
@[simp] theorem platformReset_edict (s : State) : (platformReset s).edict = s.edict := rfl
@[simp] theorem platformReset_dec (s : State) : (platformReset s).dec = s.dec := rfl
@[simp] theorem platformReset_ddict (s : State) : (platformReset s).ddict = s.ddict := rfl
@[simp] theorem platformReset_inputs (s : State) : (platformReset s).inputs = s.inputs := rfl
@[simp] theorem platformReset_rdata (s : State) : (platformReset s).rdata = s.rdata := rfl
@[simp] theorem platformReset_freeCount (s : State) : (platformReset s).freeCount = s.freeCount := rfl

/-- The command end of an error is the one the statements name (60_exceptions.md R250). -/
theorem raiseError_eq_failedAs (e : Raise) (s : State) :
    raiseError e s = s.failedAs e.err (word e.code) (word e.expect) (word e.bitpos) := rfl

theorem raiseError_eq_failedWith (e : ErrCode) (s : State) : raiseError { err := e } s = s.failedWith e := rfl

/-- Completion with RESULT is the one the statements name (60_exceptions.md R252). -/
theorem completeWith_eq_finishedWith (v : Word) (s : State) : completeWith v s = s.finishedWith v := rfl

end Sys2Proof.Machine
end

