-- ==== Sys2Proof/Laws/Commands.lean ====
section
/-! SUPPORT. What each command can do, said once: the ways it can end and what it has changed by then. -/
namespace Sys2Proof.Machine

@[simp] theorem bfOverCapacity_iff (s : State) : s.bfOverCapacity = true ↔ s.params.bfCap < s.bf.size.toNat := by
  simp [State.bfOverCapacity]

theorem setbitEnd_cases (s : State) :
    (1 < s.value ∧ setbitEnd s = s.failedWith .configOverflow) ∨
      (setbitEnd s = s.failedWith .capacity) ∨
      ∃ bf, s.bf.setBitI s.params s.pos (decide (s.value = 1)) = .ok bf ∧
        setbitEnd s = State.finishedWith 0 { s with bf := bf } := by
  unfold setbitEnd
  split
  · next h => exact .inl ⟨h, rfl⟩
  · split
    · exact .inr (.inl rfl)
    · split
      · next e he =>
        refine .inr (.inl ?_)
        by_cases hp : s.params.bfCap ≤ s.pos / 8
        · rw [BitField.setBitI_error _ _ hp] at he
          cases he; rfl
        · obtain ⟨bf, hb⟩ := BitField.setBitI_ok s.bf (decide (s.value = 1)) (Nat.lt_of_not_le hp)
          rw [hb] at he; cases he
      · next bf hb => exact .inr (.inr ⟨bf, hb, rfl⟩)

theorem getbitEnd_cases (s : State) :
    getbitEnd s = s.failedWith .capacity ∨
      ∃ bf, s.bf.ensureBit s.params s.pos = .ok bf ∧
        getbitEnd s = State.finishedWith (word (bf.bit s.pos).toNat) { s with bf := bf } := by
  unfold getbitEnd BitField.getBitI
  split
  · exact .inl rfl
  · cases h : s.bf.ensureBit s.params s.pos with
    | error e =>
      by_cases hp : s.params.bfCap ≤ s.pos / 8
      · rw [BitField.ensureBit_error hp] at h
        cases h; exact .inl rfl
      · obtain ⟨bf, hb, _⟩ := BitField.ensureBit_ok (bf := s.bf) (Nat.lt_of_not_le hp)
        rw [hb] at h; cases h
    | ok bf => exact .inr ⟨bf, rfl, rfl⟩

theorem setintEnd_cases (w : Nat) (s : State) :
    (2 ^ w ≤ s.value ∧ setintEnd w s = s.failedWith .configOverflow) ∨
      (setintEnd w s = s.failedWith .capacity) ∨
      ∃ bf, s.bf.setInt s.params s.pos w s.value = .ok bf ∧
        setintEnd w s = State.finishedWith 0 { s with bf := bf } := by
  unfold setintEnd
  split
  · next h => exact .inl ⟨h, rfl⟩
  · next h =>
    split
    · exact .inr (.inl rfl)
    · split
      · next e he =>
        rcases BitField.setInt_error he with ⟨_, h'⟩ | ⟨rfl, _⟩
        · exact absurd h' h
        · exact .inr (.inl rfl)
      · next bf hb => exact .inr (.inr ⟨bf, hb, rfl⟩)

theorem getintEnd_cases (w : Nat) (s : State) :
    getintEnd w s = s.failedWith .capacity ∨
      (s.bf.size.toNat ≤ s.params.bfCap ∧ s.bf.getInt s.pos w = none ∧
        getintEnd w s = State.finishedWith 0 { s with status := { s.status with nodata := true } }) ∨
      ∃ v, s.bf.getInt s.pos w = some v ∧ getintEnd w s = s.finishedWith (word v) := by
  unfold getintEnd
  split
  · exact .inl rfl
  · next h =>
    rw [bfOverCapacity_iff] at h
    split
    · next hg => exact .inr (.inl ⟨Nat.le_of_not_lt h, hg, rfl⟩)
    · next v hg => exact .inr (.inr ⟨v, hg, rfl⟩)

theorem compressEnd_cases (maxw : Nat) (blk : Bool) (s : State) :
    ((maxw < 9 ∨ 31 < maxw) ∧ compressEnd maxw blk s = s.failedWith .configMaxw) ∨
      ((9 ≤ maxw ∧ maxw ≤ 31) ∧ s.params.dataCap < s.dataLength ∧ compressEnd maxw blk s = s.failedWith .capacity) ∨
      ((9 ≤ maxw ∧ maxw ≤ 31) ∧ s.dataLength ≤ s.params.dataCap ∧
        ((∃ c, compressRun s.params s.data s.dataLength maxw blk { regs := s.enc, dict := s.edict, bf := s.bf } = .ok c ∧
            compressEnd maxw blk s =
              State.finishedWith c.bf.size { s with bf := c.bf, enc := c.regs, edict := c.dict }) ∨
          ∃ e c, compressRun s.params s.data s.dataLength maxw blk { regs := s.enc, dict := s.edict, bf := s.bf } =
              .raised e c ∧
            compressEnd maxw blk s =
              raiseError e { s with bf := compressFailed c.bf, enc := c.regs, edict := c.dict })) := by
  unfold compressEnd
  split
  · next h => exact .inl ⟨h, rfl⟩
  · next h =>
    have h9 : 9 ≤ maxw ∧ maxw ≤ 31 := by omega
    split
    · next hd => exact .inr (.inl ⟨h9, hd, rfl⟩)
    · next hd =>
      refine .inr (.inr ⟨h9, Nat.le_of_not_lt hd, ?_⟩)
      split
      · next c hc => exact .inl ⟨c, hc, rfl⟩
      · next e c hc => exact .inr ⟨e, c, hc, rfl⟩

/-- Where the decoder starts: what earlier commands left, with no byte output. -/
abbrev decBegin (s : State) : DecCtx := { regs := { s.dec with out := 0 }, dict := s.ddict, data := s.data }

theorem decompressEnd_cases (s : State) :
    (s.params.bfCap < s.bf.size.toNat ∧ decompressEnd s = s.failedWith .capacity) ∨
      (s.bf.size.toNat ≤ s.params.bfCap ∧
        ((∃ c, decompressRun s.params (wrapBF s.params s.bf) (decBegin s) = .ok c ∧
            decompressEnd s =
              State.finishedWith (word c.regs.out)
                { s with
                  bf := wrapBF s.params s.bf, dec := c.regs, ddict := c.dict, data := c.data
                  dataLen := word c.regs.out }) ∨
          ∃ e c, decompressRun s.params (wrapBF s.params s.bf) (decBegin s) = .raised e c ∧
            decompressEnd s =
              raiseError e
                { s with
                  bf := wrapBF s.params s.bf, dec := c.regs, ddict := c.dict
                  data := decompressFailed s.data c.regs.out, dataLen := 0 })) := by
  unfold decompressEnd
  split
  · next h => exact .inl ⟨(bfOverCapacity_iff s).mp h, rfl⟩
  · next h =>
    rw [bfOverCapacity_iff] at h
    refine .inr ⟨Nat.le_of_not_lt h, ?_⟩
    split
    · next c hc => exact .inl ⟨c, hc, rfl⟩
    · next e c hc => exact .inr ⟨e, c, hc, rfl⟩

/-- The state a command leaves. -/
def endOf : Instr → State → State
  | .setbit => setbitEnd
  | .getbit => getbitEnd
  | .setint w => setintEnd w
  | .getint w => getintEnd w
  | .compress maxw blk => compressEnd maxw blk
  | .decompress => decompressEnd

theorem exec_eq (i : Instr) (s : State) : exec i s = .next (endOf i s) := by cases i <;> rfl

/-- What no command changes, and that it leaves the block idle. -/
theorem endOf_frame (i : Instr) (s : State) :
    (endOf i s).status.busy = false ∧ (endOf i s).status.reject = s.status.reject ∧
      (endOf i s).params = s.params ∧ (endOf i s).cmd = s.cmd ∧ (endOf i s).arg0 = s.arg0 ∧ (endOf i s).arg1 = s.arg1 ∧
      (endOf i s).inputs = s.inputs ∧ (endOf i s).rdata = s.rdata ∧ (endOf i s).freeCount = s.freeCount := by
  cases i with
  | setbit =>
    rcases setbitEnd_cases s with ⟨_, h⟩ | h | ⟨_, _, h⟩ <;>
      (simp only [endOf, h]; exact ⟨rfl, rfl, rfl, rfl, rfl, rfl, rfl, rfl, rfl⟩)
  | getbit =>
    rcases getbitEnd_cases s with h | ⟨_, _, h⟩ <;>
      (simp only [endOf, h]; exact ⟨rfl, rfl, rfl, rfl, rfl, rfl, rfl, rfl, rfl⟩)
  | setint w =>
    rcases setintEnd_cases w s with ⟨_, h⟩ | h | ⟨_, _, h⟩ <;>
      (simp only [endOf, h]; exact ⟨rfl, rfl, rfl, rfl, rfl, rfl, rfl, rfl, rfl⟩)
  | getint w =>
    rcases getintEnd_cases w s with h | ⟨_, _, h⟩ | ⟨_, _, h⟩ <;>
      (simp only [endOf, h]; exact ⟨rfl, rfl, rfl, rfl, rfl, rfl, rfl, rfl, rfl⟩)
  | compress maxw blk =>
    rcases compressEnd_cases maxw blk s with ⟨_, h⟩ | ⟨_, _, h⟩ | ⟨_, _, ⟨_, _, h⟩ | ⟨_, _, _, h⟩⟩ <;>
      (simp only [endOf, h]; exact ⟨rfl, rfl, rfl, rfl, rfl, rfl, rfl, rfl, rfl⟩)
  | decompress =>
    rcases decompressEnd_cases s with ⟨_, h⟩ | ⟨_, ⟨_, _, h⟩ | ⟨_, _, _, h⟩⟩ <;>
      (simp only [endOf, h]; exact ⟨rfl, rfl, rfl, rfl, rfl, rfl, rfl, rfl, rfl⟩)

/-- `s` with another host's side: REJECT, the word of the last read, the free-value counter and the inputs. -/
abbrev State.withHostSide (s : State) (r : Bool) (d : Word) (n : Nat) (is : List Input) : State :=
  { s with status := { s.status with reject := r }, rdata := d, freeCount := n, inputs := is }

/-- No command reads the host's side, and none changes it. -/
theorem endOf_withHostSide (i : Instr) (s : State) (r : Bool) (d : Word) (n : Nat) (is : List Input) :
    endOf i (s.withHostSide r d n is) = (endOf i s).withHostSide r d n is := by
  cases i with
  | setbit =>
    simp only [endOf, setbitEnd, State.bfOverCapacity, State.value, State.pos]
    by_cases h1 : 1 < s.arg1.toNat
    · rw [if_pos h1, if_pos h1]; rfl
    · by_cases h2 : s.params.bfCap < s.bf.size.toNat
      · simp only [h1, h2, if_false, decide_true, if_true]; rfl
      · simp only [h1, h2, if_false, decide_false]
        cases s.bf.setBitI s.params s.arg0.toNat (decide (s.arg1.toNat = 1)) <;> rfl
  | getbit =>
    simp only [endOf, getbitEnd, State.bfOverCapacity, State.pos]
    by_cases h2 : s.params.bfCap < s.bf.size.toNat
    · simp only [h2, decide_true, if_true]; rfl
    · simp only [h2, decide_false]
      cases s.bf.getBitI s.params s.arg0.toNat <;> rfl
  | setint w =>
    simp only [endOf, setintEnd, State.bfOverCapacity, State.value, State.pos]
    by_cases h1 : 2 ^ w ≤ s.arg1.toNat
    · rw [if_pos h1, if_pos h1]; rfl
    · by_cases h2 : s.params.bfCap < s.bf.size.toNat
      · simp only [h1, h2, if_false, decide_true, if_true]; rfl
      · simp only [h1, h2, if_false, decide_false]
        cases s.bf.setInt s.params s.arg0.toNat w s.arg1.toNat <;> rfl
  | getint w =>
    simp only [endOf, getintEnd, State.bfOverCapacity, State.pos]
    by_cases h2 : s.params.bfCap < s.bf.size.toNat
    · simp only [h2, decide_true, if_true]; rfl
    · simp only [h2, decide_false]
      cases s.bf.getInt s.arg0.toNat w <;> rfl
  | compress maxw blk =>
    simp only [endOf, compressEnd, State.dataLength]
    by_cases h1 : maxw < 9 ∨ 31 < maxw
    · rw [if_pos h1, if_pos h1]; rfl
    · by_cases h2 : s.params.dataCap < s.dataLen.toNat
      · simp only [h1, h2, if_false, if_true]; rfl
      · simp only [h1, h2, if_false]
        cases compressRun s.params s.data s.dataLen.toNat maxw blk { regs := s.enc, dict := s.edict, bf := s.bf } <;>
          rfl
  | decompress =>
    simp only [endOf, decompressEnd, State.bfOverCapacity]
    by_cases h2 : s.params.bfCap < s.bf.size.toNat
    · simp only [h2, decide_true, if_true]; rfl
    · simp only [h2, decide_false]
      cases decompressRun s.params (wrapBF s.params s.bf) (decBegin s) <;> rfl

end Sys2Proof.Machine
end

