-- ==== Sys2Proof/Laws/Dictionary.lean ====
section
/-! SUPPORT. The dictionaries in prefix-pair form: lookups, strings and the form that insertion keeps. -/
namespace Sys2Proof.Machine

theorem firstCode_cases (blk : Bool) : (blk = true ∧ firstCode blk = 257) ∨ (blk = false ∧ firstCode blk = 256) := by
  cases blk <;> simp [firstCode]

theorem firstCode_ge (blk : Bool) : 256 ≤ firstCode blk := by cases blk <;> simp [firstCode]

theorem firstCode_le (blk : Bool) : firstCode blk ≤ 257 := by cases blk <;> simp [firstCode]

/-! ### Lookups -/

theorem dictLookup_some {d : List Entry} {p : Nat} {b : Byte} {code : Nat} (h : dictLookup d p b = some code) :
    ∃ e ∈ d, e.pre = p ∧ e.byte = b ∧ e.code = code := by
  induction d with
  | nil => simp [dictLookup] at h
  | cons e es ih =>
    simp only [dictLookup] at h
    split at h
    · next hc => cases h; exact ⟨e, List.mem_cons_self, hc.1, hc.2, rfl⟩
    · obtain ⟨f, hf, h'⟩ := ih h
      exact ⟨f, List.mem_cons_of_mem _ hf, h'⟩

theorem dictLookup_none {d : List Entry} {p : Nat} {b : Byte} (h : dictLookup d p b = none) :
    ∀ e ∈ d, ¬(e.pre = p ∧ e.byte = b) := by
  induction d with
  | nil => simp
  | cons e es ih =>
    simp only [dictLookup] at h
    split at h
    · cases h
    · next hc =>
      intro f hf
      rcases List.mem_cons.mp hf with rfl | hf
      · exact hc
      · exact ih h f hf

/-- Where no entry has the pair, the lookup finds none. -/
theorem dictLookup_eq_none {d : List Entry} {p : Nat} {b : Byte} (h : ∀ e ∈ d, ¬(e.pre = p ∧ e.byte = b)) :
    dictLookup d p b = none := by
  cases hl : dictLookup d p b with
  | none => rfl
  | some code =>
    obtain ⟨e, he, hp, hb, -⟩ := dictLookup_some hl
    exact absurd ⟨hp, hb⟩ (h e he)

/-- In a dictionary with one entry for each pair, the lookup finds every entry. -/
theorem dictLookup_of_mem {d : List Entry} (hu : dictUnique d) {e : Entry} (he : e ∈ d) :
    dictLookup d e.pre e.byte = some e.code := by
  induction d with
  | nil => cases he
  | cons x xs ih =>
    rw [dictUnique, List.pairwise_cons] at hu
    rcases List.mem_cons.mp he with rfl | he
    · simp [dictLookup]
    · rw [dictLookup, if_neg (hu.1 e he), ih hu.2 he]

/-! ### The form -/

theorem dictFrom_code {first : Nat} {d : List Entry} (h : dictFrom first d) :
    ∀ e ∈ d, first ≤ e.code ∧ e.code < first + d.length := by
  induction d with
  | nil => simp
  | cons e es ih =>
    obtain ⟨hc, _, hs⟩ := h
    intro f hf
    rcases List.mem_cons.mp hf with rfl | hf
    · simp only [List.length_cons]; omega
    · have := ih hs f hf
      simp only [List.length_cons]; omega

theorem knownCodeIn_byte (first : Nat) (d : List Entry) (b : Byte) : knownCodeIn first d b.toNat := .inl b.isLt

theorem knownCodeIn_cons {first : Nat} {d : List Entry} {code : Nat} (e : Entry) (h : knownCodeIn first d code) :
    knownCodeIn first (e :: d) code := by
  rcases h with h | h
  · exact .inl h
  · exact .inr ⟨h.1, by simp only [List.length_cons]; omega⟩

theorem knownCodeIn_of_mem {first : Nat} {d : List Entry} (h : dictFrom first d) {e : Entry} (he : e ∈ d) :
    knownCodeIn first d e.code := .inr (dictFrom_code h e he)

theorem dictFrom_pre {first : Nat} {d : List Entry} (h : dictFrom first d) : ∀ e ∈ d, knownCodeIn first d e.pre := by
  induction d with
  | nil => simp
  | cons e es ih =>
    obtain ⟨_, hp, hs⟩ := h
    intro f hf
    rcases List.mem_cons.mp hf with rfl | hf
    · exact knownCodeIn_cons _ hp
    · exact knownCodeIn_cons _ (ih hs f hf)

theorem dictUnique_cons {d : List Entry} {e : Entry} (h : dictUnique d) (hn : dictLookup d e.pre e.byte = none) :
    dictUnique (e :: d) :=
  List.pairwise_cons.mpr ⟨fun f hf hc => dictLookup_none hn f hf ⟨hc.1.symm, hc.2.symm⟩, h⟩

/-! ### Strings -/

theorem dictStr_byte {code : Nat} (d : List Entry) (h : code < 256) : dictStr d code = [BitVec.ofNat 8 code] := by
  cases d <;> simp [dictStr, h]

theorem dictStr_cons_eq (es : List Entry) (e : Entry) (h : 256 ≤ e.code) :
    dictStr (e :: es) e.code = dictStr es e.pre ++ [e.byte] := by
  simp [dictStr, Nat.not_lt.mpr h]

theorem dictStr_cons_ne (es : List Entry) (e : Entry) {code : Nat} (h : e.code ≠ code) :
    dictStr (e :: es) code = dictStr es code := by
  by_cases hc : code < 256
  · rw [dictStr_byte _ hc, dictStr_byte _ hc]
  · simp [dictStr, hc, h]

theorem dictStr_ne_nil (d : List Entry) (code : Nat) : dictStr d code ≠ [] := by
  induction d generalizing code with
  | nil => simp only [dictStr]; split <;> simp
  | cons e es ih =>
    simp only [dictStr]
    split
    · simp
    · split
      · simp
      · exact ih code

/-- A new entry changes no string that was there. -/
theorem dictStr_cons_known {first : Nat} {es : List Entry} {e : Entry} (hf : 256 ≤ first)
    (he : e.code = first + es.length) {code : Nat} (h : knownCodeIn first es code) :
    dictStr (e :: es) code = dictStr es code :=
  dictStr_cons_ne es e (by rcases h with h | h <;> omega)

/-- The string of an entry is its prefix's string and its byte (10_state.md R46). -/
theorem dictStr_entry {first : Nat} (hf : 256 ≤ first) {d : List Entry} (h : dictFrom first d) :
    ∀ e ∈ d, dictStr d e.code = dictStr d e.pre ++ [e.byte] := by
  induction d with
  | nil => simp
  | cons e es ih =>
    obtain ⟨hc, hp, hs⟩ := h
    intro f hf'
    rcases List.mem_cons.mp hf' with rfl | hf'
    · rw [dictStr_cons_eq es f (by omega), dictStr_cons_known hf hc hp]
    · have hk := dictFrom_code hs f hf'
      rw [dictStr_cons_known hf hc (.inr hk), ih hs f hf']
      congr 1
      exact (dictStr_cons_known hf hc (dictFrom_pre hs f hf')).symm

end Sys2Proof.Machine
end

