-- ==== Sys2Proof/Laws/Decoder.lean ====
section
/-! SUPPORT. What each step of the decoder can do, said once: how it ends and what it has changed by then. -/
namespace Sys2Proof.Machine

variable {P : Params} {bf : BitField} {c c' : DecCtx} {e : Raise}

/-! ### `Output` -/

/-- Bytes written one after the other from index `out` on. -/
def Memory.writeAll (m : Memory) (out : Nat) : List Byte → Memory
  | [] => m
  | x :: xs => Memory.writeAll (m.write out x) (out + 1) xs

theorem Memory.read_writeAll_ne (id : StoreId) (m : Memory) (out : Nat) (xs : List Byte) {i : Nat}
    (h : i < out ∨ out + xs.length ≤ i) : (m.writeAll out xs).read id i = m.read id i := by
  induction xs generalizing m out with
  | nil => rfl
  | cons x xs ih =>
    simp only [List.length_cons] at h
    rw [Memory.writeAll, ih _ _ (by omega), Memory.read_write_ne _ _ _ (by omega)]

theorem Memory.read_writeAll (id : StoreId) (m : Memory) (out : Nat) (xs : List Byte) (k : Nat) (h : k < xs.length) :
    (m.writeAll out xs).read id (out + k) = xs[k] := by
  induction xs generalizing m out k with
  | nil => simp at h
  | cons x xs ih =>
    cases k with
    | zero => rw [Memory.writeAll, Memory.read_writeAll_ne _ _ _ _ (by omega)]; simp
    | succ k =>
      have := ih (m.write out x) (out + 1) k (by simpa using h)
      rw [Memory.writeAll, show out + (k + 1) = out + 1 + k by omega, this]
      rfl

theorem Memory.writeAll_append (m : Memory) (out : Nat) (xs ys : List Byte) :
    m.writeAll out (xs ++ ys) = (m.writeAll out xs).writeAll (out + xs.length) ys := by
  induction xs generalizing m out with
  | nil => rfl
  | cons x xs ih =>
    simp only [List.cons_append, Memory.writeAll, ih, List.length_cons]
    rw [show out + 1 + xs.length = out + (xs.length + 1) by omega]

theorem Memory.wf_writeAll {m : Memory} (h : m.wf) (out : Nat) (xs : List Byte) : (m.writeAll out xs).wf := by
  induction xs generalizing m out with
  | nil => exact h
  | cons x xs ih => exact ih (Memory.wf_write h _ _) _

theorem Memory.within_writeAll {m : Memory} {cap : Nat} (h : m.within cap) {out : Nat} {xs : List Byte}
    (hc : out + xs.length ≤ cap) : (m.writeAll out xs).within cap := by
  induction xs generalizing m out with
  | nil => exact h
  | cons x xs ih =>
    simp only [List.length_cons] at hc
    exact ih (Memory.within_write h (by omega) x) (by omega)

/-- `c` with the bytes `xs` output. -/
abbrev DecCtx.withOutput (c : DecCtx) (xs : List Byte) : DecCtx :=
  { c with regs := { c.regs with out := c.regs.out + xs.length }, data := c.data.writeAll c.regs.out xs }

theorem DecCtx.withOutput_nil (c : DecCtx) : c.withOutput [] = c := rfl

theorem DecCtx.withOutput_cons (c : DecCtx) (x : Byte) (xs : List Byte) :
    DecCtx.withOutput { c with regs := { c.regs with out := c.regs.out + 1 }, data := c.data.write c.regs.out x } xs =
      c.withOutput (x :: xs) := by
  simp only [DecCtx.withOutput, Memory.writeAll, List.length_cons]
  rw [show c.regs.out + 1 + xs.length = c.regs.out + (xs.length + 1) by omega]

theorem output_ok {xs : List Byte} : output P xs c = .ok c' ↔
    (xs = [] ∨ c.regs.out + xs.length ≤ P.dataCap) ∧ c' = c.withOutput xs := by
  induction xs generalizing c with
  | nil => simp [output, DecCtx.withOutput_nil, eq_comm]
  | cons x xs ih =>
    simp only [output]
    by_cases h : P.dataCap ≤ c.regs.out
    · have : ¬ (c.regs.out + (xs.length + 1) ≤ P.dataCap) := by omega
      simp [h, this]
    · rw [if_neg h, ih, DecCtx.withOutput_cons]
      simp only [List.length_cons, reduceCtorEq, false_or]
      refine and_congr_left fun _ => ⟨?_, fun h1 => .inr (by omega)⟩
      rintro (rfl | h1)
      · simp only [List.length_nil]; omega
      · omega

theorem output_raised {xs : List Byte} (h : output P xs c = .raised e c') :
    e = { err := .capacity } ∧
      ∃ ys, ys.length < xs.length ∧ c.regs.out + ys.length = max c.regs.out P.dataCap ∧
        c' = c.withOutput ys := by
  induction xs generalizing c with
  | nil => cases h
  | cons x xs ih =>
    simp only [output] at h
    split at h
    · next hc =>
      cases h
      exact ⟨rfl, [], by simp, by simp only [List.length_nil]; omega, rfl⟩
    · next hc =>
      obtain ⟨he, ys, hl, ho, rfl⟩ := ih h
      refine ⟨he, x :: ys, by simpa using hl, ?_, DecCtx.withOutput_cons c x ys⟩
      have ho' : c.regs.out + 1 + ys.length = max (c.regs.out + 1) P.dataCap := ho
      simp only [List.length_cons]
      omega

/-! ### `Insert` -/

/-- `c` with an entry for d.next. -/
abbrev DecCtx.withEntry (c : DecCtx) (p : Nat) (b : Byte) : DecCtx :=
  { c with dict := { code := c.regs.next, pre := p, byte := b } :: c.dict }

theorem decInsert_ok {p : Nat} {b : Byte} : decInsert P p b c = .ok c' ↔
    (2 ^ c.regs.wtop ≤ c.regs.next ∧ c' = c) ∨
      (c.regs.next < 2 ^ c.regs.wtop ∧ c.regs.next < P.dictLimit ∧ c' = c.withEntry p b) := by
  unfold decInsert
  by_cases h : 2 ^ c.regs.wtop ≤ c.regs.next
  · simp [h, eq_comm]
  · by_cases hl : P.dictLimit ≤ c.regs.next
    · simp [h, hl]
    · simp [h, hl, Nat.lt_of_not_le h, Nat.lt_of_not_le hl, eq_comm]

theorem decInsert_raised {p : Nat} {b : Byte} : decInsert P p b c = .raised e c' ↔
    c.regs.next < 2 ^ c.regs.wtop ∧ P.dictLimit ≤ c.regs.next ∧ e = { err := .capacity } ∧ c' = c := by
  unfold decInsert
  by_cases h : 2 ^ c.regs.wtop ≤ c.regs.next
  · simp [h]
  · by_cases hl : P.dictLimit ≤ c.regs.next
    · simp [h, hl, Nat.lt_of_not_le h, eq_comm]
    · simp [h, hl]

/-! ### A first code -/

/-- What a first code can do: end, raise, or output its byte. -/
theorem firstCodeStep_cases (P : Params) (bf : BitField) (c : DecCtx) :
    (codeAt bf c = none ∧ firstCodeStep P bf c = .ended c) ∨
      (∃ code, codeAt bf c = some code ∧ 256 ≤ code ∧
        firstCodeStep P bf c = .raised (badCode code c.regs.next c.regs.pos) (decAdvance c)) ∨
      (∃ code, codeAt bf c = some code ∧ code < 256 ∧ P.dataCap ≤ c.regs.out ∧
        firstCodeStep P bf c = .raised { err := .capacity } (decAdvance c)) ∨
      ∃ b : Byte, codeAt bf c = some b.toNat ∧ c.regs.out < P.dataCap ∧
        firstCodeStep P bf c =
          .go { c with
            regs := { c.regs with pos := c.regs.pos + c.regs.width, out := c.regs.out + 1, seen := b.toNat }
            data := c.data.write c.regs.out b } := by
  unfold firstCodeStep
  cases h : codeAt bf c with
  | none => exact .inl ⟨rfl, rfl⟩
  | some code =>
    by_cases hc : 256 ≤ code
    · exact .inr (.inl ⟨code, rfl, hc, by simp [hc]⟩)
    · have hb : (BitVec.ofNat 8 code).toNat = code := by rw [BitVec.toNat_ofNat, Nat.mod_eq_of_lt (by omega)]
      by_cases ho : P.dataCap ≤ c.regs.out
      · exact .inr (.inr (.inl ⟨code, rfl, by omega, ho,
          by simp [hc, dictStr_byte _ (Nat.lt_of_not_le hc), output, ho, decAdvance]⟩))
      · exact .inr (.inr (.inr ⟨BitVec.ofNat 8 code, by rw [hb], by omega,
          by simp [hc, dictStr_byte _ (Nat.lt_of_not_le hc), output, ho, decAdvance, Nat.mod_eq_of_lt (Nat.lt_of_not_le hc)]⟩))

/-! ### `MainStep` -/

/-- The string that a code stands for where it is read: of a known code its own, of d.next the previous one and its first
byte (42_decoder.md R209, R210). -/
def expansion (c : DecCtx) (code : Nat) : List Byte :=
  if present c.regs code then dictStr c.dict code
  else dictStr c.dict c.regs.seen ++ [firstByte (dictStr c.dict c.regs.seen)]

theorem expansion_ne_nil (c : DecCtx) (code : Nat) : expansion c code ≠ [] := by
  unfold expansion
  split
  · exact dictStr_ne_nil _ _
  · simp

theorem expandCode_present {code p0 : Nat} (h : present c.regs code = true) :
    expandCode P code p0 c = knownCode P code c := by simp [expandCode, h]

theorem expandCode_next {code p0 : Nat} (h : ¬present c.regs code = true) (hn : code = c.regs.next) :
    expandCode P code p0 c = kwkwkCode P c := by subst hn; simp [expandCode, h]

theorem expandCode_corrupt {code p0 : Nat} (h : ¬present c.regs code = true) (hn : code ≠ c.regs.next) :
    expandCode P code p0 c = .raised (badCode code c.regs.next p0) c := by simp [expandCode, h, hn]

theorem expansion_present {code : Nat} (h : present c.regs code = true) : expansion c code = dictStr c.dict code := by
  simp [expansion, h]

theorem expansion_absent {code : Nat} (h : ¬present c.regs code = true) :
    expansion c code = dictStr c.dict c.regs.seen ++ [firstByte (dictStr c.dict c.regs.seen)] := by
  simp [expansion, h]

theorem firstByte_append {xs : List Byte} (h : xs ≠ []) (ys : List Byte) : firstByte (xs ++ ys) = firstByte xs := by
  cases xs with
  | nil => exact absurd rfl h
  | cons x xs => rfl

/-- What the expansion of a code that is no RESET_CODE leaves when it succeeds. -/
theorem expandCode_ok {code p0 : Nat} : expandCode P code p0 c = .ok c' ↔
    (present c.regs code = true ∨ code = c.regs.next) ∧ c.regs.out + (expansion c code).length ≤ P.dataCap ∧
      ((2 ^ c.regs.wtop ≤ c.regs.next ∧ c' = c.withOutput (expansion c code)) ∨
        (c.regs.next < 2 ^ c.regs.wtop ∧ c.regs.next < P.dictLimit ∧
          c' = (c.withOutput (expansion c code)).withEntry c.regs.seen (firstByte (expansion c code)))) := by
  have hne := expansion_ne_nil c code
  by_cases hp : present c.regs code = true
  · rw [expandCode_present hp, knownCode, Flow.andThen_eq_ok]
    rw [expansion_present hp] at hne ⊢
    simp only [output_ok, decInsert_ok, hne, hp, false_or, true_or, true_and]
    constructor
    · rintro ⟨a, ⟨h1, rfl⟩, h2⟩
      exact ⟨h1, h2⟩
    · rintro ⟨h1, h2⟩
      exact ⟨_, ⟨h1, rfl⟩, h2⟩
  · by_cases hn : code = c.regs.next
    · rw [expandCode_next hp hn, kwkwkCode, Flow.andThen_eq_ok]
      rw [expansion_absent hp] at hne ⊢
      simp only [output_ok, decInsert_ok, hne, hn, false_or, or_true, true_and, firstByte_append (dictStr_ne_nil _ _)]
      constructor
      · rintro ⟨a, ⟨h2, rfl⟩ | ⟨h2, h3, rfl⟩, h1, rfl⟩
        · exact ⟨h1, .inl ⟨h2, rfl⟩⟩
        · exact ⟨h1, .inr ⟨h2, h3, rfl⟩⟩
      · rintro ⟨h1, ⟨h2, rfl⟩ | ⟨h2, h3, rfl⟩⟩
        · exact ⟨_, .inl ⟨h2, rfl⟩, h1, rfl⟩
        · exact ⟨_, .inr ⟨h2, h3, rfl⟩, h1, rfl⟩
    · rw [expandCode_corrupt hp hn]
      simp [hp, hn]

/-- How the expansion of a code that is no RESET_CODE can fail, and what it has changed by then. -/
theorem expandCode_raised {code p0 : Nat} (h : expandCode P code p0 c = .raised e c') :
    (¬present c.regs code = true ∧ code ≠ c.regs.next ∧ e = badCode code c.regs.next p0 ∧ c' = c) ∨
      (e = { err := .capacity } ∧
        ∃ ys, (ys = [] ∨ c.regs.out + ys.length ≤ P.dataCap) ∧
          (c' = c.withOutput ys ∨
            (¬present c.regs code = true ∧ code = c.regs.next ∧ c.regs.next < 2 ^ c.regs.wtop ∧
              c.regs.next < P.dictLimit ∧
              c' = (c.withOutput ys).withEntry c.regs.seen (firstByte (dictStr c.dict c.regs.seen))))) := by
  have short : ∀ ys : List Byte, c.regs.out + ys.length = max c.regs.out P.dataCap →
      ys = [] ∨ c.regs.out + ys.length ≤ P.dataCap := by
    intro ys hy
    by_cases h0 : ys.length = 0
    · exact .inl (List.eq_nil_of_length_eq_zero h0)
    · exact .inr (by omega)
  by_cases hp : present c.regs code = true
  · rw [expandCode_present hp, knownCode, Flow.andThen_eq_raised] at h
    refine .inr ?_
    rcases h with h | ⟨a, ha, h⟩
    · obtain ⟨he, ys, _, ho, rfl⟩ := output_raised h
      exact ⟨he, ys, short ys ho, .inl rfl⟩
    · obtain ⟨ho, rfl⟩ := output_ok.mp ha
      obtain ⟨_, _, he, rfl⟩ := decInsert_raised.mp h
      exact ⟨he, _, ho, .inl rfl⟩
  · by_cases hn : code = c.regs.next
    · rw [expandCode_next hp hn, kwkwkCode, Flow.andThen_eq_raised] at h
      refine .inr ?_
      rcases h with h | ⟨a, ha, h⟩
      · obtain ⟨_, _, he, rfl⟩ := decInsert_raised.mp h
        exact ⟨he, [], .inl rfl, .inl rfl⟩
      · obtain ⟨he, ys, _, ho, rfl⟩ := output_raised h
        rcases decInsert_ok.mp ha with ⟨h2, rfl⟩ | ⟨h2, h3, rfl⟩
        · exact ⟨he, ys, short ys ho, .inl rfl⟩
        · exact ⟨he, ys, short ys ho, .inr ⟨hp, hn, h2, h3, rfl⟩⟩
    · rw [expandCode_corrupt hp hn, Flow.raised.injEq] at h
      exact .inl ⟨hp, hn, h.1.symm, h.2.symm⟩

/-- d.seen, d.next and the width after a code that is no RESET_CODE. -/
abbrev DecCtx.advanced (c : DecCtx) (code : Nat) : DecCtx := { c with regs := decWidthStep (decNext code c.regs) }

/-- What a code can do after the first. -/
theorem mainStep_cases (P : Params) (bf : BitField) (c : DecCtx) :
    (codeAt bf c = none ∧ mainStep P bf c = .ended c) ∨
      (codeAt bf c = some resetCode ∧ c.regs.blk = true ∧
        mainStep P bf c = firstCodeStep P bf (decReset (decAdvance c))) ∨
      ∃ code, codeAt bf c = some code ∧ ¬(c.regs.blk = true ∧ code = resetCode) ∧
        ((∃ c₁, expandCode P code c.regs.pos (decAdvance c) = .ok c₁ ∧ mainStep P bf c = .go (c₁.advanced code)) ∨
          ∃ e c₁, expandCode P code c.regs.pos (decAdvance c) = .raised e c₁ ∧ mainStep P bf c = .raised e c₁) := by
  unfold mainStep
  cases h : codeAt bf c with
  | none => exact .inl ⟨rfl, rfl⟩
  | some code =>
    by_cases hr : c.regs.blk = true ∧ code = resetCode
    · obtain ⟨hb, rfl⟩ := hr
      exact .inr (.inl ⟨rfl, hb, by simp [hb]⟩)
    · refine .inr (.inr ⟨code, rfl, hr, ?_⟩)
      simp only [hr, if_false]
      cases hx : expandCode P code c.regs.pos (decAdvance c) with
      | ok c₁ => exact .inl ⟨c₁, rfl, rfl⟩
      | raised e c₁ => exact .inr ⟨e, c₁, rfl, rfl⟩

theorem decWidthStep_cases (r : DecRegs) :
    (2 ^ r.width ≤ r.next ∧ r.width < r.maxw ∧ decWidthStep r = { r with width := r.width + 1 }) ∨
      ((r.next < 2 ^ r.width ∨ r.maxw ≤ r.width) ∧ decWidthStep r = r) := by
  unfold decWidthStep
  split
  · next h => exact .inl ⟨h.1, h.2, rfl⟩
  · exact .inr ⟨by omega, rfl⟩

/-! ### The main loop -/

/-- What every code keeps, the whole loop keeps. -/
theorem mainLoop_induct {P : Params} {bf : BitField} (I E : DecCtx → Prop) (stop : ∀ c, I c → E c)
    (step : ∀ c c₁, I c → mainStep P bf c = .go c₁ → I c₁) (last : ∀ c c₁, I c → mainStep P bf c = .ended c₁ → E c₁) :
    ∀ n c c', I c → mainLoop P bf n c = .ok c' → E c' := by
  intro n
  induction n with
  | zero => intro c c' h hs; cases hs; exact stop _ h
  | succ n ih =>
    intro c c' h hs
    simp only [mainLoop] at hs
    split at hs
    · next c₁ h₁ => cases hs; exact last _ _ h h₁
    · cases hs
    · next c₁ h₁ => exact ih _ _ (step _ _ h h₁) hs

/-- Where the loop raises, a code raised in a state that the loop reached. -/
theorem mainLoop_raised {P : Params} {bf : BitField} (I : DecCtx → Prop)
    (step : ∀ c c₁, I c → mainStep P bf c = .go c₁ → I c₁) :
    ∀ n c e c', I c → mainLoop P bf n c = .raised e c' → ∃ d, I d ∧ mainStep P bf d = .raised e c' := by
  intro n
  induction n with
  | zero => intro c e c' _ hs; cases hs
  | succ n ih =>
    intro c e c' h hs
    simp only [mainLoop] at hs
    split at hs
    · cases hs
    · next h₁ => cases hs; exact ⟨c, h, h₁⟩
    · next c₁ h₁ => exact ih _ _ _ (step _ _ h h₁) hs

end Sys2Proof.Machine
end

