-- ==== Sys2Proof/Laws/Encoder.lean ====
section
/-! SUPPORT. What each step of the encoder can do, said once: how it ends and what it has changed by then. -/
namespace Sys2Proof.Machine

variable {P : Params} {c c' : EncCtx} {e : Raise}

/-! ### `Emit` and the header -/

theorem encSetInt_ok {p w v : Nat} : encSetInt P p w v c = .ok c' ↔
    ∃ bf, c.bf.setInt P p w v = .ok bf ∧ c' = { c with bf := bf } := by
  unfold encSetInt
  cases c.bf.setInt P p w v <;> simp [eq_comm]

theorem encSetInt_raised {p w v : Nat} : encSetInt P p w v c = .raised e c' ↔
    ∃ er, c.bf.setInt P p w v = .error er ∧ e = { err := er } ∧ c' = c := by
  unfold encSetInt
  cases c.bf.setInt P p w v <;> simp [eq_comm]

theorem emit_ok {code : Nat} : emit P code c = .ok c' ↔
    ∃ bf, c.bf.setInt P c.regs.pos c.regs.width code = .ok bf ∧
      c' = { c with bf := bf, regs := { c.regs with pos := c.regs.pos + c.regs.width } } := by
  unfold emit
  rw [Flow.andThen_eq_ok]
  constructor
  · rintro ⟨a, ha, hb⟩
    obtain ⟨bf, hbf, rfl⟩ := encSetInt_ok.mp ha
    exact ⟨bf, hbf, by cases hb; rfl⟩
  · rintro ⟨bf, hbf, rfl⟩
    exact ⟨_, encSetInt_ok.mpr ⟨bf, hbf, rfl⟩, rfl⟩

theorem emit_raised {code : Nat} : emit P code c = .raised e c' ↔
    ∃ er, c.bf.setInt P c.regs.pos c.regs.width code = .error er ∧ e = { err := er } ∧ c' = c := by
  unfold emit
  rw [Flow.andThen_eq_raised]
  constructor
  · rintro (h | ⟨a, _, h⟩)
    · exact encSetInt_raised.mp h
    · cases h
  · exact fun h => .inl (encSetInt_raised.mpr h)

/-- What the header leaves: three bytes, and the registers of 41_encoder.md R164. It never fails, since the store holds
at least three bytes (00_scope.md R9). -/
theorem writeHeader_ok (P : Params) {maxw : Nat} (blk : Bool) (hm : maxw ≤ 31) {c : EncCtx} (hs : c.bf.size = 0) :
    ∃ bf₁ bf₂ bf₃, c.bf.writtenWith bf₁ 0 8 magic0 ∧ bf₁.writtenWith bf₂ 8 8 magic1 ∧
      bf₂.writtenWith bf₃ 16 8 (flagsByte maxw blk) ∧ bf₃.size.toNat = 3 ∧
      c.bf.setInt P 0 8 magic0 = .ok bf₁ ∧ bf₁.setInt P 8 8 magic1 = .ok bf₂ ∧
      bf₂.setInt P 16 8 (flagsByte maxw blk) = .ok bf₃ ∧
      writeHeader P maxw blk c = .ok { c with bf := bf₃, regs := encStart maxw blk c.regs } := by
  have hcap := P.bfCap_legal.1
  have hf : flagsByte maxw blk < 2 ^ 8 := by
    have := Bool.toNat_le blk
    simp only [flagsByte]; omega
  obtain ⟨b1, e1, w1⟩ := BitField.setInt_ok (P := P) c.bf (p := 0) (w := 8) (v := magic0) (by decide) (.inr (by omega))
  obtain ⟨b2, e2, w2⟩ := BitField.setInt_ok (P := P) b1 (p := 8) (w := 8) (v := magic1) (by decide) (.inr (by omega))
  obtain ⟨b3, e3, w3⟩ := BitField.setInt_ok (P := P) b2 (p := 16) (w := 8) (v := flagsByte maxw blk) hf (.inr (by omega))
  refine ⟨b1, b2, b3, w1, w2, w3, ?_, e1, e2, e3, ?_⟩
  · have s1 := w1.2.1
    have s2 := w2.2.1
    have s3 := w3.2.1
    rw [if_neg (by decide)] at s1 s2 s3
    rw [hs] at s1
    simp at s1
    omega
  · simp [writeHeader, encSetInt, e1, e2, e3]

/-! ### `Grow` -/

/-- The width step changes the width by at most one, or declares the dictionary full. -/
theorem encWidthStep_cases (r : EncRegs) :
    (r.next < 2 ^ r.width ∧ encWidthStep r = r) ∨
      (2 ^ r.width ≤ r.next ∧ r.width < r.maxw ∧ encWidthStep r = { r with width := r.width + 1 }) ∨
      (2 ^ r.width ≤ r.next ∧ r.maxw ≤ r.width ∧ encWidthStep r = { r with full := true }) := by
  unfold encWidthStep
  split
  · split
    · exact .inr (.inl ⟨‹_›, ‹_›, rfl⟩)
    · exact .inr (.inr ⟨‹_›, by omega, rfl⟩)
  · exact .inl ⟨by omega, rfl⟩

theorem encInsert_ok {seen : Nat} {b : Byte} : encInsert P seen b c = .ok c' ↔
    (c.regs.full = true ∧ c' = c) ∨
      (c.regs.full = false ∧ c.regs.next < P.dictLimit ∧
        c' = { c with
          regs := { c.regs with next := c.regs.next + 1 }
          dict := { code := c.regs.next, pre := seen, byte := b } :: c.dict }) := by
  unfold encInsert
  cases c.regs.full
  · by_cases h : P.dictLimit ≤ c.regs.next
    · simp [h]
    · simp [h, Nat.lt_of_not_le h, eq_comm]
  · simp [eq_comm]

theorem encInsert_raised {seen : Nat} {b : Byte} : encInsert P seen b c = .raised e c' ↔
    c.regs.full = false ∧ P.dictLimit ≤ c.regs.next ∧ e = { err := .capacity } ∧ c' = c := by
  unfold encInsert
  cases c.regs.full
  · by_cases h : P.dictLimit ≤ c.regs.next
    · simp [h, eq_comm]
    · simp [h]
  · simp

/-- The checkpoint and the baseline are all that the monitor changes when it emits nothing. -/
abbrev EncCtx.withMonitor (c : EncCtx) (ckpt base : Option Nat) : EncCtx :=
  { c with regs := { c.regs with ckpt := ckpt, base := base } }

/-- `c` right after a ratio-triggered reset whose RESET_CODE left the BitField `bf`. -/
abbrev EncCtx.afterReset (c : EncCtx) (bf : BitField) : EncCtx :=
  { regs := { c.regs with
      pos := c.regs.pos + c.regs.width, width := 9, next := firstCode c.regs.blk, full := false, ckpt := none, base := none }
    dict := [], bf := bf }

theorem ratioReset_ok : ratioReset P c = .ok c' ↔
    ∃ bf, c.bf.setInt P c.regs.pos c.regs.width resetCode = .ok bf ∧ c' = c.afterReset bf := by
  unfold ratioReset
  rw [Flow.andThen_eq_ok]
  constructor
  · rintro ⟨a, ha, hb⟩
    obtain ⟨bf, hbf, rfl⟩ := emit_ok.mp ha
    exact ⟨bf, hbf, by cases hb; rfl⟩
  · rintro ⟨bf, hbf, rfl⟩
    exact ⟨_, emit_ok.mpr ⟨bf, hbf, rfl⟩, rfl⟩

theorem ratioReset_raised : ratioReset P c = .raised e c' ↔
    ∃ er, c.bf.setInt P c.regs.pos c.regs.width resetCode = .error er ∧ e = { err := er } ∧ c' = c := by
  unfold ratioReset
  rw [Flow.andThen_eq_raised]
  constructor
  · rintro (h | ⟨a, _, h⟩)
    · exact emit_raised.mp h
    · cases h
  · exact fun h => .inl (emit_raised.mpr h)

/-- What the monitor can do: keep what it has, set a checkpoint, measure a ratio, or reset. -/
theorem monitor_cases (P : Params) (c : EncCtx) :
    (monitor P c = .ok c) ∨
      (c.regs.ckpt = none ∧ monitor P c = .ok (c.withMonitor (some (c.regs.pos + checkpointBits)) c.regs.base)) ∨
      (∃ k, c.regs.ckpt = some k ∧ k < c.regs.pos ∧
        monitor P c =
          .ok (c.withMonitor (some (k + checkpointBits)) (some (c.regs.consumed / (c.regs.pos / 8))))) ∨
      monitor P c = ratioReset P c := by
  unfold monitor measureRatio
  split
  · next h => exact .inr (.inl ⟨h, rfl⟩)
  · next k h =>
    split
    · next hk =>
      split
      · exact .inl rfl
      · split
        · exact .inr (.inr (.inl ⟨k, h, hk, rfl⟩))
        · exact .inr (.inr (.inr rfl))
    · exact .inl rfl

theorem grow_ok {seen : Nat} {b : Byte} : grow P seen b c = .ok c' ↔
    let r := encWidthStep c.regs
    (r.full = false ∧ r.next < P.dictLimit ∧
        c' = { c with
          regs := { r with next := r.next + 1 }, dict := { code := r.next, pre := seen, byte := b } :: c.dict }) ∨
      (r.full = true ∧ r.blk = false ∧ c' = { c with regs := r }) ∨
      (r.full = true ∧ r.blk = true ∧ monitor P { c with regs := r } = .ok c') := by
  unfold grow
  rw [Flow.andThen_eq_ok]
  generalize encWidthStep c.regs = r
  simp only [encInsert_ok]
  have flip : ∀ x y : EncCtx, Flow.ok x = Flow.ok y ↔ y = x := fun x y => by rw [Flow.ok.injEq, eq_comm]
  cases hf : r.full <;> cases hb : r.blk <;> simp [hf, hb, flip, and_assoc]

theorem grow_raised {seen : Nat} {b : Byte} : grow P seen b c = .raised e c' ↔
    let r := encWidthStep c.regs
    (r.full = false ∧ P.dictLimit ≤ r.next ∧ e = { err := .capacity } ∧ c' = { c with regs := r }) ∨
      (r.full = true ∧ r.blk = true ∧ monitor P { c with regs := r } = .raised e c') := by
  unfold grow
  rw [Flow.andThen_eq_raised]
  generalize encWidthStep c.regs = r
  simp only [encInsert_ok, encInsert_raised]
  cases hf : r.full <;> cases hb : r.blk <;> simp [hf, hb]

/-! ### `ScanByte` -/

/-- The context in which a byte is scanned: e.in counted up. -/
abbrev EncCtx.counted (c : EncCtx) : EncCtx := { c with regs := { c.regs with consumed := c.regs.consumed + 1 } }
/-- e.seen set to a known sequence. -/
abbrev EncCtx.withSeen (c : EncCtx) (seen : Nat) : EncCtx := { c with regs := { c.regs with seen := some seen } }

/-- What a byte can do: start a sequence, extend one, or miss. -/
theorem scanByte_cases (P : Params) (b : Byte) (c : EncCtx) :
    (c.regs.seen = none ∧ scanByte P b c = .ok (c.counted.withSeen b.toNat)) ∨
      (∃ p code, c.regs.seen = some p ∧ dictLookup c.dict p b = some code ∧
        scanByte P b c = .ok (c.counted.withSeen code)) ∨
      ∃ p, c.regs.seen = some p ∧ dictLookup c.dict p b = none ∧ scanByte P b c = encMiss P p b c.counted := by
  unfold scanByte
  cases h : c.regs.seen with
  | none => exact .inl ⟨rfl, by simp [h]⟩
  | some p =>
    cases hl : dictLookup c.dict p b with
    | some code => exact .inr (.inl ⟨p, code, rfl, hl, by simp [h, hl]⟩)
    | none => exact .inr (.inr ⟨p, rfl, hl, by simp [h, hl, EncCtx.counted]⟩)

theorem encMiss_ok {seen : Nat} {b : Byte} : encMiss P seen b c = .ok c' ↔
    ∃ bf c₁, c.bf.setInt P c.regs.pos c.regs.width seen = .ok bf ∧
      grow P seen b { c with bf := bf, regs := { c.regs with pos := c.regs.pos + c.regs.width } } = .ok c₁ ∧
      c' = c₁.withSeen b.toNat := by
  unfold encMiss
  rw [Flow.andThen_eq_ok]
  constructor
  · rintro ⟨a, ha, hb⟩
    obtain ⟨a', ha', hg⟩ := Flow.andThen_eq_ok.mp ha
    obtain ⟨bf, hbf, rfl⟩ := emit_ok.mp ha'
    exact ⟨bf, a, hbf, hg, by cases hb; rfl⟩
  · rintro ⟨bf, c₁, hbf, hg, rfl⟩
    exact ⟨c₁, Flow.andThen_eq_ok.mpr ⟨_, emit_ok.mpr ⟨bf, hbf, rfl⟩, hg⟩, rfl⟩

theorem encMiss_raised {seen : Nat} {b : Byte} : encMiss P seen b c = .raised e c' ↔
    (∃ er, c.bf.setInt P c.regs.pos c.regs.width seen = .error er ∧ e = { err := er } ∧ c' = c) ∨
      ∃ bf, c.bf.setInt P c.regs.pos c.regs.width seen = .ok bf ∧
        grow P seen b { c with bf := bf, regs := { c.regs with pos := c.regs.pos + c.regs.width } } = .raised e c' := by
  unfold encMiss
  rw [Flow.andThen_eq_raised]
  constructor
  · rintro (h | ⟨a, _, h⟩)
    · rcases Flow.andThen_eq_raised.mp h with h | ⟨a, ha, hg⟩
      · exact .inl (emit_raised.mp h)
      · obtain ⟨bf, hbf, rfl⟩ := emit_ok.mp ha
        exact .inr ⟨bf, hbf, hg⟩
    · cases h
  · rintro (h | ⟨bf, hbf, hg⟩)
    · exact .inl (Flow.andThen_eq_raised.mpr (.inl (emit_raised.mpr h)))
    · exact .inl (Flow.andThen_eq_raised.mpr (.inr ⟨_, emit_ok.mpr ⟨bf, hbf, rfl⟩, hg⟩))

/-! ### The scan loop and `Flush` -/

theorem flush_cases (P : Params) (c : EncCtx) :
    (c.regs.seen = none ∧ flush P c = .ok c) ∨ ∃ p, c.regs.seen = some p ∧ flush P c = emit P p c := by
  unfold flush
  cases h : c.regs.seen with
  | none => exact .inl ⟨rfl, rfl⟩
  | some p => exact .inr ⟨p, rfl, rfl⟩

/-- What every byte keeps, the whole loop keeps. -/
theorem scanLoop_induct {P : Params} {data : Memory} (I : (n : Nat) → EncCtx → Prop)
    (step : ∀ n c c₁, I (n + 1) c → scanByte P (data.read .data c.regs.idx) c = .ok c₁ → I n (encAdvance c₁)) :
    ∀ n c c', I n c → scanLoop P data n c = .ok c' → I 0 c' := by
  intro n
  induction n with
  | zero => intro c c' h hs; cases hs; exact h
  | succ n ih =>
    intro c c' h hs
    simp only [scanLoop] at hs
    split at hs
    · next c₁ h₁ => exact ih _ _ (step n c c₁ h h₁) hs
    · cases hs

/-- Where the loop raises, a byte raised in a state that the loop reached. -/
theorem scanLoop_raised {P : Params} {data : Memory} (I : (n : Nat) → EncCtx → Prop)
    (step : ∀ n c c₁, I (n + 1) c → scanByte P (data.read .data c.regs.idx) c = .ok c₁ → I n (encAdvance c₁)) :
    ∀ n c e c', I n c → scanLoop P data n c = .raised e c' →
      ∃ m d, I (m + 1) d ∧ scanByte P (data.read .data d.regs.idx) d = .raised e c' := by
  intro n
  induction n with
  | zero => intro c e c' _ hs; cases hs
  | succ n ih =>
    intro c e c' h hs
    simp only [scanLoop] at hs
    split at hs
    · next c₁ h₁ => exact ih _ _ _ (step n c c₁ h h₁) hs
    · next h₁ => cases hs; exact ⟨n, c, h, h₁⟩

end Sys2Proof.Machine
end

