-- ==== Sys2Proof/Laws/PerInstr.lean ====
section
/-! SUPPORT. Statements made per instruction, one lemma for each constructor of `Instr`. -/
namespace Sys2Proof.Laws.OpcodeField

/-- The command word of an instruction carries its opcode in CW[3:0] (30_encoding.md R94), and a well-formed one uses no
bit outside the fields of its opcode (R91). -/
def Statement (i : Instr) : Prop :=
  match i with
  | .setbit => encode i = 0x00000001#32
  | .getbit => encode i = 0x00000002#32
  | .setint w => w < 32 → opField (encode i) = 3 ∧ widthField (encode i) = w ∧ encode i &&& ~~~0x00001F0F#32 = 0
  | .getint w => w < 32 → opField (encode i) = 4 ∧ widthField (encode i) = w ∧ encode i &&& ~~~0x00001F0F#32 = 0
  | .compress maxw blk =>
    maxw < 32 →
      opField (encode i) = 5 ∧ maxwField (encode i) = maxw ∧ blkField (encode i) = blk ∧
        encode i &&& ~~~0x011F000F#32 = 0
  | .decompress => encode i = 0x00000006#32

theorem setbit : Statement .setbit := rfl

theorem getbit : Statement .getbit := rfl

theorem setint (w : Nat) : Statement (.setint w) := by
  have all : ∀ w < 32, opField (encode (.setint w)) = 3 ∧ widthField (encode (.setint w)) = w ∧
      encode (.setint w) &&& ~~~0x00001F0F#32 = 0 := by decide
  exact all w

theorem getint (w : Nat) : Statement (.getint w) := by
  have all : ∀ w < 32, opField (encode (.getint w)) = 4 ∧ widthField (encode (.getint w)) = w ∧
      encode (.getint w) &&& ~~~0x00001F0F#32 = 0 := by decide
  exact all w

theorem compress (maxw : Nat) (blk : Bool) : Statement (.compress maxw blk) := by
  have all : ∀ b, ∀ m < 32, opField (encode (.compress m b)) = 5 ∧ maxwField (encode (.compress m b)) = m ∧
      blkField (encode (.compress m b)) = b ∧ encode (.compress m b) &&& ~~~0x011F000F#32 = 0 := by decide
  exact all blk maxw

theorem decompress : Statement .decompress := rfl

end Sys2Proof.Laws.OpcodeField
end

