-- ==== Sys2Proof/Laws/Step.lean ====
section
/-! SUPPORT. What a step can do: one lemma for each kind of input, and what any host access leaves alone while the block
is busy. -/
namespace Sys2Proof.Machine

theorem step_access {s : State} {a : Access} {rest : List Input} (h : s.inputs = .access a :: rest) :
    step s = .next (hostAccess a { s with inputs := rest }) := by simp [step, stepOf, h, takeInput]

theorem step_reset {s : State} {rest : List Input} (h : s.inputs = .reset :: rest) :
    step s = .next (platformReset { s with inputs := rest }) := by simp [step, stepOf, h, takeInput]

theorem step_engine {s : State} {rest : List Input} (h : s.inputs = .engine :: rest) :
    step s = engineTurn { s with inputs := rest } := by simp [step, stepOf, h, takeInput]

theorem step_empty {s : State} (h : s.inputs = []) : step s = engineTurn s := by simp [step, stepOf, h]

/-- What the engine's turn leaves. -/
def turnOf (s : State) : State :=
  if s.status.busy then
    match decode s.cmd with
    | .ok i => endOf i s
    | .error _ => s.failedWith .illegalCmd
  else s

theorem engineTurn_eq (s : State) : engineTurn s = .next (turnOf s) := by
  unfold engineTurn turnOf runCommand
  split
  · cases decode s.cmd with
    | ok i => exact exec_eq i s
    | error e => rfl
  · rfl

/-- A step always answers a next state, and which one. -/
theorem step_cases (s : State) :
    (s.inputs = [] ∧ step s = .next (turnOf s)) ∨
      ∃ i rest, s.inputs = i :: rest ∧
        ((∃ a, i = .access a ∧ step s = .next (hostAccess a { s with inputs := rest })) ∨
          (i = .engine ∧ step s = .next (turnOf { s with inputs := rest })) ∨
          (i = .reset ∧ step s = .next (platformReset { s with inputs := rest }))) := by
  cases h : s.inputs with
  | nil => exact .inl ⟨rfl, by rw [step_empty h, engineTurn_eq]⟩
  | cons i rest =>
    refine .inr ⟨i, rest, rfl, ?_⟩
    cases i with
    | access a => exact .inl ⟨a, rfl, step_access h⟩
    | engine => exact .inr (.inl ⟨rfl, by rw [step_engine h, engineTurn_eq]⟩)
    | reset => exact .inr (.inr ⟨rfl, step_reset h⟩)

/-- The engine's turn changes nothing on the host's side. -/
theorem turnOf_frame (s : State) :
    (turnOf s).status.busy = false ∧ (turnOf s).status.reject = s.status.reject ∧ (turnOf s).params = s.params ∧
      (turnOf s).cmd = s.cmd ∧ (turnOf s).arg0 = s.arg0 ∧ (turnOf s).arg1 = s.arg1 ∧
      (turnOf s).inputs = s.inputs ∧ (turnOf s).rdata = s.rdata ∧ (turnOf s).freeCount = s.freeCount := by
  unfold turnOf
  split
  · cases decode s.cmd with
    | ok i => exact endOf_frame i s
    | error e => exact ⟨rfl, rfl, rfl, rfl, rfl, rfl, rfl, rfl, rfl⟩
  · next h => exact ⟨by simpa using h, rfl, rfl, rfl, rfl, rfl, rfl, rfl, rfl⟩

/-- The engine's turn neither reads nor changes the host's side. -/
theorem turnOf_withHostSide (s : State) (r : Bool) (d : Word) (n : Nat) (is : List Input) :
    turnOf (s.withHostSide r d n is) = (turnOf s).withHostSide r d n is := by
  unfold turnOf
  by_cases hb : s.status.busy = true
  · rw [if_pos hb, if_pos hb]
    show (match decode s.cmd with
      | .ok i => endOf i (s.withHostSide r d n is)
      | .error _ => State.failedWith .illegalCmd (s.withHostSide r d n is)) = _
    cases decode s.cmd with
    | ok i => exact endOf_withHostSide i s r d n is
    | error e => rfl
  · rw [if_neg hb, if_neg hb]

@[simp] theorem writeUnlessBusy_busy {f : State → State} {s : State} (h : s.status.busy = true) :
    writeUnlessBusy f s = dropWrite s := if_pos h

@[simp] theorem writeUnlessBusy_idle {f : State → State} {s : State} (h : s.status.busy = false) :
    writeUnlessBusy f s = f s := if_neg (by simp [h])

/-- Everything a write inside the word of STATUS can do. -/
theorem writeRegIdle_status {offset : Nat} (width : Nat) (v : Word) (s : State) (h : inStatusWord offset = true) :
    writeRegIdle offset width v s =
      if offset = 4 ∧ width = 32 then { s with status := s.status.hostWrite v } else s := by
  have h4 : offset / 4 = 1 := by simpa [inStatusWord] using h
  unfold writeRegIdle
  by_cases ho : offset = 4
  · subst ho
    by_cases hw : width = 32 <;> simp [regAccessOk, regAt, writeReg, hw]
  · simp [regAccessOk, show ¬offset % 4 = 0 by omega, ho]

/-- While the block is busy a host write drops and sets REJECT, or, in the word of STATUS, has its W1C effect or none, or,
at or above offset 0x40, has none. -/
theorem hostAccess_write_busy (sp : Space) (offset width : Nat) (v : Word) {s : State} (hb : s.status.busy = true) :
    hostAccess (.write sp offset width v) s =
      if sp = .reg ∧ 0x40 ≤ offset then s
      else if sp = .reg ∧ offset / 4 = 1 then
        if offset = 4 ∧ width = 32 then { s with status := s.status.hostWrite v } else s
      else dropWrite s := by
  cases sp with
  | bfb => simp [hostAccess, hb]
  | datab => simp [hostAccess, hb]
  | reg =>
    by_cases h40 : 0x40 ≤ offset
    · simp [hostAccess, writeRegSpace, regSpaceSize, h40]
    · by_cases h4 : offset / 4 = 1
      · have hs : inStatusWord offset = true := by simpa [inStatusWord] using h4
        simp only [hostAccess, writeRegSpace, regSpaceSize, h40, hs, writeRegIdle_status width v s hs, h4, if_true,
          if_false, true_and]
      · simp [hostAccess, writeRegSpace, regSpaceSize, h40, inStatusWord, h4, hb]

/-- While the block is busy a host access changes REJECT, the word the host reads and the free-value counter only. -/
theorem hostAccess_busy (a : Access) {s : State} (hb : s.status.busy = true) :
    ∃ r d n, hostAccess a s = { s with status := { s.status with reject := r }, rdata := d, freeCount := n } := by
  have reads : ∀ d n, ∃ r d' n', { s with rdata := d, freeCount := n } =
      { s with status := { s.status with reject := r }, rdata := d', freeCount := n' } :=
    fun d n => ⟨s.status.reject, d, n, rfl⟩
  cases a with
  | read sp offset width =>
    cases sp with
    | reg =>
      show ∃ r d n, readRegSpace offset width s = _
      unfold readRegSpace
      repeat' split
      all_goals exact reads _ _
    | bfb =>
      show ∃ r d n, readWindow _ _ _ _ s = _
      unfold readWindow
      repeat' split
      all_goals exact reads _ _
    | datab =>
      show ∃ r d n, readWindow _ _ _ _ s = _
      unfold readWindow
      repeat' split
      all_goals exact reads _ _
  | write sp offset width v =>
    rw [hostAccess_write_busy sp offset width v hb]
    repeat' split
    all_goals exact ⟨_, s.rdata, s.freeCount, rfl⟩

end Sys2Proof.Machine
end

