-- ==== Sys2Proof/Tests/Slice0.lean ====
section
/-! SUPPORT. The model's own tests. Expected values are those of spec/95_test_vectors.md (the vector is named at each
test) or of the rule named; the `witness_` theorems show that the hypotheses of a statement can be met together, at the
boundaries of its clauses. -/
namespace Sys2Proof.Tests

open Sys2Proof Sys2Proof.Machine

/-! ### Small states -/

/-- A view of the state a step leads to. -/
def after {α : Type} (view : State → α) : Host.Outcome State Fault Refusal → Option α
  | .next s => some (view s)
  | .fault _ => none
  | .refused _ => none

def store (bs : List Byte) : Memory := { gen := 0, lost := [], cells := bs.zipIdx.map (fun x => (x.2, x.1)) }
def bytesOf (m : Memory) : List Byte := m.cells.map (fun c => c.2)

/-- LOADBF of `bs` with the order `o`, from reset. -/
def loadBF (o : BitOrder) (bs : List Byte) : State :=
  { State.reset with bf := { bytes := store bs, size := word bs.length, order := o } }
/-- LOADDATA of `bs`, from reset. -/
def loadData (bs : List Byte) : State := { State.reset with data := store bs, dataLen := word bs.length }
def args (a b : Word) (s : State) : State := { s with arg0 := a, arg1 := b }
/-- `s` right after the acceptance of command word `w`. -/
def accepted (w : Word) (s : State) : State := acceptCommand w s
/-- The next step of `s` runs command word `w`. -/
def runs (w : Nat) (s : State) : Host.Outcome State Fault Refusal := step (s.withFetchWord 32 w)
/-- `s` with the inputs `is`. -/
def given (is : List Input) (s : State) : State := { s with inputs := is }

/-- Parameters with the small stores of vectors B4, B13. -/
def smallBF : Params := { bfCap := 4, dataCap := 2 ^ 16, dictLimit := 2 ^ 16, codecOrder := .lsbFirst }
/-- The parameters with two bytes of DATA. -/
def smallDATA : Params := { bfCap := 2 ^ 16, dataCap := 2, dictLimit := 2 ^ 16, codecOrder := .lsbFirst }

/-! ### Well-formedness: what each check refuses -/

theorem test_wf_setint_31 : Instr.wf (.setint 31) = true := by decide
theorem test_wf_setint_32_refused : Instr.wf (.setint 32) = false := by decide
theorem test_wf_getint_32_refused : Instr.wf (.getint 32) = false := by decide
theorem test_wf_compress_32_refused : Instr.wf (.compress 32 true) = false := by decide

/-! ### Decoding: words written out from 30_encoding.md R90 to R95 -/

/-- OP = 1, all other bits 0. -/
theorem test_decode_setbit : decode 0b00000000000000000000000000000001#32 = .ok .setbit := by decide
/-- OP = 2. -/
theorem test_decode_getbit : decode 0b00000000000000000000000000000010#32 = .ok .getbit := by decide
/-- OP = 3, WIDTH = 21 in bits 12:8. -/
theorem test_decode_setint : decode 0b00000000000000000001010100000011#32 = .ok (.setint 21) := by decide
/-- OP = 4, WIDTH = 10 in bits 12:8. -/
theorem test_decode_getint : decode 0b00000000000000000000101000000100#32 = .ok (.getint 10) := by decide
/-- OP = 5, MAXW = 19 in bits 20:16, BLK = 1 in bit 24. -/
theorem test_decode_compress : decode 0b00000001000100110000000000000101#32 = .ok (.compress 19 true) := by decide
/-- OP = 6. -/
theorem test_decode_decompress : decode 0b00000000000000000000000000000110#32 = .ok .decompress := by decide
/-- 95 section 6: OP = 0 and OP = 7. -/
theorem test_decode_op_0 : decode 0x00000000#32 = .error .reservedOpcode := by decide
theorem test_decode_op_7 : decode 0x00000007#32 = .error .reservedOpcode := by decide
/-- SETBIT with a width bit, SETINT with bit 13, COMPRESS with bit 21. -/
theorem test_decode_setbit_bit8 : decode 0x00000101#32 = .error .reservedBits := by decide
theorem test_decode_setint_bit13 : decode 0x00002003#32 = .error .reservedBits := by decide
theorem test_decode_compress_bit21 : decode 0x00200005#32 = .error .reservedBits := by decide
theorem test_table_word : decodeTableWord 32 0x01100005 = some (.compress 16 true) := by decide

/-! ### One command from a small state -/

/-- Vector B1a. -/
theorem test_setbit_msb :
    after (fun t => (bytesOf t.bf.bytes, t.bf.size, t.result)) (runs 1 (args 10 1 State.reset)) =
      some ([0x00, 0x20], 2, 0) := by decide
/-- Vector B3. -/
theorem test_setbit_overflow :
    after (fun t => (t.status.word, t.bf.size)) (runs 1 (args 0 2 State.reset)) = some (0x30, 0) := by decide
/-- Vector B6. -/
theorem test_getbit_grows :
    after (fun t => (bytesOf t.bf.bytes, t.bf.size, t.result)) (runs 2 (args 20 0 State.reset)) =
      some ([0, 0, 0], 3, 0) := by decide
/-- Vector B7d. -/
theorem test_getbit_lsb : after (fun t => t.result) (runs 2 (args 7 0 (loadBF .lsbFirst [0x80]))) = some 1 := by decide
/-- Vector B11c. -/
theorem test_setint_msb :
    after (fun t => bytesOf t.bf.bytes) (runs 0x1F03 (args 3 0x40000001 State.reset)) =
      some [0x10, 0x00, 0x00, 0x00, 0x40] := by decide +kernel
/-- Vector B13a. -/
theorem test_setint_capacity :
    after (fun t => (t.status.word, t.bf.size)) (runs 0x0803 (args 25 0 { State.reset with params := smallBF })) =
      some (0x40, 0) := by decide
/-- Vector B14 at (7, 9). -/
theorem test_getint_lsb :
    after (fun t => (t.result, t.status.word)) (runs 0x0904 (args 7 0 (loadBF .lsbFirst [0xf5, 0x01]))) =
      some (0x003, 0) := by decide
/-- Vector B14 at (17, 0). -/
theorem test_getint_nodata :
    after (fun t => (t.result, t.status.word)) (runs 0x0004 (args 17 0 (loadBF .msbFirst [0xfa, 0x80]))) =
      some (0, 0x02) := by decide
/-- Vector E4. -/
theorem test_compress_block :
    after (fun t => (bytesOf t.bf.bytes, t.result, t.bf.order))
        (runs 0x01100005 (loadData [0x41, 0x42, 0x41, 0x42, 0x41, 0x42, 0x41])) =
      some ([0x1f, 0x9d, 0x90, 0x41, 0x84, 0x04, 0x1c, 0x08], 8, .lsbFirst) := by decide +kernel
/-- Vector E7b. -/
theorem test_compress_maxw_8 :
    after (fun t => (t.status.word, t.bf)) (runs 0x01080005 (loadBF .msbFirst [0x11, 0x22, 0x33])) =
      some (0x20, (loadBF .msbFirst [0x11, 0x22, 0x33]).bf) := by decide
/-- Vector D4. -/
theorem test_decompress_kwkwk :
    after (fun t => (bytesOf t.data, t.dataLen, t.result))
        (runs 6 (loadBF .lsbFirst [0x1f, 0x9d, 0x09, 0x41, 0x00, 0x06, 0x01])) =
      some ([0x41, 0x41, 0x41, 0x41], 4, 4) := by decide +kernel
/-- Vector D11. -/
theorem test_decompress_bad_code :
    after (fun t => (t.status.word, t.errCode, t.errExpect, t.errBitpos))
        (runs 6 (loadBF .lsbFirst [0x1f, 0x9d, 0x90, 0x41, 0x00, 0xb2, 0x04])) =
      some (0x70, 300, 257, 42) := by decide +kernel

/-- The reset memories are in canonical form. -/
theorem test_reset_memory_wf : State.reset.bf.bytes.wf ∧ State.reset.data.wf := by decide
/-- Reads of both windows below the capacity, of a byte that nothing has written: the same free byte twice. -/
theorem test_unwritten_byte_is_stable :
    after (fun t => t.rdata) (step (given [stRdb 0] State.reset)) =
      some ((Config.freeByte .bf 0 [] 0).setWidth 32) := by rfl


/-! ### Witnesses: states that meet the hypotheses of each statement -/

theorem witness_DecodeEncodeRoundTrip :
    Instr.wf (.compress 31 true) = true := by decide

theorem witness_DecodedWordEncodesBack :
    decode 0x00001F03#32 = .ok (.setint 31) := by decide

theorem witness_ReservedWordsRaiseIllegalCmd :
    (accepted 0x00000101 State.reset).status.busy = true ∧ reservedWord (accepted 0x00000101 State.reset).cmd ∧
      (given [.engine] (accepted 0x00000101 State.reset)).inputs = .engine :: [] := by
  refine ⟨rfl, .inr (.inr ⟨8, by decide, by decide, ?_⟩), rfl⟩
  unfold usesBit; decide

theorem witness_StepRunsLatchedCommand :
    (accepted 4 State.reset).status.busy = true ∧ decode (accepted 4 State.reset).cmd = .ok (.getint 0) ∧
      (accepted 4 State.reset).inputs = [] ∧ (given [.engine, .reset] (accepted 4 State.reset)).inputs = .engine :: [.reset] := ⟨rfl, by decide, rfl, rfl⟩

theorem witness_BitPositionMapping_msb :
    (State.reset.bf.order = .msbFirst → 2 = 7 - 13 % 8) ∧ (State.reset.bf.order = .lsbFirst → 2 = 13 % 8) := by decide

theorem witness_BitPositionMapping_lsb :
    ((loadBF .lsbFirst []).bf.order = .msbFirst → 5 = 7 - 13 % 8) ∧
      ((loadBF .lsbFirst []).bf.order = .lsbFirst → 5 = 13 % 8) := by decide

theorem witness_GrowthStep :
    smallBF.bfCap < 32 / 8 + 1 ∧ 31 / 8 + 1 ≤ smallBF.bfCap := by decide

theorem witness_SetbitMeaning :
    1 < (args 0 2 State.reset).arg1.toNat ∧
      ((args 0x80000 1 State.reset).arg1.toNat ≤ 1 ∧
        State.reset.params.bfCap ≤ (args 0x80000 1 State.reset).arg0.toNat / 8) ∧
      ((args 0x7FFFF 1 State.reset).arg1.toNat ≤ 1 ∧ State.reset.bf.size.toNat ≤ State.reset.params.bfCap ∧
        (args 0x7FFFF 1 State.reset).arg0.toNat / 8 < State.reset.params.bfCap) := by decide

theorem witness_GetbitMeaning :
    State.reset.params.bfCap ≤ (args 0x80000 0 State.reset).arg0.toNat / 8 ∧
      State.reset.bf.size.toNat ≤ State.reset.params.bfCap ∧
      (args 0x7FFFF 0 State.reset).arg0.toNat / 8 < State.reset.params.bfCap := by decide

theorem witness_SetintMeaning :
    2 ^ 9 ≤ (args 0 512 State.reset).arg1.toNat ∧
      ((args 0x7FFF8 511 State.reset).arg1.toNat < 2 ^ 9 ∧ 0 < 9 ∧
        State.reset.params.bfCap ≤ ((args 0x7FFF8 511 State.reset).arg0.toNat + 9 - 1) / 8) ∧
      ((args 0x7FFF7 511 State.reset).arg1.toNat < 2 ^ 9 ∧ State.reset.bf.size.toNat ≤ State.reset.params.bfCap ∧
        ((args 0x7FFF7 511 State.reset).arg0.toNat + 9 - 1) / 8 < State.reset.params.bfCap) ∧
      (args 0xFFFFFFFF 0 State.reset).arg1.toNat < 2 ^ 0 := by decide

theorem witness_GetintMeaning :
    9 ≤ 31 ∧ (8 * (loadBF .msbFirst [0xfa, 0x80]).bf.size.toNat < (args 8 0 State.reset).arg0.toNat + 9 ∧
        (loadBF .msbFirst [0xfa, 0x80]).bf.size.toNat ≤ State.reset.params.bfCap) ∧
      (args 7 0 State.reset).arg0.toNat + 9 ≤ 8 * (loadBF .msbFirst [0xfa, 0x80]).bf.size.toNat := by decide

theorem witness_GetintMeaning_over :
    State.reset.params.bfCap < ({ State.reset with bf := { State.reset.bf with size := 0x10001 } } : State).bf.size.toNat := by decide

theorem witness_BitLaw :
    (accepted 1 (args 10 1 State.reset)).accepted ∧
      ∃ t, exec .setbit (accepted 1 (args 10 1 State.reset)) = .next t ∧ t.status.err = .none ∧
        t.params = (accepted 1 (args 10 1 State.reset)).params ∧ t.arg0 = (accepted 1 (args 10 1 State.reset)).arg0 ∧
        t.bf.size.toNat ≤ t.params.bfCap := ⟨⟨rfl, rfl, rfl, rfl, rfl, rfl⟩, _, rfl, by decide, by decide, by decide, by decide⟩

/-- Both clauses: width 9, and width 0 at a position beyond the end. -/
theorem witness_IntegerLaw :
    9 ≤ 31 ∧ (accepted 0x0903 (args 3 0x1F5 State.reset)).accepted ∧
      ∃ t, exec (.setint 9) (accepted 0x0903 (args 3 0x1F5 State.reset)) = .next t ∧ t.status.err = .none ∧
        t.params = State.reset.params ∧ t.arg0 = 3 ∧ t.bf.size.toNat ≤ t.params.bfCap := ⟨by decide, ⟨rfl, rfl, rfl, rfl, rfl, rfl⟩, _, rfl, by decide, by decide, by decide, by decide⟩

theorem witness_IntegerLaw_width_0 :
    (accepted 3 (args 1000 0 State.reset)).accepted ∧
      ∃ t, exec (.setint 0) (accepted 3 (args 1000 0 State.reset)) = .next t ∧ t.status.err = .none ∧
        8 * t.bf.size.toNat < (args 1000 0 State.reset).arg0.toNat := ⟨⟨rfl, rfl, rfl, rfl, rfl, rfl⟩, _, rfl, by decide, by decide⟩

theorem witness_SizeLaw :
    (∀ c ∈ [BfCommand.mk .setbit 9 1, BfCommand.mk (.getint 4) 0 0], isBitField c.instr = true) ∧
      State.reset.bf.size = 0 ∧
      ∃ t, runsTo [BfCommand.mk .setbit 9 1, BfCommand.mk (.getint 4) 0 0] State.reset t := ⟨by decide, rfl, _, _, rfl, by decide, _, rfl, by decide, rfl⟩

theorem witness_GetbitInsideReadsOnly :
    (loadBF .msbFirst [0x80]).bf.size.toNat ≤ State.reset.params.bfCap ∧
      (args 7 0 (loadBF .msbFirst [0x80])).arg0.toNat < 8 * (loadBF .msbFirst [0x80]).bf.size.toNat := by decide

theorem witness_RegisterMap :
    State.reset.status.busy = false ∧
      (∃ t, step (given [stWr .status 0xF3] State.reset) = .next t ∧ t = State.reset) := ⟨rfl, _, rfl, by decide⟩

theorem witness_CommandAcceptance :
    (given [.access (.write .reg 0x08 32 6), .engine] State.reset).inputs =
        .access (.write .reg 0x08 32 6) :: .engine :: [] ∧
      State.reset.status.busy = false ∧ (accepted 6 State.reset).status.busy = true ∧
      decode 6 = .ok .decompress ∧ decode 7 = .error .reservedOpcode := by decide

theorem witness_BusyWritesDropped :
    (accepted 6 State.reset).status.busy = true ∧ (0x28 < 0x40 ∧ 0x28 / 4 ≠ 1) ∧ (0x3C < 0x40 ∧ 0x3C / 4 ≠ 1) ∧
      (0x03 / 4 ≠ 1 ∧ 0x08 / 4 ≠ 1) ∧ Space.bfb ≠ .reg ∧ Space.datab ≠ .reg ∧
      ∀ a ∈ [Access.write .reg 0x28 32 0, .write .reg 0x3C 32 0, .write .reg 0x08 16 6, .write .bfb 0x10000 8 0,
          .write .datab 0 32 0, .write .reg 0x04 32 4],
        (given [.access a] (accepted 6 State.reset)).inputs = .access a :: [] := by decide

/-- 93 V6: a write to a reserved offset while busy is dropped and sets REJECT. -/
theorem test_busy_reserved_offset_sets_reject :
    (hostAccess (.write .reg 0x2C 32 0) (accepted 6 State.reset)).status.reject = true := rfl

/-- R282, R67: a 16-bit write at STATUS while busy neither sets nor clears REJECT. -/
theorem test_busy_status_bad_width :
    hostAccess (.write .reg 0x04 16 4) (accepted 6 State.reset) = accepted 6 State.reset := rfl

theorem witness_BusyReads :
    (accepted 6 State.reset).status.busy = true ∧
      (given [stRd .status] (accepted 6 State.reset)).inputs = .access (.read .reg 0x04 32) :: [] ∧
      ∃ t, step (given [stRd .status] (accepted 6 State.reset)) = .next t := ⟨rfl, rfl, _, rfl⟩

theorem witness_RejectChangesOnlyByHost :
    (∃ t, step (given [stWr .ctrl 1] (accepted 6 State.reset)) = .next t ∧
        (given [stWr .ctrl 1] (accepted 6 State.reset)).status.reject = false ∧ t.status.reject = true) ∧
      ∃ t, step (given [stWr .status 4] { State.reset with status := { State.reset.status with reject := true } }) =
          .next t ∧ t.status.reject = false := ⟨⟨_, rfl, rfl, rfl⟩, _, rfl, by decide⟩

theorem witness_ByteWindows :
    State.reset.status.busy = false ∧ State.reset.params.bfCap ≤ 0x10000 ∧
      State.reset.params.dataCap ≤ 0x10000 ∧ 0xFFFF < State.reset.params.bfCap ∧ 0xFFFF < State.reset.params.dataCap := by decide

theorem witness_IllFormedAccesses :
    (Space.reg = .reg ∧ 0x3F < 0x40 ∧ (32 ≠ 32 ∨ 0x3F % 4 ≠ 0)) ∧ (Space.bfb ≠ .reg ∧ 32 ≠ 8) ∧
      State.reset.status.busy = false ∧ (accepted 6 State.reset).status.busy = true ∧
      (0x07 / 4 = 1 ∧ 0x03 / 4 ≠ 1 ∧ 0x08 / 4 ≠ 1) ∧
      ∀ a ∈ [Access.read .reg 0x3F 32, .write .reg 0x04 16 4, .write .reg 0x07 32 4, .write .reg 0x08 16 6,
          .write .bfb 0 32 1],
        (given [.access a] State.reset).inputs = .access a :: [] ∧
          (given [.access a] (accepted 6 State.reset)).inputs = .access a :: [] := by decide

theorem witness_ReservedOffsets :
    State.reset.status.busy = false ∧ (0x2C ≤ 0x2C ∧ 0x2C % 4 = 0) ∧
      (0x3C < 0x40 ∧ 0x3C % 4 = 0) ∧ 0x40 ≤ 0x40 := by decide

theorem witness_CommandFrame :
    ∀ i ∈ [Instr.setbit, .getbit, .setint 9, .getint 9, .compress 9 true, .decompress],
      (after (fun t => t.status.busy) (exec i (accepted (encode i) State.reset))).isSome = true := by decide +kernel

theorem witness_EveryCommandEnds :
    (accepted 6 State.reset).accepted ∧ (accepted 0x0904 State.reset).accepted ∧ (accepted 1 State.reset).accepted := ⟨⟨rfl, rfl, rfl, rfl, rfl, rfl⟩, ⟨rfl, rfl, rfl, rfl, rfl, rfl⟩, ⟨rfl, rfl, rfl, rfl, rfl, rfl⟩⟩

theorem witness_ErrorDiagnostics_bad_code :
    (accepted 6 (loadBF .lsbFirst [0x1f, 0x9d, 0x10, 0x00, 0x01])).accepted ∧
      after (fun t => t.status.err) (exec .decompress (accepted 6 (loadBF .lsbFirst [0x1f, 0x9d, 0x10, 0x00, 0x01]))) = some .streamBadCode := ⟨⟨rfl, rfl, rfl, rfl, rfl, rfl⟩, by decide +kernel⟩

theorem witness_ErrorDiagnostics_bad_magic :
    (accepted 6 (loadBF .lsbFirst [0x1f, 0x9e, 0x90])).accepted ∧
      after (fun t => t.status.err) (exec .decompress (accepted 6 (loadBF .lsbFirst [0x1f, 0x9e, 0x90]))) = some .streamBadMagic := ⟨⟨rfl, rfl, rfl, rfl, rfl, rfl⟩, by decide +kernel⟩

theorem witness_ErrorDiagnostics_other :
    (accepted 6 (State.reset)).accepted ∧
      after (fun t => t.status.err) (exec .decompress (accepted 6 (State.reset))) = some .streamTruncated := ⟨⟨rfl, rfl, rfl, rfl, rfl, rfl⟩, by decide +kernel⟩

theorem witness_ErrorsOfEachCommand :
    (accepted 0x00090005 State.reset).accepted ∧
      (after (fun t => t.status.err) (exec (.compress 9 false) (accepted 0x00090005 State.reset))).isSome = true := ⟨⟨rfl, rfl, rfl, rfl, rfl, rfl⟩, by decide +kernel⟩

theorem witness_NodataOnlyByGetint :
    (accepted 0x0904 State.reset).accepted ∧ State.reset.bf.size.toNat ≤ State.reset.params.bfCap ∧
      8 * State.reset.bf.size.toNat < State.reset.arg0.toNat + 9 ∧
      after (fun t => t.status.nodata) (exec (.getint 9) (accepted 0x0904 State.reset)) = some true := ⟨⟨rfl, rfl, rfl, rfl, rfl, rfl⟩, by decide, by decide, by decide⟩

theorem witness_PlatformResetAbandons :
    (given [.reset] (accepted 6 State.reset)).inputs = .reset :: [] := by decide

theorem witness_IdleKeepsState :
    State.reset.status.busy = false ∧ State.reset.inputs = [] ∧
      (given [.engine] State.reset).inputs = .engine :: [] := by decide

theorem witness_BusyAccessesDoNotDisturb :
    (accepted 6 State.reset).status.busy = true := by decide

theorem witness_ParametersNeverChange :
    ∃ t, step (given [.reset] State.reset) = .next t := ⟨_, rfl⟩

theorem witness_StepKeepsInvariant :
    ∃ s : State, s.bf.bytes.cells ≠ [] ∧ s.status.busy = true ∧ s.Inv ∧ ∃ t, step s = .next t := by
  refine ⟨accepted 6 (loadBF .lsbFirst [0x1f, 0x9d, 0x90]), by decide, by decide, ?_, _, rfl⟩
  constructor
  · decide
  · unfold Memory.within; decide
  · decide
  · unfold Memory.within; decide
  · exact ⟨true, trivial⟩
  · exact List.Pairwise.nil
  · intro e h; cases h
  · exact ⟨true, trivial⟩
  · intro e h; cases h
  · refine ⟨by decide, by decide, by decide, by decide, ?_, ?_, by decide, ?_, by decide⟩ <;> intro _ h <;> cases h
  · exact ⟨by decide, by decide, by decide, by decide, by decide, by decide, by decide⟩

theorem witness_CompressStartChecks :
    (8 < 9 ∨ 31 < 8) ∧ (32 < 9 ∨ 31 < 32) ∧
      State.reset.params.dataCap < ({ State.reset with dataLen := 0x10001 } : State).dataLen.toNat := by decide

theorem witness_CompressCompletes :
    9 ≤ 9 ∧ 31 ≤ 31 ∧ (loadData [0x41]).dataLen.toNat ≤ State.reset.params.dataCap ∧
      24 + 62 * (loadData [0x41]).dataLen.toNat ≤ 8 * State.reset.params.bfCap ∧
      2 ^ 16 ≤ State.reset.params.dictLimit ∧ 257 + (loadData [0x41]).dataLen.toNat ≤ State.reset.params.dictLimit := by decide

theorem witness_CompressOutputs :
    9 ≤ 9 ∧ 31 ≤ 31 ∧ ({ State.reset with dataLen := 0x10000 } : State).dataLen.toNat ≤ State.reset.params.dataCap := by decide

theorem witness_CompressEmptyInput :
    9 ≤ 9 ∧ 31 ≤ 31 ∧ State.reset.dataLen = 0 := by decide

/-- An encoder context that has stored one entry. -/
def encSample : EncCtx :=
  { regs := { EncRegs.initial with pos := 33, next := 257, seen := some 0x42, consumed := 2 }
    dict := [{ code := 256, pre := 0x41, byte := 0x42 }], bf := State.reset.bf }

/-- The dictionary about to become full at the maximum width in block mode. -/
def encFull : EncCtx :=
  { regs := { EncRegs.initial with pos := 2328, next := 512, blk := true, consumed := 32897, seen := some 0 }
    dict := [], bf := State.reset.bf }

/-- A full dictionary in non-block mode. -/
def encFrozen : EncCtx := { encFull with regs := { encFull.regs with full := true, blk := false } }

theorem witness_EncoderCodesFit :
    encSample.CodesFit ∧ (∃ c', scanByte Params.default 0x41 encSample = .ok c') ∧
      ∃ e c', flush smallBF encSample = .raised e c' := by
  refine ⟨⟨by decide, by decide, by decide, ?_⟩, ⟨_, rfl⟩, _, _, rfl⟩
  intro p h; cases h; decide

theorem witness_EncoderCodesFit_raise :
    ∃ e c', scanByte smallBF 0x41 encSample = .raised e c' := ⟨_, _, rfl⟩

theorem witness_EncoderWidthMonotone :
    encSample.regs.width ≤ encSample.regs.maxw ∧ 9 ≤ encSample.regs.maxw ∧
      ∃ c', scanByte Params.default 0x41 encSample = .ok c' := ⟨by decide, by decide, _, rfl⟩

theorem witness_GrowInserts :
    encSample.regs.full = false ∧
      (encSample.regs.next < 2 ^ encSample.regs.width ∧ encSample.regs.next < Params.default.dictLimit) ∧
      (2 ^ 9 ≤ 512 ∧ 9 < 10 ∧ 512 < Params.default.dictLimit) ∧ (2 ^ 9 ≤ 512 ∧ 9 ≤ 9 ∧ encSample.regs.blk = false) ∧
      ((65536 < 2 ^ 16 ∨ 16 < 17) ∧ Params.default.dictLimit ≤ 65536) ∧
      (encFrozen.regs.full = true ∧ encFrozen.regs.blk = false ∧ encFrozen.regs.maxw ≤ encFrozen.regs.width) := by decide

theorem witness_MonitorOutcomes :
    encFull.regs.blk = true ∧ 24 ≤ encFull.regs.pos ∧ 2 ^ encFull.regs.width ≤ encFull.regs.next ∧
      encFull.regs.width = encFull.regs.maxw ∧ encFull.regs.ckpt = none ∧ encFull.regs.full = false ∧
      (2328 ≤ 2328 ∧ 2327 < encFull.regs.pos ∧ 113 ≤ 32897 / (2328 / 8) ∧ 32897 / (2328 / 8) < 114) ∧
      9 ≤ encFull.regs.width ∧ (encFull.regs.pos + encFull.regs.width - 1) / 8 < Params.default.bfCap ∧
      smallBF.bfCap ≤ (encFull.regs.pos + encFull.regs.width - 1) / 8 := by decide

theorem witness_CompressDeterminism :
    (accepted 0x00090005 (loadData [0x41])).accepted ∧
      (accepted 0x00090005 { loadData [0x41] with bf := (loadBF .msbFirst [0xff]).bf }).accepted ∧
      9 ≤ 9 ∧ 9 ≤ 31 ∧ (loadData [0x41]).dataLen.toNat ≤ State.reset.params.dataCap ∧
      (∃ t, exec (.compress 9 false) (accepted 0x00090005 (loadData [0x41])) = .next t) ∧
      ∃ t, exec (.compress 9 false) (accepted 0x00090005 { loadData [0x41] with bf := (loadBF .msbFirst [0xff]).bf }) =
        .next t := ⟨⟨rfl, rfl, rfl, rfl, rfl, rfl⟩, ⟨rfl, rfl, rfl, rfl, rfl, rfl⟩, by decide, by decide, by decide, ⟨_, rfl⟩, _, rfl⟩

theorem witness_DecompressHeaderChecks :
    State.reset.params.bfCap < ({ State.reset with bf := { State.reset.bf with size := 0x10001 } } : State).bf.size.toNat ∧
      (loadBF .msbFirst [0x1f, 0x9d]).bf.size.toNat < 3 ∧
      (3 ≤ (loadBF .msbFirst [0x1e, 0x9d, 0x90]).bf.size.toNat ∧
        (loadBF .msbFirst [0x1e, 0x9d, 0x90]).bf.bytes.read .bf 0 ≠ 0x1F) ∧
      (3 ≤ (loadBF .msbFirst [0x1f, 0x9e, 0x90]).bf.size.toNat ∧
        (loadBF .msbFirst [0x1f, 0x9e, 0x90]).bf.bytes.read .bf 0 = 0x1F ∧
        (loadBF .msbFirst [0x1f, 0x9e, 0x90]).bf.bytes.read .bf 1 ≠ 0x9D) := by decide

theorem witness_DecompressOutputs :
    (loadBF .msbFirst [0x1f, 0x9d, 0x90]).bf.size.toNat ≤ State.reset.params.bfCap := by decide

theorem witness_DecompressHeaderOnly :
    (loadBF .msbFirst [0x1f, 0x9d, 0x90]).bf.size.toNat = 3 ∧
      (loadBF .msbFirst [0x1f, 0x9d, 0x90, 0]).bf.size.toNat = 4 ∧
      (loadBF .msbFirst [0x1f, 0x9d, 0x90, 0]).bf.bytes.read .bf 0 = 0x1F ∧
      (loadBF .msbFirst [0x1f, 0x9d, 0x90, 0]).bf.bytes.read .bf 1 = 0x9D := by decide

theorem witness_FirstCodeMustBeByte :
    (loadBF .msbFirst [0x1f, 0x9d, 0x90, 0x00, 0x01]).bf.size.toNat ≤ State.reset.params.bfCap ∧
      (loadBF .msbFirst [0x1f, 0x9d, 0x90, 0x00, 0x01]).bf.bytes.read .bf 0 = 0x1F ∧
      (loadBF .msbFirst [0x1f, 0x9d, 0x90, 0x00, 0x01]).bf.bytes.read .bf 1 = 0x9D ∧
      BitField.getInt { (loadBF .msbFirst [0x1f, 0x9d, 0x90, 0x00, 0x01]).bf with order := .lsbFirst } 24 9 = some 256 ∧
      256 ≤ 256 := by decide

/-- The codes 65 and 66 after a header with maxw 9. -/
abbrev literals : State := loadBF .lsbFirst [0x1f, 0x9d, 0x09, 0x41, 0x84, 0x00]

theorem witness_DecompressLiteralStream :
    literals.bf.size.toNat ≤ State.reset.params.bfCap ∧ literals.bf.bytes.read .bf 0 = 0x1F ∧
      literals.bf.bytes.read .bf 1 = 0x9D ∧ (literals.bf.bytes.read .bf 2).toNat % 32 ≤ 9 ∧
      24 + 9 * [(0x41 : Byte), 0x42].length ≤ 8 * literals.bf.size.toNat ∧
      8 * literals.bf.size.toNat < 24 + 9 * ([(0x41 : Byte), 0x42].length + 1) ∧
      [(0x41 : Byte), 0x42].length ≤ State.reset.params.dataCap ∧
      ∀ k (h : k < [(0x41 : Byte), 0x42].length),
        BitField.holdsInt { literals.bf with order := .lsbFirst } (24 + 9 * k) 9 ([(0x41 : Byte), 0x42][k]).toNat := by
  refine ⟨by decide, by decide, by decide, by decide, by decide, by decide, by decide, ?_⟩
  intro k h
  match k, h with
  | 0, _ => exact ⟨by decide +revert, by decide +revert⟩
  | 1, _ => exact ⟨by decide +revert, by decide +revert⟩

/-- A decoder context in block mode with one entry, its previous code the byte 0x42. -/
def decSample (pos : Nat) : DecCtx :=
  { regs := { DecRegs.initial with pos := pos, next := 258, maxw := 9, blk := true, seen := 0x42, out := 2 }
    dict := [{ code := 257, pre := 0x41, byte := 0x42 }], data := store [0x41, 0x42] }

theorem witness_ResetCodeStep :
    (decSample 0).regs.blk = true ∧ codeAt (loadBF .lsbFirst [0x00, 0x01]).bf (decSample 0) = some 256 ∧
      (loadBF .lsbFirst [0x00, 0x01]).bf.getInt 9 9 = none ∧
      codeAt (loadBF .lsbFirst [0x00, 0x83, 0x00]).bf (decSample 0) = some 256 ∧
      (loadBF .lsbFirst [0x00, 0x83, 0x00]).bf.getInt 9 9 = some (0x41 : Byte).toNat ∧
      (decSample 0).regs.out < Params.default.dataCap ∧
      (loadBF .lsbFirst [0x00, 0x01, 0x02]).bf.getInt 9 9 = some 256 ∧
      smallDATA.dataCap ≤ (decSample 0).regs.out := by decide

theorem witness_CodeExpansion :
    (decSample 0).Mirrors ∧ codeAt (loadBF .lsbFirst [0x01, 0x01]).bf (decSample 0) = some 257 ∧
      ¬((decSample 0).regs.blk = true ∧ 257 = 256) ∧
      (decSample 0).regs.next < Params.default.dictLimit ∧
      knownCodeIn (firstCode true) (decSample 0).dict 257 ∧
      codeAt (loadBF .lsbFirst [0x02, 0x01]).bf (decSample 0) = some 258 ∧ 258 = (decSample 0).regs.next ∧
      (decSample 0).regs.out + 2 ≤ Params.default.dataCap ∧ smallDATA.dataCap < (decSample 0).regs.out + 2 ∧
      codeAt (loadBF .lsbFirst [0x03, 0x01]).bf (decSample 0) = some 259 ∧
      ¬knownCodeIn (firstCode true) (decSample 0).dict 259 ∧ 259 ≠ (decSample 0).regs.next := by
  refine ⟨⟨⟨rfl, .inl (by decide), trivial⟩, rfl, by decide, by decide, by decide, .inl (by decide)⟩, by decide, by decide,
    by decide, .inr (by decide), by decide, by decide, by decide, by decide, by decide, ?_, by decide⟩
  unfold knownCodeIn; decide

/-- The entries of the codes 256 to 256 + n - 1, each after the byte 0. -/
def zeroEntries : (n : Nat) → List Entry
  | 0 => []
  | n + 1 => { code := 256 + n, pre := 0, byte := 0 } :: zeroEntries n

theorem zeroEntries_length (n : Nat) : (zeroEntries n).length = n := by
  induction n with
  | zero => rfl
  | succ n ih => simp [zeroEntries, ih]

theorem zeroEntries_form (n : Nat) : dictFrom 256 (zeroEntries n) := by
  induction n with
  | zero => trivial
  | succ n ih => exact ⟨by simp [zeroEntries_length], .inl (by simp), ih⟩

/-- A decoder context at width 10 whose dictionary reaches a DICT_LIMIT of 512. -/
def decAtLimit : DecCtx :=
  { regs := { DecRegs.initial with width := 10, maxw := 10, wtop := 10, next := 512 }
    dict := zeroEntries 256, data := store [] }

theorem witness_CodeExpansion_dictionary :
    decAtLimit.Mirrors ∧ codeAt (loadBF .lsbFirst [0x41, 0x00]).bf decAtLimit = some 0x41 ∧
      knownCodeIn 256 decAtLimit.dict 0x41 ∧
      (decAtLimit.regs.next < 2 ^ decAtLimit.regs.wtop ∧
        ({ Params.default with dictLimit := 512, dictLimit_legal := by decide } : Params).dictLimit ≤
          decAtLimit.regs.next) :=
  ⟨⟨zeroEntries_form 256, by rw [decAtLimit, zeroEntries_length]; rfl, by decide, by decide, by decide, .inl (by decide)⟩,
    by decide, .inl (by decide), by decide, by decide⟩

theorem witness_StringsFollowEntries :
    dictFrom (firstCode true) (decSample 0).dict := ⟨rfl, .inl (by decide), trivial⟩

theorem witness_DecoderEntriesComplete :
    9 ≤ (decSample 0).regs.wtop ∧ (decSample 0).regs.maxw ≤ (decSample 0).regs.wtop ∧ (decSample 0).Mirrors ∧
      (∃ c', firstCodeStep Params.default (loadBF .lsbFirst [0x41, 0x00]).bf (decReset (decSample 0)) = .go c') ∧
      ∃ c', mainStep Params.default (loadBF .lsbFirst [0x41, 0x00]).bf (decSample 0) = .go c' := ⟨by decide, by decide, ⟨⟨rfl, .inl (by decide), trivial⟩, rfl, by decide, by decide, by decide, .inl (by decide)⟩, ⟨_, rfl⟩, _, rfl⟩

theorem witness_DecompressTerminates :
    headerBits ≤ (decSample 24).regs.pos ∧ 9 ≤ (decSample 24).regs.width ∧ codeReads literals.bf ≤ 3 := by decide

theorem witness_CompressThenDecompressRestores :
    (accepted 0x00090005 (loadData [0x41])).accepted ∧
      ∃ t, exec (.compress 9 false) (accepted 0x00090005 (loadData [0x41])) = .next t ∧ t.status.err = .none ∧
        (accepted 6 t).bf = t.bf ∧ (accepted 6 t).params = t.params ∧ (accepted 6 t).accepted := ⟨⟨rfl, rfl, rfl, rfl, rfl, rfl⟩, _, rfl, by decide +kernel, rfl, rfl, ⟨rfl, rfl, rfl, rfl, rfl, rfl⟩⟩

theorem witness_WaitEndsIdle :
    (accepted 6 State.reset).status.busy = true := by decide

theorem witness_ScanByteMeaning :
    ({ encSample with regs := { encSample.regs with seen := none } } : EncCtx).regs.seen = none ∧
      (encSample.regs.seen = some 0x42 ∧ dictUnique encSample.dict ∧
        ∀ e ∈ encSample.dict, ¬(e.pre = 0x42 ∧ e.byte = 0x41)) ∧
      ({ code := 256, pre := 0x41, byte := 0x42 } : Entry) ∈ encSample.dict ∧
      9 ≤ encSample.regs.width ∧ 0x42 < 2 ^ encSample.regs.width ∧
      (encSample.regs.pos + encSample.regs.width - 1) / 8 < Params.default.bfCap ∧
      smallBF.bfCap ≤ (encSample.regs.pos + encSample.regs.width - 1) / 8 := by
  refine ⟨rfl, ⟨rfl, ?_, by decide⟩, by decide, by decide, by decide, by decide, by decide⟩
  unfold dictUnique; decide

/-- Vector E11c; 93 U2: the byte of BF that the failed COMPRESS did not write stays. -/
theorem test_compress_failed_keeps_unwritten :
    after (fun t => (t.status.word, t.bf.size, t.bf.bytes.read .bf 3))
        (runs 0x00090005
          { loadData [0x41] with params := smallBF, bf := (loadBF .msbFirst [0x11, 0x22, 0x33, 0x44]).bf }) =
      some (0x40, 0, 0x44) := by decide +kernel

theorem witness_FlushEmitsSeen :
    encSample.regs.seen = some 0x42 ∧ 9 ≤ encSample.regs.width ∧ 0x42 < 2 ^ encSample.regs.width ∧
      (encSample.regs.pos + encSample.regs.width - 1) / 8 < Params.default.bfCap ∧
      smallBF.bfCap ≤ (encSample.regs.pos + encSample.regs.width - 1) / 8 ∧ EncRegs.initial.seen = none := by decide

theorem witness_CompressOneByte :
    9 ≤ 9 ∧ 31 ≤ 31 ∧ (loadData [0x41]).dataLen = 1 ∧ 5 ≤ State.reset.params.bfCap ∧ smallBF.bfCap < 5 := by decide

end Sys2Proof.Tests
end

section
/-! SUPPORT. Idle host accesses of a register, named by the register and not by its offset. -/
namespace Sys2Proof.Machine

@[simp] theorem regAt_regOffset (r : Reg) : regAt (regOffset r) = some r := by cases r <;> rfl

theorem regOffset_lt_regSpaceSize (r : Reg) : regOffset r < regSpaceSize := by cases r <;> decide

@[simp] theorem regAccessOk_regOffset (r : Reg) : regAccessOk (regOffset r) 32 = true := by cases r <;> rfl

theorem writeRegIdle_regOffset (r : Reg) (v : Word) (s : State) :
    writeRegIdle (regOffset r) 32 v s = writeReg r v s := by simp [writeRegIdle]

/-- 10_state.md R23: an idle word write at a register's offset is a write of that register. -/
theorem hostAccess_write_reg_idle (r : Reg) (v : Word) {s : State} (h : s.status.busy = false) :
    hostAccess (.write .reg (regOffset r) 32 v) s = writeReg r v s := by
  have hlt : ¬regSpaceSize ≤ regOffset r := Nat.not_le.mpr (regOffset_lt_regSpaceSize r)
  simp only [hostAccess, writeRegSpace, if_neg hlt, writeUnlessBusy_idle h, writeRegIdle_regOffset, ite_self]

/-- 10_state.md R23: an idle word read at a register's offset answers that register. -/
theorem hostAccess_read_reg_idle (r : Reg) {s : State} (h : s.status.busy = false) :
    hostAccess (.read .reg (regOffset r) 32) s = answer (readReg r s) s := by
  have hlt : ¬regSpaceSize ≤ regOffset r := Nat.not_le.mpr (regOffset_lt_regSpaceSize r)
  simp [hostAccess, readRegSpace, hlt, h]

end Sys2Proof.Machine
end

section
/-! PROOF of O18: what a CMD write does idle and busy, and what the engine's next turn makes of the latched word. -/
namespace Sys2Proof.Machine

/-- The engine's turn in a busy state whose latched word is a command runs that command. -/
theorem step_engine_decoded {s : State} {rest : List Input} {i : Instr} (h : s.inputs = .engine :: rest)
    (hb : s.status.busy = true) (hi : decode s.cmd = .ok i) : step s = exec i { s with inputs := rest } := by
  rw [step_engine h]
  simp [engineTurn, runCommand, hb, hi]

/-- The engine's turn in a busy state whose latched word is no command ends with ILLEGAL_CMD (30_encoding.md R95). -/
theorem step_engine_undecoded {s : State} {rest : List Input} {e : DecodeError} (h : s.inputs = .engine :: rest)
    (hb : s.status.busy = true) (he : decode s.cmd = .error e) :
    step s = .next (State.failedWith .illegalCmd { s with inputs := rest }) := by
  rw [step_engine h]
  simp [engineTurn, runCommand, hb, he, raiseError_eq_failedWith]

/-- 10_state.md R30: an idle CMD write is accepted, whatever inputs follow. -/
theorem step_write_cmd_idle {s : State} {w : Word} {rest : List Input} (hb : s.status.busy = false)
    (h : s.inputs = .access (.write .reg 0x08 32 w) :: rest) :
    step s = .next (acceptCommand w { s with inputs := rest }) := by
  rw [step_access h]
  exact congrArg Host.Outcome.next (hostAccess_write_reg_idle .cmd w hb)

/-- 10_state.md R30: a busy CMD write is dropped, whatever inputs follow. -/
theorem step_write_cmd_busy {s : State} {w : Word} {rest : List Input} (hb : s.status.busy = true)
    (h : s.inputs = .access (.write .reg 0x08 32 w) :: rest) :
    step s = .next (dropWrite { s with inputs := rest }) := by
  rw [step_access h, hostAccess_write_busy (s := { s with inputs := rest }) .reg 0x08 32 w hb]
  simp

/-- CMD reads 0 (10_state.md R30), whatever inputs follow. -/
theorem step_read_cmd_idle {s : State} {rest : List Input} (hb : s.status.busy = false)
    (h : s.inputs = .access (.read .reg 0x08 32) :: rest) :
    step s = .next (answer 0 { s with inputs := rest }) := by
  rw [step_access h]
  exact congrArg Host.Outcome.next (hostAccess_read_reg_idle .cmd hb)

/-- Settles O18: acceptance leaves the block busy with `w` latched, so the engine's turn that follows finds what `w`
decodes to. -/
theorem commandAcceptance : Obligations.CommandAcceptance := by
  intro s w rest h
  refine ⟨fun idle => ?accepted, fun busy => step_write_cmd_busy busy h, fun idle => ?read⟩
  case accepted =>
    refine ⟨_, step_write_cmd_idle idle h, rfl, fun i hi => ?_, fun e he => ?_⟩
    · exact step_engine_decoded rfl rfl hi
    · exact step_engine_undecoded rfl rfl he
  case read =>
    exact step_read_cmd_idle (s := { s with inputs := .access (.read .reg 0x08 32) :: rest }) idle rfl

end Sys2Proof.Machine
end

section
/-! PROOF of O6: which bit of which byte a bit position names, and what a write of one bit leaves of every byte. -/
namespace Sys2Proof.Machine

/-- 20_memory.md R62: a `k` that meets the rule's two cases is the model's bit index. -/
theorem eq_bitIndex {order : BitOrder} {p k : Nat} (hm : order = .msbFirst → k = 7 - p % 8)
    (hl : order = .lsbFirst → k = p % 8) : k = bitIndex order p := by
  cases order
  case msbFirst => exact hm rfl
  case lsbFirst => exact hl rfl

/-- The bits of every byte of the BitField after a write of one bit position (20_memory.md R62). -/
theorem BitField.putBit_read_getLsbD (bf : BitField) (p : Nat) (v : Bool) (i j : Nat) :
    ((bf.putBit p v).bytes.read .bf i).getLsbD j =
      if i = p / 8 ∧ j = bitIndex bf.order p then v else (bf.bytes.read .bf i).getLsbD j := by
  by_cases hi : i = p / 8
  · subst hi
    simp [BitField.putBit, setByteBit_getLsbD _ (bitIndex_lt _ _)]
  · rw [BitField.putBit_read bf p v (Ne.symm hi), if_neg (hi ·.1)]

/-- Settles O6: `k` is the model's bit index in both orders, so the read is the definition of `bit` and the write is
the bit law of `putBit`. -/
theorem bitPositionMapping : Obligations.BitPositionMapping := by
  intro bf p k v hm hl
  obtain rfl := eq_bitIndex hm hl
  exact ⟨rfl, bf.putBit_size p v, bf.putBit_order p v, fun i j _ => bf.putBit_read_getLsbD p v i j⟩

end Sys2Proof.Machine
end

section
/-! PROOF of O3: which words the decoder rejects, bit by bit of the word (30_encoding.md R91, R93, R95). -/
namespace Sys2Proof.Machine

/-- CW[3:0] as a number (30_encoding.md R90). -/
theorem opField_eq_mod (w : Word) : opField w = w.toNat % 16 := by
  simp [opField, BitVec.extractLsb'_toNat]

/-- The opcodes without a row in the opcode map (30_encoding.md R94). -/
theorem usedMask_eq_none_iff : ∀ op, usedMask op = none ↔ op = 0 ∨ 7 ≤ op
  | 0 | 1 | 2 | 3 | 4 | 5 | 6 => by simp [usedMask]
  | n + 7 => by simp [usedMask]

/-- The opcodes with a row in the opcode map, and the mask of the fields each uses (30_encoding.md R91). -/
theorem usedMask_eq_some_iff (used : Word) : ∀ op, usedMask op = some used ↔
    (op = 1 ∨ op = 2 ∨ op = 6) ∧ used = 0x0000000F#32 ∨ (op = 3 ∨ op = 4) ∧ used = 0x00001F0F#32 ∨
      op = 5 ∧ used = 0x011F000F#32
  | 0 | 1 | 2 | 3 | 4 | 5 | 6 => by simp [usedMask, eq_comm]
  | n + 7 => by simp [usedMask]

/-- The bits of an opcode's mask are those of the fields it uses (30_encoding.md R91). -/
theorem usedMask_getLsbD {op : Nat} {used : Word} (h : usedMask op = some used) :
    ∀ k < 32, used.getLsbD k = true ↔ usesBit op k := by
  unfold usesBit
  obtain ⟨rfl | rfl | rfl, rfl⟩ | ⟨rfl | rfl, rfl⟩ | ⟨rfl, rfl⟩ := (usedMask_eq_some_iff used op).mp h
  all_goals decide

/-- The opcode map answers a command for every opcode that has a mask. -/
theorem opcodeMap_of_usedMask {w used : Word} (h : usedMask (opField w) = some used) : ∃ i, opcodeMap w = .ok i := by
  unfold opcodeMap
  obtain ⟨h | h | h, -⟩ | ⟨h | h, -⟩ | ⟨h, -⟩ := (usedMask_eq_some_iff used _).mp h
  all_goals simp [h]

/-- A word has a non-zero bit outside a mask exactly when masking those bits out does not leave 0. -/
theorem and_not_ne_zero_iff (w used : Word) :
    w &&& ~~~used ≠ 0 ↔ ∃ k, k < 32 ∧ w.getLsbD k = true ∧ ¬used.getLsbD k = true := by
  rw [Ne, BitVec.eq_of_getLsbD_eq_iff]
  simp +contextual [-BitVec.getLsbD_eq_getElem]

/-- Which words the decoder rejects, in its own terms: no mask, or a non-zero bit outside it. -/
theorem decode_error_iff (w : Word) :
    (∃ e, decode w = .error e) ↔ ∀ used, usedMask (opField w) = some used → w &&& ~~~used ≠ 0 := by
  unfold decode
  cases h : usedMask (opField w) with
  | none => simp
  | some used =>
    obtain ⟨i, hi⟩ := opcodeMap_of_usedMask h
    by_cases hz : w &&& ~~~used = 0#32 <;> simp [hz, hi]

/-- 30_encoding.md R95: exactly the reserved words have no command. -/
theorem decode_error_iff_reservedWord (w : Word) : (∃ e, decode w = .error e) ↔ reservedWord w := by
  rw [decode_error_iff, reservedWord, ← opField_eq_mod, ← or_assoc, ← usedMask_eq_none_iff]
  cases h : usedMask (opField w) with
  | none => simp
  | some used =>
    have bits := usedMask_getLsbD h
    simp only [Option.some.injEq, forall_eq', reduceCtorEq, false_or, and_not_ne_zero_iff]
    exact exists_congr fun k => and_congr_right fun hk => and_congr_right fun _ => not_congr (bits k hk)

/-- Settles O3: a reserved word decodes to an error, and the engine's turn on a word that does so raises ILLEGAL_CMD. -/
theorem reservedWordsRaiseIllegalCmd : Obligations.ReservedWordsRaiseIllegalCmd := by
  refine ⟨decode_error_iff_reservedWord, fun s rest busy reserved h => ?_⟩
  obtain ⟨e, he⟩ := (decode_error_iff_reservedWord s.cmd).mpr reserved
  exact step_engine_undecoded h busy he

end Sys2Proof.Machine
end

section
/-! SUPPORT. The equations of the BitField commands, one for each way each command ends, in the terms of the statements
(40_bitfield.md R133 to R142). -/
namespace Sys2Proof.Machine

theorem bfOverCapacity_of_lt {s : State} (h : s.params.bfCap < s.bf.size.toNat) : s.bfOverCapacity = true :=
  (bfOverCapacity_iff s).mpr h

theorem bfOverCapacity_of_le {s : State} (h : s.bf.size.toNat ≤ s.params.bfCap) : s.bfOverCapacity = false :=
  decide_eq_false (Nat.not_lt.mpr h)

/-- A command answers the state its end leaves. -/
theorem exec_eq_next {i : Instr} {s t : State} (h : endOf i s = t) : exec i s = .next t := by rw [exec_eq, h]

/-! ### GETBIT -/

/-- The bit a growth step was for: 0 where the step added it (40_bitfield.md R135). -/
theorem BitField.grownFor_bit_self {bf bf' : BitField} {p : Nat} (h : bf.grownFor bf' p) :
    bf'.bit p = (decide (p < 8 * bf.size.toNat) && bf.bit p) := by
  rw [BitField.grownFor_bit h]
  by_cases inside : p < 8 * bf.size.toNat
  · rw [if_neg (by omega), decide_eq_true inside, Bool.true_and]
  · rw [if_pos (by omega), decide_eq_false inside, Bool.false_and]

theorem getbitEnd_capacity {s : State} (h : s.params.bfCap < s.bf.size.toNat ∨ s.params.bfCap ≤ s.pos / 8) :
    getbitEnd s = s.failedWith .capacity := by
  by_cases tooLarge : s.params.bfCap < s.bf.size.toNat
  · rw [getbitEnd, bfOverCapacity_of_lt tooLarge]
    rfl
  · have beyond := BitField.ensureBit_error (bf := s.bf) (h.resolve_left tooLarge)
    simp [getbitEnd, tooLarge, BitField.getBitI, beyond, raiseError_eq_failedWith]

theorem getbitEnd_ok {s : State} {bf' : BitField} (hs : s.bf.size.toNat ≤ s.params.bfCap)
    (h : s.bf.ensureBit s.params s.pos = .ok bf') :
    getbitEnd s = State.finishedWith (word (bf'.bit s.pos).toNat) { s with bf := bf' } := by
  simp [getbitEnd, bfOverCapacity_of_le hs, BitField.getBitI, h, completeWith_eq_finishedWith]

/-! ### SETINT and SETBIT -/

theorem setintEnd_overflow {w : Nat} {s : State} (h : 2 ^ w ≤ s.value) :
    setintEnd w s = s.failedWith .configOverflow := by
  rw [setintEnd, if_pos h, raiseError_eq_failedWith]

theorem setintEnd_capacity {w : Nat} {s : State} (hv : s.value < 2 ^ w)
    (h : s.params.bfCap < s.bf.size.toNat ∨ (0 < w ∧ s.params.bfCap ≤ (s.pos + w - 1) / 8)) :
    setintEnd w s = s.failedWith .capacity := by
  rw [setintEnd, if_neg (Nat.not_le.mpr hv)]
  by_cases tooLarge : s.params.bfCap < s.bf.size.toNat
  · rw [bfOverCapacity_of_lt tooLarge]
    rfl
  · obtain ⟨hw, hc⟩ := h.resolve_left tooLarge
    simp [tooLarge, BitField.setInt_capacity hv hw hc, raiseError_eq_failedWith]

theorem setintEnd_ok {w : Nat} {s : State} {bf' : BitField} (hv : s.value < 2 ^ w)
    (hs : s.bf.size.toNat ≤ s.params.bfCap) (h : s.bf.setInt s.params s.pos w s.value = .ok bf') :
    setintEnd w s = State.finishedWith 0 { s with bf := bf' } := by
  rw [setintEnd, if_neg (Nat.not_le.mpr hv), bfOverCapacity_of_le hs, h]
  rfl

/-- 40_bitfield.md R132, R137: `SetInt` of width 1 writes the one bit that `SetBitI` writes, in both orders. -/
theorem BitField.setInt_one (P : Params) (bf : BitField) (p : Nat) {v : Nat} (hv : v ≤ 1) :
    bf.setInt P p 1 v = bf.setBitI P p (decide (v = 1)) := by
  have bit : v.testBit (valueBit bf.order 1 0) = decide (v = 1) := by
    have position : valueBit bf.order 1 0 = 0 := by cases bf.order <;> rfl
    rw [position, Nat.testBit_zero, Nat.mod_eq_of_lt (by omega)]
  by_cases hc : P.bfCap ≤ p / 8
  · rw [BitField.setInt_capacity (by omega) Nat.one_pos hc, BitField.setBitI_error bf _ hc]
  · rw [BitField.setInt, if_neg (by omega), if_neg (hc ·.2)]
    simp [BitField.writeBits, bit]

/-- 40_bitfield.md R133, R138: SETBIT ends as SETINT of width 1 does, errors included. -/
theorem setbitEnd_eq_setintEnd_one (s : State) : setbitEnd s = setintEnd 1 s := by
  by_cases hv : 1 < s.value
  · rw [setintEnd_overflow hv, setbitEnd, if_pos hv, raiseError_eq_failedWith]
  · have fits : ¬2 ^ 1 ≤ s.value := hv
    rw [setbitEnd, setintEnd, if_neg hv, if_neg fits, BitField.setInt_one _ _ _ (Nat.le_of_not_lt hv)]

/-! ### GETINT -/

theorem getintEnd_capacity (w : Nat) {s : State} (h : s.params.bfCap < s.bf.size.toNat) :
    getintEnd w s = s.failedWith .capacity := by
  rw [getintEnd, bfOverCapacity_of_lt h]
  rfl

theorem getintEnd_nodata {w : Nat} {s : State} (hs : s.bf.size.toNat ≤ s.params.bfCap)
    (h : s.bf.getInt s.pos w = none) :
    getintEnd w s = State.finishedWith 0 { s with status := { s.status with nodata := true } } := by
  rw [getintEnd, bfOverCapacity_of_le hs, h]
  rfl

theorem getintEnd_ok {w v : Nat} {s : State} (hs : s.bf.size.toNat ≤ s.params.bfCap)
    (h : s.bf.getInt s.pos w = some v) : getintEnd w s = s.finishedWith (word v) := by
  rw [getintEnd, bfOverCapacity_of_le hs, h]
  rfl

/-- An integer of a width that a command word can hold fits a register (00_scope.md R18). -/
theorem BitField.holdsInt_word {bf : BitField} {p w v : Nat} (hw : w ≤ 31) (h : bf.holdsInt p w v) :
    bf.holdsInt p w (word v).toNat := by
  have fits : v < 2 ^ 32 := Nat.lt_of_lt_of_le h.1 (Nat.pow_le_pow_right Nat.two_pos (by omega))
  rwa [word, BitVec.toNat_ofNat, Nat.mod_eq_of_lt fits]

end Sys2Proof.Machine
end

section
/-! PROOF of O7 to O11: the growth step and the four BitField commands, from the laws of the BitField primitives and the
equations of the command ends. -/
namespace Sys2Proof.Machine

/-- Settles O7: the two cases of the growth step, `p / 8 + 1 ≤ BF_CAP` being `p / 8 < BF_CAP`. -/
theorem growthStep : Obligations.GrowthStep := fun _ _ _ =>
  ⟨fun beyond => BitField.ensureBit_error (Nat.le_of_lt_succ beyond), fun fits => BitField.ensureBit_ok fits⟩

/-- Settles O9: GETBIT answers the bit of the grown BitField, which is 0 where the growth step added it. -/
theorem getbitMeaning : Obligations.GetbitMeaning := by
  intro s
  refine ⟨fun h => exec_eq_next (getbitEnd_capacity h), fun hs hp => ?_⟩
  obtain ⟨bf', hok, hg⟩ := BitField.ensureBit_ok (bf := s.bf) hp
  have result : word (bf'.bit s.pos).toNat =
      if s.arg0.toNat < 8 * s.bf.size.toNat ∧ s.bf.bit s.arg0.toNat = true then 1 else 0 := by
    rw [BitField.grownFor_bit_self hg]
    by_cases inside : s.arg0.toNat < 8 * s.bf.size.toNat <;> cases s.bf.bit s.arg0.toNat <;> simp [inside]
  exact ⟨bf', hg, exec_eq_next (result ▸ getbitEnd_ok hs hok)⟩

/-- Settles O10: the checks of SETINT and of `SetInt` in order, then what `SetInt` writes. -/
theorem setintMeaning : Obligations.SetintMeaning := by
  intro s w
  refine ⟨fun h => exec_eq_next (setintEnd_overflow h), fun hv h => exec_eq_next (setintEnd_capacity hv h),
    fun hv hs hc => ?_⟩
  obtain ⟨bf', hok, hw⟩ := BitField.setInt_ok s.bf hv hc
  exact ⟨bf', hw, exec_eq_next (setintEnd_ok hv hs hok)⟩

/-- Settles O8: SETBIT is SETINT of width 1, whose last bit is the bit at pos itself. -/
theorem setbitMeaning : Obligations.SetbitMeaning := by
  intro s
  have asSetint : exec .setbit s = exec (.setint 1) s := congrArg Host.Outcome.next (setbitEnd_eq_setintEnd_one s)
  obtain ⟨overflow, capacity, completed⟩ := setintMeaning s 1
  rw [asSetint]
  exact ⟨overflow, fun hv h => capacity (Nat.lt_succ_of_le hv) (h.imp_right (⟨Nat.one_pos, ·⟩)),
    fun hv hs hp => completed (Nat.lt_succ_of_le hv) hs (.inr hp)⟩

/-- Settles O11: GETINT answers what `GetInt` reads, which fits RESULT at every width a command word can hold. -/
theorem getintMeaning : Obligations.GetintMeaning := by
  intro s w hw
  refine ⟨fun tooLarge => exec_eq_next (getintEnd_capacity w tooLarge),
    fun hs short => exec_eq_next (getintEnd_nodata hs (BitField.getInt_none short)), fun hs enough => ?_⟩
  obtain ⟨v, hv, holds⟩ := BitField.getInt_some enough
  exact ⟨word v, BitField.holdsInt_word hw holds, exec_eq_next (getintEnd_ok hs hv)⟩

end Sys2Proof.Machine
end

section
/-! SUPPORT. The three ways a byte goes into ScanByte, one equation for each (41_encoder.md R165 to R167). -/
namespace Sys2Proof.Machine

variable {P : Params} {b : Byte} {c : EncCtx} {p : Nat}

theorem scanByte_first (unseen : c.regs.seen = none) : scanByte P b c = .ok (c.counted.withSeen b.toNat) := by
  simp [scanByte, unseen]

theorem scanByte_match {code : Nat} (seen : c.regs.seen = some p) (found : dictLookup c.dict p b = some code) :
    scanByte P b c = .ok (c.counted.withSeen code) := by
  simp [scanByte, seen, found]

theorem scanByte_miss (seen : c.regs.seen = some p) (absent : dictLookup c.dict p b = none) :
    scanByte P b c = encMiss P p b c.counted := by
  simp [scanByte, seen, absent, EncCtx.counted]

/-- A miss whose code does not fit BF fails before anything is written (41_encoder.md R168, 40_bitfield.md R137). -/
theorem encMiss_capacity (hw : 0 < c.regs.width) (hp : p < 2 ^ c.regs.width)
    (full : P.bfCap ≤ (c.regs.pos + c.regs.width - 1) / 8) : encMiss P p b c = .raised { err := .capacity } c :=
  encMiss_raised.mpr (.inl ⟨.capacity, BitField.setInt_capacity hp hw full, rfl, rfl⟩)

end Sys2Proof.Machine
end

section
/-! PROOF of O37 and O58: the start checks of COMPRESS, and one byte of its scan loop. -/
namespace Sys2Proof.Machine

theorem compressEnd_configMaxw {maxw : Nat} (blk : Bool) (s : State) (outside : maxw < 9 ∨ 31 < maxw) :
    compressEnd maxw blk s = s.failedWith .configMaxw := by
  rw [compressEnd, if_pos outside, raiseError_eq_failedWith]

theorem compressEnd_capacity {maxw : Nat} (blk : Bool) {s : State} (h9 : 9 ≤ maxw) (h31 : maxw ≤ 31)
    (tooLong : s.params.dataCap < s.dataLen.toNat) : compressEnd maxw blk s = s.failedWith .capacity := by
  have inside : ¬(maxw < 9 ∨ 31 < maxw) := by omega
  have check : s.params.dataCap < s.dataLength := tooLong
  rw [compressEnd, if_neg inside, if_pos check, raiseError_eq_failedWith]

/-- Settles O37: the two start checks in the order of 41_encoder.md R161, each only a command end. -/
theorem compressStartChecks : Obligations.CompressStartChecks := fun s _ blk =>
  ⟨fun outside => exec_eq_next (compressEnd_configMaxw blk s outside),
    fun h9 h31 tooLong => exec_eq_next (compressEnd_capacity blk h9 h31 tooLong)⟩

/-- Settles O58: the dictionary decides between match and miss, and on a miss the room in BF decides whether the code
of `seen` is emitted, after which Grow's outcome is the byte's. -/
theorem scanByteMeaning : Obligations.ScanByteMeaning := by
  intro P b c
  refine ⟨scanByte_first, ?matched, fun p seen absent hw hp => ?missed⟩
  case matched =>
    rintro _ e seen unique he rfl rfl
    exact scanByte_match seen (dictLookup_of_mem unique he)
  case missed =>
    rw [scanByte_miss seen (dictLookup_eq_none absent)]
    refine ⟨fun room => ?_, encMiss_capacity (c := c.counted) (Nat.zero_lt_of_lt hw) hp⟩
    obtain ⟨bf', written, isWritten⟩ := BitField.setInt_ok c.bf hp (.inr room)
    exact ⟨bf', isWritten, fun c' grown => encMiss_ok.mpr ⟨bf', c', written, grown, rfl⟩,
      fun r c' raised => encMiss_raised.mpr (.inr ⟨bf', written, raised⟩)⟩

end Sys2Proof.Machine
end

section
/-! SUPPORT. The decoder's steps and its header, one equation for each way a step ends (42_decoder.md R200 to
R213). -/
namespace Sys2Proof.Machine

variable {P : Params} {bf : BitField} {c c₁ : DecCtx} {code : Nat}

/-! ### The header -/

/-- The eight positions of a byte hold the byte, in both orders (20_memory.md R62, R63). -/
theorem BitField.holdsInt_byte (bf : BitField) (i : Nat) : bf.holdsInt (8 * i) 8 (bf.bytes.read .bf i).toNat := by
  refine ⟨BitVec.isLt _, fun j hj => ?_⟩
  have hbyte : (8 * i + j) / 8 = i := by omega
  have hbit : (8 * i + j) % 8 = j := by omega
  cases order : bf.order <;> simp [BitField.bit, bitIndex, orderedBit, order, hbyte, hbit, BitVec.testBit_toNat]

theorem BitField.getInt_byte {i : Nat} (h : i < bf.size.toNat) :
    bf.getInt (8 * i) 8 = some (bf.bytes.read .bf i).toNat :=
  BitField.getInt_of_holdsInt (by omega) (bf.holdsInt_byte i)

theorem readFlags_truncated (h : bf.size.toNat < 3) : readFlags bf = .error { err := .streamTruncated } := by
  rw [readFlags, if_pos h]

/-- With three bytes in the stream the header's checks are about those bytes. -/
theorem readFlags_of_three_le (h : 3 ≤ bf.size.toNat) : readFlags bf =
    if bf.bytes.read .bf 0 ≠ 0x1F then .error (badMagic (bf.bytes.read .bf 0).toNat magic0 0)
    else if bf.bytes.read .bf 1 ≠ 0x9D then .error (badMagic (bf.bytes.read .bf 1).toNat magic1 8)
    else .ok (bf.bytes.read .bf 2).toNat := by
  have first : bf.getInt 0 8 = _ := BitField.getInt_byte (i := 0) (by omega)
  have second : bf.getInt 8 8 = _ := BitField.getInt_byte (i := 1) (by omega)
  have flags : bf.getInt 16 8 = _ := BitField.getInt_byte (i := 2) (by omega)
  have isMagic0 (b : Byte) : b.toNat = magic0 ↔ b = 0x1F := BitVec.toNat_inj (y := 0x1F)
  have isMagic1 (b : Byte) : b.toNat = magic1 ↔ b = 0x9D := BitVec.toNat_inj (y := 0x9D)
  simp only [readFlags, if_neg (Nat.not_lt.mpr h), first, second, flags, ne_eq, isMagic0, isMagic1]

theorem readFlags_badMagic_first (h : 3 ≤ bf.size.toNat) (h0 : bf.bytes.read .bf 0 ≠ 0x1F) :
    readFlags bf = .error (badMagic (bf.bytes.read .bf 0).toNat magic0 0) := by
  rw [readFlags_of_three_le h, if_pos h0]

theorem readFlags_badMagic_second (h : 3 ≤ bf.size.toNat) (h0 : bf.bytes.read .bf 0 = 0x1F)
    (h1 : bf.bytes.read .bf 1 ≠ 0x9D) :
    readFlags bf = .error (badMagic (bf.bytes.read .bf 1).toNat magic1 8) := by
  rw [readFlags_of_three_le h, if_neg (not_not.mpr h0), if_pos h1]

theorem readFlags_error_ne_none {e : Raise} (h : readFlags bf = .error e) : e.err ≠ .none := by
  by_cases short : bf.size.toNat < 3
  · cases (readFlags_truncated short).symm.trans h
    decide
  · rw [readFlags_of_three_le (Nat.le_of_not_lt short)] at h
    split at h
    · cases h; exact ErrCode.noConfusion
    · split at h <;> cases h
      exact ErrCode.noConfusion

/-! ### A first code -/

theorem firstCodeStep_ended (h : codeAt bf c = none) : firstCodeStep P bf c = .ended c := by
  simp [firstCodeStep, h]

theorem firstCodeStep_badCode (h : codeAt bf c = some code) (above : 256 ≤ code) :
    firstCodeStep P bf c = .raised (badCode code c.regs.next c.regs.pos) (decAdvance c) := by
  simp [firstCodeStep, h, above]

theorem firstCodeStep_byte {b : Byte} (h : codeAt bf c = some b.toNat) (room : c.regs.out < P.dataCap) :
    firstCodeStep P bf c =
      .go { c with
        regs := { c.regs with pos := c.regs.pos + c.regs.width, out := c.regs.out + 1, seen := b.toNat }
        data := c.data.write c.regs.out b } := by
  have isByte : ¬256 ≤ b.toNat := Nat.not_le.mpr b.isLt
  simp [firstCodeStep, h, isByte, dictStr_byte _ b.isLt, output, Nat.not_le.mpr room, decAdvance]

theorem firstCodeStep_capacity {b : Byte} (h : codeAt bf c = some b.toNat) (full : P.dataCap ≤ c.regs.out) :
    firstCodeStep P bf c = .raised { err := .capacity } (decAdvance c) := by
  have isByte : ¬256 ≤ b.toNat := Nat.not_le.mpr b.isLt
  simp [firstCodeStep, h, isByte, dictStr_byte _ b.isLt, output, full, decAdvance]

/-! ### A later code -/

theorem mainStep_reset (blk : c.regs.blk = true) (h : codeAt bf c = some resetCode) :
    mainStep P bf c = firstCodeStep P bf (decReset (decAdvance c)) := by
  simp [mainStep, h, blk]

theorem mainStep_go (h : codeAt bf c = some code) (noReset : ¬(c.regs.blk = true ∧ code = resetCode))
    (expanded : expandCode P code c.regs.pos (decAdvance c) = .ok c₁) : mainStep P bf c = .go (c₁.advanced code) := by
  simp only [mainStep, h, if_neg noReset, expanded]

theorem mainStep_raised {e : Raise} (h : codeAt bf c = some code) (noReset : ¬(c.regs.blk = true ∧ code = resetCode))
    (raised : expandCode P code c.regs.pos (decAdvance c) = .raised e c₁) : mainStep P bf c = .raised e c₁ := by
  simp only [mainStep, h, if_neg noReset, raised]

/-! ### d.seen, d.next and the width after a code (42_decoder.md R212, R213) -/

@[simp] theorem decNext_next (code : Nat) (r : DecRegs) :
    (decNext code r).next = if r.next < 2 ^ r.wtop then r.next + 1 else r.next := rfl

@[simp] theorem decWidthStep_seen (r : DecRegs) : (decWidthStep r).seen = r.seen := by
  unfold decWidthStep; split <;> rfl

@[simp] theorem decWidthStep_next (r : DecRegs) : (decWidthStep r).next = r.next := by
  unfold decWidthStep; split <;> rfl

@[simp] theorem decWidthStep_out (r : DecRegs) : (decWidthStep r).out = r.out := by
  unfold decWidthStep; split <;> rfl

@[simp] theorem decWidthStep_pos (r : DecRegs) : (decWidthStep r).pos = r.pos := by
  unfold decWidthStep; split <;> rfl

@[simp] theorem decWidthStep_width (r : DecRegs) :
    (decWidthStep r).width = if 2 ^ r.width ≤ r.next ∧ r.width < r.maxw then r.width + 1 else r.width := by
  unfold decWidthStep; split <;> rfl

/-! ### The whole stream -/

/-- Where the first code of a stream is read: after the header, with its flags taken and the dictionary empty. -/
abbrev DecCtx.primed (c : DecCtx) (flags : Nat) : DecCtx :=
  decStart (decReset { c with regs := decConfigure flags c.regs })

theorem decompressRun_headerError {e : Raise} (h : readFlags bf = .error e) : decompressRun P bf c = .raised e c := by
  simp [decompressRun, h]

/-- How a stream with a good header ends: as its first code ends, or as the main loop after it does. -/
theorem decompressRun_cases {flags : Nat} (h : readFlags bf = .ok flags) :
    (∃ c₁, firstCodeStep P bf (c.primed flags) = .ended c₁ ∧ decompressRun P bf c = .ok c₁) ∨
      (∃ e c₁, firstCodeStep P bf (c.primed flags) = .raised e c₁ ∧ decompressRun P bf c = .raised e c₁) ∨
      ∃ c₁, firstCodeStep P bf (c.primed flags) = .go c₁ ∧ decompressRun P bf c = mainLoop P bf (codeReads bf) c₁ := by
  simp only [decompressRun, h]
  cases step : firstCodeStep P bf (c.primed flags) with
  | ended c₁ => exact .inl ⟨c₁, rfl, rfl⟩
  | raised e c₁ => exact .inr (.inl ⟨e, c₁, rfl, rfl⟩)
  | go c₁ => exact .inr (.inr ⟨c₁, rfl, rfl⟩)

end Sys2Proof.Machine
end

section
/-! PROOF of O51 and O52: one code of the main loop, a RESET_CODE or any other. -/
namespace Sys2Proof.Machine

variable {P : Params} {bf : BitField} {c : DecCtx} {code : Nat}

/-- 42_decoder.md R204, R207: what a RESET_CODE leaves in block mode. -/
theorem decReset_decAdvance (blk : c.regs.blk = true) : decReset (decAdvance c) =
    { c with regs := { c.regs with pos := c.regs.pos + c.regs.width, width := 9, next := 257 }, dict := [] } := by
  simp [decReset, decAdvance, firstCode, initWidth, blk]

/-- Settles O51: a RESET_CODE is followed by a first code of an empty dictionary, read at width 9 with d.next 257. -/
theorem resetCodeStep : Obligations.ResetCodeStep := by
  intro P bf c blk isReset
  rw [mainStep_reset blk isReset, decReset_decAdvance blk]
  exact ⟨fun h => ⟨_, firstCodeStep_ended h, rfl, rfl⟩,
    fun b h room => ⟨_, firstCodeStep_byte h room, rfl, rfl, rfl⟩,
    fun code h above => ⟨_, firstCodeStep_badCode h above⟩,
    fun b h full => ⟨_, firstCodeStep_capacity h full, rfl⟩⟩

/-- 42_decoder.md R208: in a loop state the codes that count as present are the known ones. -/
theorem DecCtx.Mirrors.present_iff (mirrors : c.Mirrors) (code : Nat) :
    present c.regs code = true ↔ knownCodeIn (firstCode c.regs.blk) c.dict code := by
  simp [present, knownCodeIn, mirrors.next_eq]

/-- The word a code stands for in a loop state is the string its expansion outputs. -/
theorem DecCtx.Mirrors.expansion_eq (mirrors : c.Mirrors) {word : List Byte}
    (meaning : (knownCodeIn (firstCode c.regs.blk) c.dict code ∧ word = dictStr c.dict code) ∨
      (code = c.regs.next ∧ word = dictStr c.dict c.regs.seen ++ (dictStr c.dict c.regs.seen).take 1)) :
    (present c.regs code = true ∨ code = c.regs.next) ∧ expansion c code = word := by
  rcases meaning with ⟨known, rfl⟩ | ⟨rfl, rfl⟩
  · have isPresent := (mirrors.present_iff code).mpr known
    exact ⟨.inl isPresent, expansion_present isPresent⟩
  · have absent : ¬present c.regs c.regs.next = true := by
      have := firstCode_ge c.regs.blk
      have := mirrors.next_eq
      simp [present]
      omega
    refine ⟨.inr rfl, ?_⟩
    rw [expansion_absent absent]
    obtain ⟨x, xs, nonempty⟩ := List.exists_cons_of_ne_nil (dictStr_ne_nil c.dict c.regs.seen)
    simp [nonempty, firstByte]

/-- A code with a meaning that does not succeed for want of room raises CAPACITY (42_decoder.md R214, R215). -/
theorem expandCode_capacity {p0 : Nat} (meaning : present c.regs code = true ∨ code = c.regs.next)
    (noRoom : (c.regs.next < 2 ^ c.regs.wtop ∧ P.dictLimit ≤ c.regs.next) ∨
      P.dataCap < c.regs.out + (expansion c code).length) :
    ∃ c', expandCode P code p0 c = .raised { err := .capacity } c' := by
  cases result : expandCode P code p0 c with
  | ok c' =>
    obtain ⟨-, room, stored⟩ := expandCode_ok.mp result
    rcases stored with ⟨full, -⟩ | ⟨-, below, -⟩ <;> omega
  | raised e c' =>
    rcases expandCode_raised result with ⟨absent, other, -, -⟩ | ⟨rfl, -⟩
    · exact absurd meaning (not_or.mpr ⟨absent, other⟩)
    · exact ⟨c', rfl⟩

/-- A code with a meaning and the room for it outputs its expansion, and stores the entry for d.next while d.next is
below 2^d.wtop (42_decoder.md R209, R210, R214). -/
theorem expandCode_stores {p0 : Nat} (meaning : present c.regs code = true ∨ code = c.regs.next)
    (limit : c.regs.next < P.dictLimit ∨ 2 ^ c.regs.wtop ≤ c.regs.next)
    (room : c.regs.out + (expansion c code).length ≤ P.dataCap) :
    ∃ dict, expandCode P code p0 c = .ok { c.withOutput (expansion c code) with dict := dict } ∧
      (2 ^ c.regs.wtop ≤ c.regs.next → dict = c.dict) ∧
      (c.regs.next < 2 ^ c.regs.wtop →
        dict = { code := c.regs.next, pre := c.regs.seen, byte := firstByte (expansion c code) } :: c.dict) := by
  rcases Nat.lt_or_ge c.regs.next (2 ^ c.regs.wtop) with growing | full
  · exact ⟨_, expandCode_ok.mpr ⟨meaning, room, .inr ⟨growing, limit.resolve_right (Nat.not_le.mpr growing), rfl⟩⟩,
      fun full => absurd growing (Nat.not_lt.mpr full), fun _ => rfl⟩
  · exact ⟨c.dict, expandCode_ok.mpr ⟨meaning, room, .inl ⟨full, rfl⟩⟩, fun _ => rfl,
      fun growing => absurd growing (Nat.not_lt.mpr full)⟩

/-- Settles O52: a code with a meaning outputs its word or finds no room for it, and any other code is corrupt. -/
theorem codeExpansion : Obligations.CodeExpansion := by
  intro P bf c code mirrors isCode noReset
  refine ⟨fun word meaning => ?known, fun unknown notNext => ?corrupt⟩
  case known =>
    obtain ⟨hasWord, rfl⟩ := mirrors.expansion_eq meaning
    refine ⟨fun limit room => ?_, fun noRoom => ?_⟩
    · obtain ⟨dict, expanded, unstored, stored⟩ :=
        expandCode_stores (c := decAdvance c) (p0 := c.regs.pos) hasWord limit room
      refine ⟨_, mainStep_go isCode noReset expanded, decWidthStep_seen _, decWidthStep_out _, decWidthStep_pos _,
        Memory.read_writeAll _ _ _ _, fun i => Memory.read_writeAll_ne _ _ _ _, fun full => ⟨?_, unstored full⟩,
        fun growing => ⟨?_, stored growing⟩, ?_⟩
      · exact (decWidthStep_next _).trans (if_neg (Nat.not_lt.mpr full))
      · exact (decWidthStep_next _).trans (if_pos growing)
      · rw [decWidthStep_next]
        exact decWidthStep_width _
    · obtain ⟨c', raised⟩ := expandCode_capacity (c := decAdvance c) hasWord noRoom
      exact ⟨c', mainStep_raised isCode noReset raised⟩
  case corrupt =>
    have absent := mt (mirrors.present_iff code).mp unknown
    exact ⟨_, mainStep_raised isCode noReset (expandCode_corrupt absent notNext)⟩

end Sys2Proof.Machine
end

section
/-! PROOF of O46 and O47: the checks of DECOMPRESS before its first code, and the outputs of the whole command. -/
namespace Sys2Proof.Machine

variable {P : Params} {before : Memory} {c c' : DecCtx}

/-! ### The checks -/

theorem decompressEnd_capacity {s : State} (h : s.params.bfCap < s.bf.size.toNat) :
    decompressEnd s = s.failedWith .capacity := by
  rw [decompressEnd, if_pos (bfOverCapacity_of_lt h), raiseError_eq_failedWith]

/-- An error of the header comes before any output, so DATA and DDICT stay (42_decoder.md R219). -/
theorem decompressEnd_headerError {s : State} {e : Raise} (hs : s.bf.size.toNat ≤ s.params.bfCap)
    (h : readFlags (wrapBF s.params s.bf) = .error e) :
    decompressEnd s =
      raiseError e { s with bf := wrapBF s.params s.bf, dec := { s.dec with out := 0 }, dataLen := 0 } := by
  simp [decompressEnd, bfOverCapacity_of_le hs, decompressRun_headerError h, decompressFailed]

theorem decompressEnd_badMagic {s : State} {found : Byte} {expected bitpos : Nat}
    (hs : s.bf.size.toNat ≤ s.params.bfCap)
    (h : readFlags (wrapBF s.params s.bf) = .error (badMagic found.toNat expected bitpos)) :
    decompressEnd s =
      State.failedAs .streamBadMagic (found.setWidth 32) (word expected) (word bitpos)
        { s with bf := wrapBF s.params s.bf, dec := { s.dec with out := 0 }, dataLen := 0 } := by
  rw [decompressEnd_headerError hs h, raiseError_eq_failedAs, ← BitVec.ofNat_toNat]
  rfl

/-- Settles O46: the pre-check, then the checks of ReadHeader in their order. -/
theorem decompressHeaderChecks : Obligations.DecompressHeaderChecks := fun s =>
  ⟨fun tooLarge => exec_eq_next (decompressEnd_capacity tooLarge), fun hs =>
    ⟨{ s.dec with out := 0 },
      fun short => exec_eq_next (decompressEnd_headerError hs (readFlags_truncated short)),
      fun long h0 => exec_eq_next (decompressEnd_badMagic hs (readFlags_badMagic_first long h0)),
      fun long h0 h1 => exec_eq_next (decompressEnd_badMagic hs (readFlags_badMagic_second long h0 h1))⟩⟩

/-! ### The outputs -/

/-- What the decoder has output lies within DATA_CAP, and the rest of DATA is as it was before the command
(42_decoder.md R215). -/
def DecCtx.OutputWithin (P : Params) (before : Memory) (c : DecCtx) : Prop :=
  c.regs.out ≤ P.dataCap ∧ ∀ i, c.regs.out ≤ i → c.data.read .data i = before.read .data i

/-- An output that fits DATA keeps to it; neither d.out nor DATA depends on the other registers or on DDICT. -/
theorem DecCtx.OutputWithin.append (h : c.OutputWithin P before) (xs : List Byte)
    (room : c.regs.out + xs.length ≤ P.dataCap) (out : c'.regs.out = c.regs.out + xs.length)
    (data : c'.data = c.data.writeAll c.regs.out xs) : c'.OutputWithin P before := by
  obtain ⟨-, kept⟩ := h
  refine ⟨out ▸ room, fun i hi => ?_⟩
  rw [data, Memory.read_writeAll_ne _ _ _ _ (.inr (out ▸ hi)), kept i (by omega)]

/-- How a step of the decoder that started within its output may end: within it, or by an error that has a code. -/
def DecStep.KeepsOutput (P : Params) (before : Memory) : DecStep → Prop
  | .go c => c.OutputWithin P before
  | .ended c => c.OutputWithin P before
  | .raised e _ => e.err ≠ .none

theorem firstCodeStep_keepsOutput (bf : BitField) (h : c.OutputWithin P before) :
    (firstCodeStep P bf c).KeepsOutput P before := by
  rcases firstCodeStep_cases P bf c with
    ⟨-, step⟩ | ⟨_, -, -, step⟩ | ⟨_, -, -, -, step⟩ | ⟨b, -, room, step⟩ <;> rw [step]
  case inl => exact h
  case inr.inl => exact ErrCode.noConfusion
  case inr.inr.inl => exact ErrCode.noConfusion
  case inr.inr.inr => exact h.append [b] room rfl rfl

theorem mainStep_keepsOutput (bf : BitField) (h : c.OutputWithin P before) :
    (mainStep P bf c).KeepsOutput P before := by
  rcases mainStep_cases P bf c with
    ⟨-, step⟩ | ⟨-, -, step⟩ | ⟨code, -, -, ⟨c₁, expanded, step⟩ | ⟨e, c₁, raised, step⟩⟩ <;> rw [step]
  case inl => exact h
  case inr.inl => exact firstCodeStep_keepsOutput bf h
  case inr.inr.inl =>
    obtain ⟨-, room, ⟨-, rfl⟩ | ⟨-, -, rfl⟩⟩ := expandCode_ok.mp expanded <;>
      exact h.append _ room (decWidthStep_out _) rfl
  case inr.inr.inr =>
    rcases expandCode_raised raised with ⟨-, -, rfl, -⟩ | ⟨rfl, -⟩ <;> exact ErrCode.noConfusion

/-- The same of a whole run. -/
def Flow.KeepsOutput (P : Params) (before : Memory) : Flow DecCtx → Prop
  | .ok c => c.OutputWithin P before
  | .raised e _ => e.err ≠ .none

theorem mainLoop_keepsOutput (bf : BitField) (n : Nat) (h : c.OutputWithin P before) :
    (mainLoop P bf n c).KeepsOutput P before := by
  induction n generalizing c with
  | zero => exact h
  | succ n ih =>
    have one := mainStep_keepsOutput bf h
    rw [mainLoop]
    cases step : mainStep P bf c <;> rw [step] at one
    case ended => exact one
    case raised => exact one
    case go => exact ih one

/-- A run starts with no output, so with all of DATA as it was. -/
theorem decompressRun_keepsOutput (P : Params) (bf : BitField) (c : DecCtx) :
    (decompressRun P bf c).KeepsOutput P c.data := by
  cases header : readFlags bf with
  | error e =>
    rw [decompressRun_headerError header]
    exact readFlags_error_ne_none header
  | ok flags =>
    have primed : (c.primed flags).OutputWithin P c.data := ⟨Nat.zero_le _, fun _ _ => rfl⟩
    have first := firstCodeStep_keepsOutput bf primed
    rcases decompressRun_cases header with ⟨c₁, step, run⟩ | ⟨e, c₁, step, run⟩ | ⟨c₁, step, run⟩ <;>
      rw [step] at first <;> rw [run]
    · exact first
    · exact first
    · exact mainLoop_keepsOutput bf _ first

/-- Settles O47: the two ends of a DECOMPRESS that passed the pre-check. -/
theorem decompressOutputs : Obligations.DecompressOutputs := by
  intro s hs
  have kept := decompressRun_keepsOutput s.params (wrapBF s.params s.bf) (decBegin s)
  obtain ⟨tooLarge, -⟩ | ⟨-, ⟨c, run, ended⟩ | ⟨e, c, run, ended⟩⟩ := decompressEnd_cases s
  · exact absurd hs (Nat.not_le.mpr tooLarge)
  · rw [run] at kept
    exact ⟨c.regs, c.dict, c.data, .inl ⟨exec_eq_next ended, kept⟩⟩
  · rw [run] at kept
    exact ⟨c.regs, c.dict, decompressFailed s.data c.regs.out,
      .inr ⟨_, _, _, _, kept, exec_eq_next ended, fun noOutput => if_pos noOutput⟩⟩

end Sys2Proof.Machine
end

section
/-! PROOF of O27: what ERR_CODE, ERR_EXPECT and ERR_BITPOS hold after a command (60_exceptions.md R251). -/
namespace Sys2Proof.Machine

variable {P : Params} {bf : BitField} {c c' : DecCtx} {e : Raise} {code : Nat} {s : State}

/-! ### What an error reports -/

/-- An error that is none of the two of a corrupt stream and has no diagnostics. -/
abbrev Raise.Plain (e : Raise) : Prop :=
  e.err ≠ .streamBadCode ∧ e.err ≠ .streamBadMagic ∧ e.code = 0 ∧ e.expect = 0 ∧ e.bitpos = 0

/-- A corrupt code, reported after d.pos has passed it: the code, d.next and where the code starts. -/
def Raise.ReportsCode (e : Raise) (bf : BitField) (r : DecRegs) : Prop :=
  ∃ code, e = badCode code r.next (r.pos - r.width) ∧ r.width ≤ r.pos ∧
    bf.getInt (r.pos - r.width) r.width = some code

/-- The first of the two magic bytes that is wrong, with what it should be and its bit position. -/
def Raise.ReportsMagic (e : Raise) (bytes : Memory) : Prop :=
  e = badMagic (bytes.read .bf 0).toNat magic0 0 ∨ e = badMagic (bytes.read .bf 1).toNat magic1 8

/-! ### The decoder's errors -/

/-- Past the code that was read, d.pos - d.width is where it was read. -/
theorem badCode_reportsCode (isCode : codeAt bf c = some code) :
    (badCode code c.regs.next c.regs.pos).ReportsCode bf (decAdvance c).regs := by
  have start : (decAdvance c).regs.pos - (decAdvance c).regs.width = c.regs.pos := Nat.add_sub_cancel ..
  refine ⟨code, ?_, Nat.le_add_left .., ?_⟩ <;> rw [start]
  · rfl
  · exact isCode

theorem readFlags_reports (h : readFlags bf = .error e) : e.Plain ∨ e.ReportsMagic bf.bytes := by
  by_cases short : bf.size.toNat < 3
  · cases (readFlags_truncated short).symm.trans h
    exact .inl (by decide)
  · rw [readFlags_of_three_le (Nat.le_of_not_lt short)] at h
    split at h
    · cases h; exact .inr (.inl rfl)
    · split at h <;> cases h
      exact .inr (.inr rfl)

theorem firstCodeStep_reports (h : firstCodeStep P bf c = .raised e c') : e.Plain ∨ e.ReportsCode bf c'.regs := by
  rcases firstCodeStep_cases P bf c with
    ⟨-, step⟩ | ⟨code, isCode, -, step⟩ | ⟨_, -, -, -, step⟩ | ⟨_, -, -, step⟩ <;> cases step.symm.trans h
  case inr.inl => exact .inr (badCode_reportsCode isCode)
  case inr.inr.inl => exact .inl (by decide)

theorem mainStep_reports (h : mainStep P bf c = .raised e c') : e.Plain ∨ e.ReportsCode bf c'.regs := by
  rcases mainStep_cases P bf c with
    ⟨-, step⟩ | ⟨-, -, step⟩ | ⟨code, isCode, -, ⟨_, -, step⟩ | ⟨_, _, raised, step⟩⟩
  case inl => cases step.symm.trans h
  case inr.inl => exact firstCodeStep_reports (step.symm.trans h)
  case inr.inr.inl => cases step.symm.trans h
  case inr.inr.inr =>
    cases step.symm.trans h
    rcases expandCode_raised raised with ⟨-, -, rfl, rfl⟩ | ⟨rfl, -⟩
    · exact .inr (badCode_reportsCode isCode)
    · exact .inl (by decide)

theorem mainLoop_reports {n : Nat} (h : mainLoop P bf n c = .raised e c') : e.Plain ∨ e.ReportsCode bf c'.regs := by
  obtain ⟨_, -, raised⟩ := mainLoop_raised (fun _ => True) (fun _ _ _ _ => trivial) n c e c' trivial h
  exact mainStep_reports raised

/-- The errors of a whole stream: of its header, of its first code or of a later one. -/
theorem decompressRun_reports (h : decompressRun P bf c = .raised e c') :
    e.Plain ∨ e.ReportsMagic bf.bytes ∨ e.ReportsCode bf c'.regs := by
  cases header : readFlags bf with
  | error e₁ =>
    cases (decompressRun_headerError header).symm.trans h
    exact (readFlags_reports header).imp_right .inl
  | ok flags =>
    rcases decompressRun_cases header with ⟨_, -, run⟩ | ⟨_, _, raised, run⟩ | ⟨_, -, run⟩
    · cases run.symm.trans h
    · cases run.symm.trans h
      exact (firstCodeStep_reports raised).imp_right .inr
    · exact (mainLoop_reports (run.symm.trans h)).imp_right .inr

/-! ### The encoder's errors -/

section
variable {c c' : EncCtx}

theorem BitField.setInt_error_plain {p w v : Nat} {err : ErrCode} (h : bf.setInt P p w v = .error err) :
    Raise.Plain { err := err } := by
  rcases BitField.setInt_error h with ⟨rfl, -⟩ | ⟨rfl, -⟩ <;> decide

theorem emit_plain (h : emit P code c = .raised e c') : e.Plain := by
  obtain ⟨_, failed, rfl, -⟩ := emit_raised.mp h
  exact BitField.setInt_error_plain failed

theorem monitor_plain (h : monitor P c = .raised e c') : e.Plain := by
  rcases monitor_cases P c with step | ⟨-, step⟩ | ⟨_, -, -, step⟩ | step
  case inr.inr.inr =>
    obtain ⟨_, failed, rfl, -⟩ := ratioReset_raised.mp (step.symm.trans h)
    exact BitField.setInt_error_plain failed
  all_goals cases step.symm.trans h

theorem grow_plain {seen : Nat} {b : Byte} (h : grow P seen b c = .raised e c') : e.Plain := by
  rcases grow_raised.mp h with ⟨-, -, rfl, -⟩ | ⟨-, -, raised⟩
  · decide
  · exact monitor_plain raised

theorem scanByte_plain {b : Byte} (h : scanByte P b c = .raised e c') : e.Plain := by
  rcases scanByte_cases P b c with ⟨-, step⟩ | ⟨_, _, -, -, step⟩ | ⟨_, -, -, step⟩
  · cases step.symm.trans h
  · cases step.symm.trans h
  · rcases encMiss_raised.mp (step.symm.trans h) with ⟨_, failed, rfl, -⟩ | ⟨_, -, raised⟩
    · exact BitField.setInt_error_plain failed
    · exact grow_plain raised

theorem flush_plain (h : flush P c = .raised e c') : e.Plain := by
  rcases flush_cases P c with ⟨-, step⟩ | ⟨_, -, step⟩
  · cases step.symm.trans h
  · exact emit_plain (step.symm.trans h)

/-- The errors of a whole COMPRESS are those of its scan and its flush: the header always fits. -/
theorem compressRun_plain {data : Memory} {len maxw : Nat} {blk : Bool} (hm : maxw ≤ 31)
    (h : compressRun P data len maxw blk c = .raised e c') : e.Plain := by
  obtain ⟨_, _, _, -, -, -, -, -, -, -, header⟩ :=
    writeHeader_ok P blk hm (c := { c with bf := constructBF P c.bf }) rfl
  rw [compressRun, header, Flow.andThen_ok, Flow.andThen_eq_raised] at h
  rcases h with scanning | ⟨_, -, flushing⟩
  · obtain ⟨_, _, -, raised⟩ :=
      scanLoop_raised (fun _ _ => True) (fun _ _ _ _ _ => trivial) len _ e c' trivial scanning
    exact scanByte_plain raised
  · exact flush_plain flushing

end

/-! ### The state a command leaves -/

/-- The command ended without an error of a corrupt stream and without diagnostics. -/
def State.Undiagnosed (t : State) : Prop :=
  t.status.err ≠ .streamBadCode ∧ t.status.err ≠ .streamBadMagic ∧ t.errCode = 0 ∧ t.errExpect = 0 ∧ t.errBitpos = 0

/-- Acceptance clears ERR and the diagnostics, and completion does not write them. -/
theorem State.accepted.undiagnosed (h : s.accepted) : s.Undiagnosed := by
  obtain ⟨-, -, err, errCode, errExpect, errBitpos⟩ := h
  exact ⟨err ▸ ErrCode.noConfusion, err ▸ ErrCode.noConfusion, errCode, errExpect, errBitpos⟩

theorem raiseError_undiagnosed (h : e.Plain) (s : State) : (raiseError e s).Undiagnosed := by
  obtain ⟨notCode, notMagic, code, expect, bitpos⟩ := h
  exact ⟨notCode, notMagic, congrArg word code, congrArg word expect, congrArg word bitpos⟩

theorem failedWith_undiagnosed {err : ErrCode} (h : Raise.Plain { err := err }) (s : State) :
    (s.failedWith err).Undiagnosed := raiseError_undiagnosed h s

/-- Only DECOMPRESS leaves diagnostics. -/
theorem endOf_undiagnosed {i : Instr} (h : s.accepted) (other : i ≠ .decompress) : (endOf i s).Undiagnosed := by
  have overflow : (s.failedWith .configOverflow).Undiagnosed := failedWith_undiagnosed (by decide) s
  have capacity : (s.failedWith .capacity).Undiagnosed := failedWith_undiagnosed (by decide) s
  cases i with
  | setbit =>
    rcases setbitEnd_cases s with ⟨-, ended⟩ | ended | ⟨_, -, ended⟩ <;> rw [endOf, ended]
    exacts [overflow, capacity, h.undiagnosed]
  | getbit =>
    rcases getbitEnd_cases s with ended | ⟨_, -, ended⟩ <;> rw [endOf, ended]
    exacts [capacity, h.undiagnosed]
  | setint w =>
    rcases setintEnd_cases w s with ⟨-, ended⟩ | ended | ⟨_, -, ended⟩ <;> rw [endOf, ended]
    exacts [overflow, capacity, h.undiagnosed]
  | getint w =>
    rcases getintEnd_cases w s with ended | ⟨-, -, ended⟩ | ⟨_, -, ended⟩ <;> rw [endOf, ended]
    exacts [capacity, h.undiagnosed, h.undiagnosed]
  | compress maxw blk =>
    rcases compressEnd_cases maxw blk s with
      ⟨-, ended⟩ | ⟨-, -, ended⟩ | ⟨⟨-, hm⟩, -, ⟨_, -, ended⟩ | ⟨_, _, run, ended⟩⟩ <;> rw [endOf, ended]
    exacts [failedWith_undiagnosed (by decide) s, capacity, h.undiagnosed,
      raiseError_undiagnosed (compressRun_plain hm run) _]
  | decompress => exact absurd rfl other

/-- The diagnostics of DECOMPRESS are about the magic bytes as the host stored them, or about the code before d.pos. -/
theorem decompressEnd_reports (h : s.accepted) : (decompressEnd s).Undiagnosed ∨
    ∃ e u, decompressEnd s = raiseError e u ∧ (e.ReportsMagic s.bf.bytes ∨ e.ReportsCode u.bf u.dec) := by
  rcases decompressEnd_cases s with ⟨-, ended⟩ | ⟨-, ⟨_, -, ended⟩ | ⟨e, c, run, ended⟩⟩
  · rw [ended]
    exact .inl (failedWith_undiagnosed (by decide) s)
  · rw [ended]
    exact .inl h.undiagnosed
  · rcases decompressRun_reports run with plain | reports
    · exact .inl (ended ▸ raiseError_undiagnosed plain _)
    · exact .inr ⟨e, _, ended, reports⟩

/-- Settles O27: a command leaves no diagnostics, or it is a DECOMPRESS that stopped at a magic byte or at a code. -/
theorem errorDiagnostics : Obligations.ErrorDiagnostics := by
  intro i s t accepted run
  cases (exec_eq i s).symm.trans run
  have ends : (endOf i s).Undiagnosed ∨
      ∃ e u, endOf i s = raiseError e u ∧ (e.ReportsMagic s.bf.bytes ∨ e.ReportsCode u.bf u.dec) := by
    by_cases isDecompress : i = .decompress
    · exact isDecompress ▸ decompressEnd_reports accepted
    · exact .inl (endOf_undiagnosed accepted isDecompress)
  rcases ends with ⟨notCode, notMagic, zero⟩ | ⟨e, u, ended, (rfl | rfl) | ⟨code, rfl, inside, isCode⟩⟩
  · exact ⟨(absurd · notCode), (absurd · notMagic), fun _ _ => zero⟩
  all_goals rw [ended]
  · exact ⟨nofun, fun _ => .inl ⟨BitVec.ofNat_toNat .., rfl, rfl⟩, fun _ other => absurd rfl other⟩
  · exact ⟨nofun, fun _ => .inr ⟨BitVec.ofNat_toNat .., rfl, rfl⟩, fun _ other => absurd rfl other⟩
  · exact ⟨fun _ => ⟨code, rfl, rfl, rfl, inside, isCode⟩, nofun, fun other => absurd rfl other⟩

end Sys2Proof.Machine
end

section
/-! PROOF of O34: what a host access leaves of the parameters, and from it what a step does
(70_reset_and_hazards.md R273). -/
namespace Sys2Proof.Machine

/-- 20_memory.md R60: a host read, idle or busy, changes only the word the host gets and the free-value counter. -/
theorem hostAccess_read (sp : Space) (offset width : Nat) (s : State) :
    ∃ d n, hostAccess (.read sp offset width) s = { s with rdata := d, freeCount := n } := by
  have window : ∀ cap b, ∃ d n, readWindow cap offset width b s = { s with rdata := d, freeCount := n } := by
    intro cap b
    unfold readWindow
    repeat' split
    all_goals exact ⟨_, _, rfl⟩
  cases sp with
  | reg =>
    show ∃ d n, readRegSpace offset width s = _
    unfold readRegSpace
    repeat' split
    all_goals exact ⟨_, _, rfl⟩
  | bfb => exact window _ _
  | datab => exact window _ _

@[simp] theorem writeReg_params (r : Reg) (v : Word) (s : State) : (writeReg r v s).params = s.params := by
  cases r <;> rfl

@[simp] theorem writeRegIdle_params (offset width : Nat) (v : Word) (s : State) :
    (writeRegIdle offset width v s).params = s.params := by
  unfold writeRegIdle
  split
  · cases regAt offset with
    | none => rfl
    | some r => exact writeReg_params r v s
  · rfl

@[simp] theorem writeBfbIdle_params (offset width : Nat) (v : Word) (s : State) :
    (writeBfbIdle offset width v s).params = s.params := by unfold writeBfbIdle; split <;> rfl

@[simp] theorem writeDatabIdle_params (offset width : Nat) (v : Word) (s : State) :
    (writeDatabIdle offset width v s).params = s.params := by unfold writeDatabIdle; split <;> rfl

/-- The busy rule keeps the parameters where the idle write does. -/
theorem writeUnlessBusy_params {f : State → State} {s : State} (h : (f s).params = s.params) :
    (writeUnlessBusy f s).params = s.params := by
  unfold writeUnlessBusy
  split
  · exact dropWrite_params s
  · exact h

@[simp] theorem writeRegSpace_params (offset width : Nat) (v : Word) (s : State) :
    (writeRegSpace offset width v s).params = s.params := by
  unfold writeRegSpace
  repeat' split
  · rfl
  · exact writeRegIdle_params ..
  · exact writeUnlessBusy_params (writeRegIdle_params ..)

/-- No host access, idle or busy, changes the parameters. -/
@[simp] theorem hostAccess_params (a : Access) (s : State) : (hostAccess a s).params = s.params := by
  cases a with
  | read sp offset width =>
    obtain ⟨d, n, read⟩ := hostAccess_read sp offset width s
    rw [read]
  | write sp offset width v =>
    cases sp with
    | reg => exact writeRegSpace_params ..
    | bfb => exact writeUnlessBusy_params (writeBfbIdle_params ..)
    | datab => exact writeUnlessBusy_params (writeDatabIdle_params ..)

/-- The engine's turn keeps the parameters, whatever command it runs. -/
@[simp] theorem turnOf_params (s : State) : (turnOf s).params = s.params := by
  obtain ⟨-, -, params, -⟩ := turnOf_frame s
  exact params

/-- Settles O34: a step is the engine's turn, a host access or the platform's reset, and none of them writes the
parameters. -/
theorem parametersNeverChange : Obligations.ParametersNeverChange := by
  intro s t next
  rcases step_cases s with ⟨-, step⟩ | ⟨_, rest, -, ⟨a, -, step⟩ | ⟨-, step⟩ | ⟨-, step⟩⟩
  all_goals cases step.symm.trans next
  case inl => exact turnOf_params s
  case inr.inl => exact hostAccess_params a { s with inputs := rest }
  case inr.inr.inl => exact turnOf_params { s with inputs := rest }
  case inr.inr.inr => exact platformReset_params { s with inputs := rest }

end Sys2Proof.Machine
end

section
/-! PROOF of O19 and O30: the writes that reach a busy block (70_reset_and_hazards.md R282), and the state after reset
(R271). -/
namespace Sys2Proof.Machine

/-- 10_state.md R27: bit 2 of a STATUS write is W1C on REJECT, and no other bit of STATUS is written. -/
theorem Status.hostWrite_eq (st : Status) (v : Word) :
    st.hostWrite v = { st with reject := if v.getLsbD 2 then false else st.reject } := by
  unfold Status.hostWrite
  cases v.getLsbD 2 with
  | true => simp
  | false => simp

/-- A busy host write outside the word of STATUS, and within the block, is dropped. -/
theorem hostAccess_write_dropped {sp : Space} {offset : Nat} (width : Nat) (v : Word) {s : State}
    (busy : s.status.busy = true) (outside : sp ≠ .reg ∨ (offset < 0x40 ∧ offset / 4 ≠ 1)) :
    hostAccess (.write sp offset width v) s = dropWrite s := by
  rw [hostAccess_write_busy sp offset width v busy]
  rcases outside with notReg | ⟨below, notStatus⟩
  · simp [notReg]
  · simp [Nat.not_le.mpr below, notStatus]

/-- A busy word write of STATUS has its W1C effect alone. -/
theorem hostAccess_write_status_busy (v : Word) {s : State} (busy : s.status.busy = true) :
    hostAccess (.write .reg 0x04 32 v) s = { s with status := s.status.hostWrite v } := by
  rw [hostAccess_write_busy .reg 0x04 32 v busy]
  simp

/-- 70_reset_and_hazards.md R282: a busy write outside the word of STATUS is dropped, whatever inputs follow. -/
theorem step_write_busy_dropped {s : State} {sp : Space} {off width : Nat} {v : Word} {rest : List Input}
    (busy : s.status.busy = true) (h : s.inputs = .access (.write sp off width v) :: rest)
    (outside : sp ≠ .reg ∨ (off < 0x40 ∧ off / 4 ≠ 1)) : step s = .next (dropWrite { s with inputs := rest }) := by
  rw [step_access h, hostAccess_write_dropped (s := { s with inputs := rest }) width v busy outside]

/-- 70_reset_and_hazards.md R282: a busy word write of STATUS has its W1C effect alone, whatever inputs follow. -/
theorem step_write_status_busy {s : State} {v : Word} {rest : List Input} (busy : s.status.busy = true)
    (h : s.inputs = .access (.write .reg 0x04 32 v) :: rest) :
    step s = .next { s with
      status := { s.status with reject := if v.getLsbD 2 then false else s.status.reject }, inputs := rest } := by
  rw [step_access h, hostAccess_write_status_busy (s := { s with inputs := rest }) v busy, Status.hostWrite_eq]

/-- Settles O19: a busy write is dropped outside the word of STATUS, and is W1C on REJECT at STATUS itself. -/
theorem busyWritesDropped : Obligations.BusyWritesDropped := by
  intro s sp off width v rest busy h
  refine ⟨step_write_busy_dropped busy h, ?status⟩
  case status =>
    rintro rfl rfl rfl
    exact step_write_status_busy busy h

/-- Every register of the state after reset reads 0 (70_reset_and_hazards.md R271). -/
theorem readReg_reset (r : Reg) : readReg r State.reset = 0 := by cases r <;> rfl

/-- Settles O30: the registers one by one; the rest is written in the state after reset. -/
theorem resetState : Obligations.ResetState := ⟨readReg_reset, rfl, rfl, rfl, rfl⟩

end Sys2Proof.Machine
end

section
/-! PROOF of O1, O2 and O4: the decoder and the encoder agree on every word, field by field of the word
(30_encoding.md R90 to R95). -/
namespace Sys2Proof.Machine

/-! ### Decoding an encoded command -/

/-- A word whose opcode has a mask and whose bits lie inside it is decoded by the opcode map (30_encoding.md R93). -/
theorem decode_eq_opcodeMap {w used : Word} (mask : usedMask (opField w) = some used) (inside : w &&& ~~~used = 0) :
    decode w = opcodeMap w := by
  simp only [decode, mask, inside, if_true]

/-- Settles O1: the opcode of an encoded command selects its row of the map, whose fields give the operands back. -/
theorem decodeEncodeRoundTrip : Obligations.DecodeEncodeRoundTrip := by
  intro i wf
  cases i with
  | setbit => decide
  | getbit => decide
  | setint w =>
    obtain ⟨op, width, inside⟩ := Laws.OpcodeField.setint w (of_decide_eq_true wf)
    rw [decode_eq_opcodeMap (by rw [op, usedMask]) inside]
    simp only [opcodeMap, op, width]
  | getint w =>
    obtain ⟨op, width, inside⟩ := Laws.OpcodeField.getint w (of_decide_eq_true wf)
    rw [decode_eq_opcodeMap (by rw [op, usedMask]) inside]
    simp only [opcodeMap, op, width]
  | compress maxw blk =>
    obtain ⟨op, width, mode, inside⟩ := Laws.OpcodeField.compress maxw blk (of_decide_eq_true wf)
    rw [decode_eq_opcodeMap (by rw [op, usedMask]) inside]
    simp only [opcodeMap, op, width, mode]
  | decompress => decide

/-! ### Encoding a decoded word -/

/-- What a word that decodes satisfies: its opcode has a mask, its bits lie inside it, and the map gives the command. -/
theorem decode_ok {w : Word} {i : Instr} (h : decode w = .ok i) :
    ∃ used, usedMask (opField w) = some used ∧ w &&& ~~~used = 0 ∧ opcodeMap w = .ok i := by
  cases mask : usedMask (opField w) with
  | none => simp [decode, mask] at h
  | some used =>
    by_cases inside : w &&& ~~~used = 0
    · exact ⟨used, rfl, inside, decode_eq_opcodeMap mask inside ▸ h⟩
    · rw [decode, mask] at h
      simp only [inside, if_false, reduceCtorEq] at h

/-- A field taken out of a word and put back in its place is the word under the field's mask. -/
theorem word_extract_shiftLeft (w mask : Word) (start len : Nat)
    (bits : ∀ k < 32, mask.getLsbD k = decide (start ≤ k ∧ k < start + len)) :
    word (w.extractLsb' start len).toNat <<< start = w &&& mask := by
  refine BitVec.eq_of_getLsbD_eq fun k hk => ?_
  rw [BitVec.getLsbD_and, bits k hk, BitVec.getLsbD_shiftLeft, word, BitVec.getLsbD_ofNat, BitVec.testBit_toNat,
    BitVec.getLsbD_extractLsb']
  by_cases below : k < start
  · simp [below, Nat.not_le.mpr below]
  · have position : start + (k - start) = k := by omega
    by_cases inside : k < start + len
    · have h1 : k - start < 32 := by omega
      have h2 : k - start < len := by omega
      have h3 : start ≤ k := by omega
      simp only [hk, below, h1, h2, h3, inside, position, decide_true, decide_false, Bool.not_false, and_self,
        Bool.true_and, Bool.and_true]
    · have h2 : ¬k - start < len := by omega
      simp only [inside, h2, decide_false, Bool.false_and, and_false, Bool.and_false]

theorem word_opField (w : Word) : word (opField w) = w &&& 0x0000000F#32 := by
  rw [← word_extract_shiftLeft w 0x0000000F#32 0 4 (by decide), BitVec.shiftLeft_zero, opField]

theorem word_widthField (w : Word) : word (widthField w) <<< 8 = w &&& 0x00001F00#32 :=
  word_extract_shiftLeft w _ 8 5 (by decide)

theorem word_maxwField (w : Word) : word (maxwField w) <<< 16 = w &&& 0x001F0000#32 :=
  word_extract_shiftLeft w _ 16 5 (by decide)

theorem word_blkField (w : Word) : word (blkField w).toNat <<< 24 = w &&& 0x01000000#32 := by
  have oneBit : (blkField w).toNat = (w.extractLsb' 24 1).toNat := by
    refine Nat.eq_of_testBit_eq fun k => ?_
    rw [BitVec.testBit_toNat, BitVec.getLsbD_extractLsb', blkField]
    cases k with
    | zero => cases w.getLsbD 24 <;> rfl
    | succ k => cases w.getLsbD 24 <;> simp [Nat.testBit_succ]
  rw [oneBit]
  exact word_extract_shiftLeft w _ 24 1 (by decide)

/-- A word inside a mask is the word under that mask. -/
theorem and_used_eq_self {w used : Word} (inside : w &&& ~~~used = 0) : w &&& used = w := by
  have split : (w &&& used) ||| (w &&& ~~~used) = w := by
    rw [← BitVec.and_or_distrib_left, BitVec.or_not_self, BitVec.and_allOnes]
  rw [inside] at split
  exact BitVec.or_zero.symm.trans split

theorem widthField_lt (w : Word) : widthField w < 32 := (w.extractLsb' 8 5).isLt

theorem maxwField_lt (w : Word) : maxwField w < 32 := (w.extractLsb' 16 5).isLt

/-- Settles O2: a word inside the mask of its opcode is the union of its fields, and that is what `encode` writes. -/
theorem decodedWordEncodesBack : Obligations.DecodedWordEncodesBack := by
  intro w i h
  obtain ⟨used, mask, inside, map⟩ := decode_ok h
  have whole := and_used_eq_self inside
  have opWord := word_opField w
  rw [opcodeMap] at map
  rcases (usedMask_eq_some_iff used _).mp mask with ⟨op | op | op, rfl⟩ | ⟨op | op, rfl⟩ | ⟨op, rfl⟩ <;>
    rw [op] at map opWord <;> cases map
  case inl.inl | inl.inr.inl | inl.inr.inr => exact ⟨rfl, opWord.trans whole⟩
  case inr.inl.inl | inr.inl.inr =>
    refine ⟨decide_eq_true (widthField_lt w), ?_⟩
    calc encode _ = (w &&& 0x0000000F#32) ||| (w &&& 0x00001F00#32) := by rw [encode, word_widthField, ← opWord]
      _ = w := by rw [← BitVec.and_or_distrib_left]; exact whole
  case inr.inr =>
    refine ⟨decide_eq_true (maxwField_lt w), ?_⟩
    calc encode _ = (w &&& 0x0000000F#32) ||| (w &&& 0x001F0000#32) ||| (w &&& 0x01000000#32) := by
          rw [encode, word_maxwField, word_blkField, ← opWord]
      _ = w := by rw [← BitVec.and_or_distrib_left, ← BitVec.and_or_distrib_left]; exact whole

/-- Settles O4: the decoder evaluated at the nine words. -/
theorem opcodeMapWords : Obligations.OpcodeMapWords := by
  unfold Obligations.OpcodeMapWords
  decide

end Sys2Proof.Machine
end

section
/-! PROOF of O12 to O15: the laws of the BitField commands, from what a successful command writes. -/
namespace Sys2Proof.Machine

/-! ### Reading inside the BitField -/

/-- 40_bitfield.md R131: the growth step of a position inside a BitField that fits its store does nothing. -/
theorem BitField.ensureBit_inside {P : Params} {bf : BitField} {p : Nat} (fits : bf.size.toNat ≤ P.bfCap)
    (inside : p < 8 * bf.size.toNat) : bf.ensureBit P p = .ok bf := by
  rw [BitField.ensureBit, if_neg (by omega), if_neg (by omega)]

/-- Settles O15: inside the BitField GETBIT's growth step does nothing, so only RESULT is written. -/
theorem getbitInsideReadsOnly : Obligations.GetbitInsideReadsOnly := by
  intro s fits inside
  have result : word (s.bf.bit s.pos).toNat = if s.bf.bit s.arg0.toNat = true then 1 else 0 := by
    cases s.bf.bit s.arg0.toNat <;> rfl
  exact exec_eq_next (result ▸ getbitEnd_ok fits (BitField.ensureBit_inside fits inside))

/-! ### What a successful command leaves -/

theorem failedWith_ne_success (s : State) {e : ErrCode} (h : e ≠ .none) : (s.failedWith e).status.err ≠ .none := h

/-- A SETINT that ended without error fitted its value in its width, and left it in the BitField. -/
theorem setint_success {w : Nat} {s t : State} (run : exec (.setint w) s = .next t) (ok : t.status.err = .none) :
    s.value < 2 ^ w ∧ s.bf.writtenWith t.bf s.pos w s.value := by
  cases (exec_eq _ s).symm.trans run
  rcases setintEnd_cases w s with ⟨-, ended⟩ | ended | ⟨bf, written, ended⟩ <;> rw [endOf, ended] at ok ⊢
  · exact absurd ok (failedWith_ne_success s ErrCode.noConfusion)
  · exact absurd ok (failedWith_ne_success s ErrCode.noConfusion)
  · obtain ⟨fits, -, isWritten⟩ := BitField.setInt_spec written
    exact ⟨fits, isWritten⟩

/-- A SETBIT that ended without error had a bit as its value, and left it in the BitField. -/
theorem setbit_success {s t : State} (run : exec .setbit s = .next t) (ok : t.status.err = .none) :
    s.value < 2 ^ 1 ∧ s.bf.writtenWith t.bf s.pos 1 s.value :=
  setint_success (w := 1) ((congrArg Host.Outcome.next (setbitEnd_eq_setintEnd_one s)).symm.trans run) ok

/-- A GETBIT that ended without error grew the BitField for its position. -/
theorem getbit_success {s t : State} (run : exec .getbit s = .next t) (ok : t.status.err = .none) :
    s.bf.grownFor t.bf s.pos := by
  cases (exec_eq _ s).symm.trans run
  rcases getbitEnd_cases s with ended | ⟨bf, grown, ended⟩ <;> rw [endOf, ended] at ok ⊢
  · exact absurd ok (failedWith_ne_success s ErrCode.noConfusion)
  · exact (BitField.ensureBit_spec grown).2

theorem getintEnd_bf (w : Nat) (s : State) : (getintEnd w s).bf = s.bf := by
  rcases getintEnd_cases w s with ended | ⟨-, -, ended⟩ | ⟨_, -, ended⟩ <;> rw [ended] <;> rfl

/-- The BitField that a write left reaches past the last bit written. -/
theorem BitField.writtenWith_end {bf bf' : BitField} {p w v : Nat} (h : bf.writtenWith bf' p w v) (hw : 0 < w) :
    p + w ≤ 8 * bf'.size.toNat := by
  obtain ⟨-, size, -, -⟩ := h
  rw [size, if_neg (by omega)]
  omega

/-- An integer stays where its bits and the order stay. -/
theorem BitField.holdsInt_congr {bf bf' : BitField} {p w v : Nat} (h : bf.holdsInt p w v) (order : bf'.order = bf.order)
    (bits : ∀ q, p ≤ q → q < p + w → bf'.bit q = bf.bit q) : bf'.holdsInt p w v := by
  obtain ⟨fits, held⟩ := h
  refine ⟨fits, fun i hi => ?_⟩
  rw [bits (p + i) (Nat.le_add_right _ _) (Nat.add_lt_add_left hi p), held i hi, order]

/-! ### The laws -/

/-- Settles O12: the bit lies inside the later BitField and is the one SETBIT wrote. -/
theorem bitLaw : Obligations.BitLaw := by
  intro s t u _ run ok _ position _ grown fits kept
  obtain ⟨isBit, written⟩ := setbit_success run ok
  have inside : u.arg0.toNat < 8 * u.bf.size.toNat := by
    have : s.arg0.toNat + 1 ≤ _ := BitField.writtenWith_end written Nat.one_pos
    rw [position]
    omega
  have bit : u.bf.bit u.arg0.toNat = s.arg1.toNat.testBit 0 := by
    obtain ⟨-, held⟩ := BitField.writtenWith_holdsInt isBit written
    rw [position, kept]
    refine (held 0 Nat.one_pos).trans ?_
    rw [orderedBit_eq]
    cases t.bf.order <;> rfl
  have result : (if u.bf.bit u.arg0.toNat = true then 1 else 0) = s.arg1 := by
    have two : s.arg1.toNat = 0 ∨ s.arg1.toNat = 1 := by
      have : s.arg1.toNat < 2 := isBit
      omega
    rw [bit]
    rcases two with h | h <;> rw [h] <;> exact (BitVec.eq_of_toNat_eq h).symm
  exact result ▸ getbitInsideReadsOnly u fits inside

/-- Settles O13: the positions still hold the integer, so GETINT reads it; at width 0 there is nothing to read. -/
theorem integerLaw : Obligations.IntegerLaw := by
  intro s t u w _ _ run ok _ position order grown fits kept
  obtain ⟨inWidth, written⟩ := setint_success run ok
  have samePos : u.pos = s.pos := congrArg BitVec.toNat position
  have holds : u.bf.holdsInt u.pos w s.value :=
    samePos ▸ BitField.holdsInt_congr (BitField.writtenWith_holdsInt inWidth written) order kept
  refine ⟨fun enough => ?reads, fun noWidth beyond => ?lacks⟩
  case reads =>
    have inside : u.pos + w ≤ 8 * u.bf.size.toNat := by
      have reach : 0 < w → s.arg0.toNat + w ≤ _ := BitField.writtenWith_end written
      rw [samePos, State.pos]
      omega
    have value : word s.value = s.arg1 := BitVec.ofNat_toNat 32 s.arg1
    exact exec_eq_next (value ▸ getintEnd_ok fits (BitField.getInt_of_holdsInt inside holds))
  case lacks =>
    exact exec_eq_next (getintEnd_nodata fits (BitField.getInt_none (by rw [samePos, State.pos]; omega)))

/-- What a successful BitField command of a sequence does to BF_SIZE. -/
theorem BfCommand.size_after {c : BfCommand} {s u : State} (isBf : isBitField c.instr = true)
    (run : exec c.instr (c.start s) = .next u) (ok : u.status.err = .none) :
    u.bf.size.toNat = max s.bf.size.toNat c.reach := by
  obtain ⟨i, pos, value⟩ := c
  cases i with
  | setbit =>
    obtain ⟨-, -, size, -⟩ := setbit_success run ok
    exact size
  | getbit =>
    obtain ⟨-, size, -⟩ := getbit_success run ok
    exact size
  | setint w =>
    obtain ⟨-, -, size, -⟩ := setint_success run ok
    refine size.trans ?_
    show (if w = 0 then s.bf.size.toNat else max s.bf.size.toNat ((pos.toNat + w - 1) / 8 + 1)) =
      max s.bf.size.toNat (if w = 0 then 0 else (pos.toNat + w - 1) / 8 + 1)
    by_cases hw : w = 0 <;> simp [hw]
  | getint w =>
    cases (exec_eq _ _).symm.trans run
    exact (congrArg (·.size.toNat) (getintEnd_bf w _)).trans (Nat.max_zero _).symm
  | compress maxw blk => cases isBf
  | decompress => cases isBf

/-- The size law from any BF_SIZE. -/
theorem runsTo_size {cs : List BfCommand} {s t : State} (allBf : ∀ c ∈ cs, isBitField c.instr = true)
    (run : runsTo cs s t) : t.bf.size.toNat = (cs.map BfCommand.reach).foldl max s.bf.size.toNat := by
  induction cs generalizing s with
  | nil => rw [show t = s from run]; rfl
  | cons c cs ih =>
    obtain ⟨u, step, ok, rest⟩ := run
    rw [ih (fun d hd => allBf d (List.mem_cons_of_mem _ hd)) rest,
      BfCommand.size_after (allBf c List.mem_cons_self) step ok]
    rfl

/-- Settles O14: each command raises BF_SIZE to its reach, and the first starts from 0. -/
theorem sizeLaw : Obligations.SizeLaw := by
  intro cs s t allBf empty run
  rw [runsTo_size allBf run, empty]
  rfl

end Sys2Proof.Machine
end

section
/-! PROOF of O5, O16, O17, O20, O22 to O24, O31 and O32: one host access, one engine's turn or one reset of the
platform (10_state.md R23 to R39, 20_memory.md R60 to R67, 70_reset_and_hazards.md R270, R283). -/
namespace Sys2Proof.Machine

/-! ### The engine's turn -/

/-- A busy engine runs the command its latched word decodes to. -/
theorem engineTurn_decoded {s : State} {i : Instr} (busy : s.status.busy = true) (h : decode s.cmd = .ok i) :
    engineTurn s = exec i s := by
  simp [engineTurn, runCommand, busy, h]

theorem engineTurn_idle {s : State} (idle : s.status.busy = false) : engineTurn s = .next s := by
  simp [engineTurn, idle]

/-- Settles O5: with no input left, or with its turn next, the engine runs the latched command. -/
theorem stepRunsLatchedCommand : Obligations.StepRunsLatchedCommand := fun _ _ busy isCommand =>
  ⟨fun empty => (step_empty empty).trans (engineTurn_decoded busy isCommand),
    fun _ h => step_engine_decoded h busy isCommand⟩

/-- Settles O32: an idle engine's turn changes nothing, taken from the inputs or not. -/
theorem idleKeepsState : Obligations.IdleKeepsState := fun s idle =>
  ⟨fun empty => (step_empty empty).trans (engineTurn_idle idle),
    fun rest h => (step_engine h).trans (engineTurn_idle (s := { s with inputs := rest }) idle)⟩

/-- The registers of a block the platform has reset (70_reset_and_hazards.md R271). -/
theorem readReg_platformReset (r : Reg) (s : State) : readReg r (platformReset s) = 0 := by cases r <;> rfl

/-- Settles O31: the platform's reset, taken from the inputs. -/
theorem platformResetAbandons : Obligations.PlatformResetAbandons := fun _ _ h =>
  ⟨_, step_reset h, fun r => readReg_platformReset r _, rfl, rfl, rfl, rfl, rfl⟩

/-! ### The registers -/

/-- Settles O16: STATUS for each of its eight error codes and every value of its three flags. -/
theorem statusWordLayout : Obligations.StatusWordLayout := by
  refine ⟨fun ⟨busy, nodata, reject, err⟩ => ?_, rfl, rfl, rfl, rfl, rfl, rfl, rfl, rfl⟩
  revert busy nodata reject
  cases err <;> decide

/-- A step that takes a host access. -/
theorem step_given_access (s : State) (a : Access) (rest : List Input) :
    step { s with inputs := .access a :: rest } = .next (hostAccess a { s with inputs := rest }) := step_access rfl

theorem step_write_reg_idle (r : Reg) (v : Word) {s : State} (rest : List Input) (idle : s.status.busy = false) :
    step { s with inputs := .access (.write .reg (regOffset r) 32 v) :: rest } =
      .next (writeReg r v { s with inputs := rest }) :=
  (step_given_access s _ rest).trans (congrArg Host.Outcome.next (hostAccess_write_reg_idle r v (s := { s with inputs := rest }) idle))

theorem step_read_reg_idle (r : Reg) {s : State} (rest : List Input) (idle : s.status.busy = false) :
    step { s with inputs := .access (.read .reg (regOffset r) 32) :: rest } =
      .next { s with rdata := readReg r { s with inputs := rest }, inputs := rest } :=
  (step_given_access s _ rest).trans (congrArg Host.Outcome.next (hostAccess_read_reg_idle r (s := { s with inputs := rest }) idle))

theorem ctrlWord_eq (order : BitOrder) : ctrlWord order = if order = .lsbFirst then 1 else 0 := by
  cases order <;> rfl

/-- Settles O17: each access is one of the register it names. -/
theorem registerMap : Obligations.RegisterMap := by
  intro s v rest idle
  have write := fun r => step_write_reg_idle r v rest idle
  have read := fun r => step_read_reg_idle r rest idle
  have status := write .status
  rw [writeReg, Status.hostWrite_eq] at status
  have ctrl := read .ctrl
  rw [readReg, ctrlWord_eq] at ctrl
  exact ⟨write .ctrl, status, write .arg0, write .arg1, write .bfSize, write .dataLen, write .result, write .errCode,
    write .errExpect, write .errBitpos, ctrl, read .status, read .cmd, read .arg0, read .arg1, read .result,
    read .bfSize, read .dataLen, read .errCode, read .errExpect, read .errBitpos⟩

/-! ### Reads while busy -/

/-- The bits of STATUS that are true while busy, and the reserved ones (20_memory.md R73, 10_state.md R29). -/
theorem Status.busyWord_bits (st : Status) (free : Word) :
    (st.busyWord free).getLsbD 0 = true ∧ (st.busyWord free).getLsbD 2 = st.reject ∧
      (st.busyWord free).getLsbD 3 = false ∧ (st.busyWord free).extractLsb' 8 24 = 0 := by
  have mask : ∀ k < 24, (0x000000F2#32).getLsbD (8 + k) = false := by decide
  have flags : ∀ r : Bool, ∀ k < 24, (BitVec.ofNat 32 (1 + 4 * r.toNat)).getLsbD (8 + k) = false := by decide
  refine ⟨?_, ?_, ?_, BitVec.eq_of_getLsbD_eq fun k hk => ?_⟩
  case refine_4 =>
    rw [BitVec.getLsbD_extractLsb', Status.busyWord, BitVec.getLsbD_or, BitVec.getLsbD_and, mask k hk, flags _ k hk]
    simp
  all_goals rw [Status.busyWord, BitVec.getLsbD_or, BitVec.getLsbD_and]; cases st.reject <;> simp

/-- A read of STATUS while busy (70_reset_and_hazards.md R283). -/
theorem hostAccess_read_status_busy {s : State} (busy : s.status.busy = true) :
    hostAccess (.read .reg 0x04 32) s = answerBusyStatus s := by
  simp [hostAccess, readRegSpace, regSpaceSize, regAccessOk, regAt, busy]

/-- Settles O20: any read changes what the host gets alone, and STATUS shows BUSY and REJECT. -/
theorem busyReads : Obligations.BusyReads := by
  intro s t sp off width rest busy h next
  cases (step_access h).symm.trans next
  refine ⟨?frame, ?status⟩
  case frame =>
    obtain ⟨d, n, read⟩ := hostAccess_read sp off width { s with inputs := rest }
    rw [read]
  case status =>
    rintro rfl rfl rfl
    rw [hostAccess_read_status_busy (s := { s with inputs := rest }) busy]
    exact Status.busyWord_bits _ _

/-! ### The byte windows -/

theorem readWindow_idle {cap offset : Nat} {b : Byte} {s : State} (idle : s.status.busy = false) :
    readWindow cap offset 8 b s = answer (if offset < cap then b.setWidth 32 else 0) s := by
  by_cases inside : offset < cap <;> simp [readWindow, inside, idle]

/-- A window access of another width than 8 bits reads 0 (20_memory.md R67). -/
theorem readWindow_badWidth {cap offset width : Nat} {b : Byte} {s : State} (bad : width ≠ 8) :
    readWindow cap offset width b s = answer 0 s := by
  simp [readWindow, bad]

theorem writeBfbIdle_inside {offset : Nat} {v : Word} {s : State} (inside : offset < s.params.bfCap) :
    writeBfbIdle offset 8 v s = { s with bf := { s.bf with bytes := s.bf.bytes.write offset (v.setWidth 8) } } := by
  simp [writeBfbIdle, inside]

theorem writeBfbIdle_ignored {offset width : Nat} {v : Word} {s : State} (h : ¬(width = 8 ∧ offset < s.params.bfCap)) :
    writeBfbIdle offset width v s = s := if_neg h

theorem writeDatabIdle_inside {offset : Nat} {v : Word} {s : State} (inside : offset < s.params.dataCap) :
    writeDatabIdle offset 8 v s = { s with data := s.data.write offset (v.setWidth 8) } := by
  simp [writeDatabIdle, inside]

theorem writeDatabIdle_ignored {offset width : Nat} {v : Word} {s : State}
    (h : ¬(width = 8 ∧ offset < s.params.dataCap)) : writeDatabIdle offset width v s = s := if_neg h

/-- Settles O22: the windows below the capacity, where a write is a write of the store, and beyond it. -/
theorem byteWindows : Obligations.ByteWindows := by
  intro s i v rest idle
  have idle' : ({ s with inputs := rest } : State).status.busy = false := idle
  simp only [step_given_access, hostAccess, readWindow_idle idle', writeUnlessBusy_idle idle']
  have readBack (id : StoreId) (m : Memory) (j : Nat) :
      (m.write i (v.setWidth 8)).read id j = if j = i then v.setWidth 8 else m.read id j := by
    rw [Memory.read_write]
    simp only [eq_comm]
  exact ⟨rfl, rfl,
    fun beyond => congrArg _ (writeBfbIdle_ignored (Nat.not_lt.mpr beyond ·.2)),
    fun beyond => congrArg _ (writeDatabIdle_ignored (Nat.not_lt.mpr beyond ·.2)),
    fun inside => ⟨_, congrArg _ (writeBfbIdle_inside inside), readBack .bf _⟩,
    fun inside => ⟨_, congrArg _ (writeDatabIdle_inside inside), readBack .data _⟩⟩

/-! ### Accesses of another width or alignment, and reserved offsets -/

/-- An access that 20_memory.md R67 ignores. -/
abbrev IllFormed (sp : Space) (off width : Nat) : Prop :=
  (sp = .reg ∧ off < 0x40 ∧ (width ≠ 32 ∨ off % 4 ≠ 0)) ∨ (sp ≠ .reg ∧ width ≠ 8)

theorem regAccessOk_false {off width : Nat} (bad : width ≠ 32 ∨ off % 4 ≠ 0) : regAccessOk off width = false := by
  rcases bad with h | h <;> simp [regAccessOk, h]

theorem hostAccess_read_illFormed {sp : Space} {off width : Nat} (bad : IllFormed sp off width) (s : State) :
    hostAccess (.read sp off width) s = answer 0 s := by
  rcases bad with ⟨rfl, below, bad⟩ | ⟨window, bad⟩
  · have reached : ¬regSpaceSize ≤ off := Nat.not_le.mpr below
    simp [hostAccess, readRegSpace, reached, regAccessOk_false bad]
  · cases sp with
    | reg => exact absurd rfl window
    | bfb => exact readWindow_badWidth bad
    | datab => exact readWindow_badWidth bad

/-- An ill-formed write is ignored while idle, and in the word of STATUS while busy too (log 12). -/
theorem hostAccess_write_illFormed {sp : Space} {off width : Nat} {v : Word} {s : State} (bad : IllFormed sp off width)
    (ignored : s.status.busy = false ∨ (sp = .reg ∧ off / 4 = 1)) : hostAccess (.write sp off width v) s = s := by
  rcases bad with ⟨rfl, below, bad⟩ | ⟨window, bad⟩
  · have reached : ¬regSpaceSize ≤ off := Nat.not_le.mpr below
    have idleWrite : writeRegIdle off width v s = s := by simp [writeRegIdle, regAccessOk_false bad]
    rcases ignored with idle | ⟨-, inStatus⟩
    · simp [hostAccess, writeRegSpace, reached, idleWrite, idle]
    · simp [hostAccess, writeRegSpace, reached, idleWrite, inStatusWord, inStatus]
  · have idle : s.status.busy = false := ignored.resolve_right (window ·.1)
    cases sp with
    | reg => exact absurd rfl window
    | bfb => exact (writeUnlessBusy_idle idle).trans (writeBfbIdle_ignored (bad ·.1))
    | datab => exact (writeUnlessBusy_idle idle).trans (writeDatabIdle_ignored (bad ·.1))

/-- Settles O23: such a read gives 0, and such a write is ignored or, busy and outside the word of STATUS, dropped. -/
theorem illFormedAccesses : Obligations.IllFormedAccesses := by
  intro s sp off width v rest bad
  refine ⟨fun h => ?_, fun h => ⟨fun ignored => ?_, fun busy outside => ?_⟩⟩
  · rw [step_access h, hostAccess_read_illFormed bad]
    rfl
  · rw [step_access h, hostAccess_write_illFormed (s := { s with inputs := rest }) bad ignored]
  · have within : sp ≠ .reg ∨ (off < 0x40 ∧ off / 4 ≠ 1) := by
      rcases bad with ⟨isReg, below, -⟩ | ⟨window, -⟩
      · exact .inr ⟨below, fun inStatus => outside ⟨isReg, inStatus⟩⟩
      · exact .inl window
    exact step_write_busy_dropped busy h within

/-- 10_state.md R39: no register lies at or above 0x2C. -/
theorem regAt_reserved {off : Nat} (h : 0x2C ≤ off) : regAt off = none := by
  unfold regAt
  split
  case h_12 => rfl
  all_goals omega

/-- Settles O24: the reserved offsets hold no register, and the offsets from 0x40 on are not the block's. -/
theorem reservedOffsets : Obligations.ReservedOffsets := by
  intro s off width v rest
  refine ⟨fun above below aligned idle => ⟨?_, ?_⟩, fun beyond => ⟨?_, ?_⟩⟩
  · have reached : ¬regSpaceSize ≤ off := Nat.not_le.mpr below
    rw [step_given_access]
    simp [hostAccess, readRegSpace, reached, regAccessOk, aligned, regAt_reserved above, answer]
  · have reached : ¬regSpaceSize ≤ off := Nat.not_le.mpr below
    rw [step_given_access]
    simp [hostAccess, writeRegSpace, reached, writeRegIdle, regAccessOk, aligned, regAt_reserved above, idle]
  · rw [step_given_access]
    simp [hostAccess, writeRegSpace, regSpaceSize, beyond]
  · obtain ⟨d, n, read⟩ := hostAccess_read .reg off width { s with inputs := rest }
    exact ⟨_, step_given_access s _ rest, by rw [read]⟩

end Sys2Proof.Machine
end

section
/-! PROOF of O21, O33 and O57: what host accesses do to REJECT, and runs of accesses while a command is running
(70_reset_and_hazards.md R281 to R283). -/
namespace Sys2Proof.Machine

/-! ### REJECT -/

/-- Only a write of STATUS writes REJECT by way of a register. -/
theorem writeReg_reject {r : Reg} (other : r ≠ .status) (v : Word) (s : State) :
    (writeReg r v s).status.reject = s.status.reject := by
  cases r
  case status => exact absurd rfl other
  all_goals rfl

theorem regAt_eq_status {offset : Nat} (h : regAt offset = some .status) : offset = 4 := by
  unfold regAt at h
  split at h
  case h_2 => rfl
  all_goals cases h

/-- An idle register write outside the word of STATUS keeps REJECT. -/
theorem writeRegIdle_reject {offset : Nat} (width : Nat) (v : Word) (s : State) (outside : offset ≠ 4) :
    (writeRegIdle offset width v s).status.reject = s.status.reject := by
  unfold writeRegIdle
  split
  · split
    · rfl
    · next r at_ => exact writeReg_reject (fun isStatus => outside (regAt_eq_status (isStatus ▸ at_))) v s
  · rfl

theorem writeBfbIdle_reject (offset width : Nat) (v : Word) (s : State) :
    (writeBfbIdle offset width v s).status.reject = s.status.reject := by unfold writeBfbIdle; split <;> rfl

theorem writeDatabIdle_reject (offset width : Nat) (v : Word) (s : State) :
    (writeDatabIdle offset width v s).status.reject = s.status.reject := by unfold writeDatabIdle; split <;> rfl

/-- Everything a host write can do to REJECT: the W1C write of STATUS, a drop while busy, or nothing (10_state.md R27,
70_reset_and_hazards.md R282). -/
theorem hostAccess_write_reject (sp : Space) (offset width : Nat) (v : Word) (s : State) :
    ((sp = .reg ∧ offset = 4 ∧ width = 32) ∧
        hostAccess (.write sp offset width v) s = { s with status := s.status.hostWrite v }) ∨
      ((s.status.busy = true ∧ (sp = .reg → offset < 0x40 ∧ offset ≠ 4)) ∧
        hostAccess (.write sp offset width v) s = dropWrite s) ∨
      (hostAccess (.write sp offset width v) s).status.reject = s.status.reject := by
  cases sp with
  | reg =>
    by_cases beyond : 0x40 ≤ offset
    · exact .inr (.inr (by simp [hostAccess, writeRegSpace, regSpaceSize, beyond]))
    have reached : ¬regSpaceSize ≤ offset := beyond
    by_cases inStatus : inStatusWord offset = true
    · have access : hostAccess (.write .reg offset width v) s =
          if offset = 4 ∧ width = 32 then { s with status := s.status.hostWrite v } else s := by
        rw [hostAccess, writeRegSpace, if_neg reached, if_pos inStatus, writeRegIdle_status width v s inStatus]
      by_cases isStatus : offset = 4 ∧ width = 32
      · exact .inl ⟨⟨rfl, isStatus⟩, access.trans (if_pos isStatus)⟩
      · exact .inr (.inr (by rw [access, if_neg isStatus]))
    · have notFour : offset ≠ 4 := by rintro rfl; exact inStatus rfl
      have access : hostAccess (.write .reg offset width v) s = writeUnlessBusy (writeRegIdle offset width v) s := by
        rw [hostAccess, writeRegSpace, if_neg reached, if_neg inStatus]
      cases busy : s.status.busy with
      | true => exact .inr (.inl ⟨⟨rfl, fun _ => ⟨by omega, notFour⟩⟩, access.trans (writeUnlessBusy_busy busy)⟩)
      | false =>
        exact .inr (.inr (by rw [access, writeUnlessBusy_idle busy]; exact writeRegIdle_reject width v s notFour))
  | bfb =>
    cases busy : s.status.busy with
    | true => exact .inr (.inl ⟨⟨rfl, nofun⟩, writeUnlessBusy_busy busy⟩)
    | false => exact .inr (.inr (by rw [hostAccess, writeUnlessBusy_idle busy]; exact writeBfbIdle_reject ..))
  | datab =>
    cases busy : s.status.busy with
    | true => exact .inr (.inl ⟨⟨rfl, nofun⟩, writeUnlessBusy_busy busy⟩)
    | false => exact .inr (.inr (by rw [hostAccess, writeUnlessBusy_idle busy]; exact writeDatabIdle_reject ..))

/-- A write of STATUS that clears REJECT has its bit 2 set, and none sets it. -/
theorem hostWrite_reject_of_ne {st : Status} {v : Word} (changed : (st.hostWrite v).reject ≠ st.reject) :
    (st.hostWrite v).reject = false ∧ v.getLsbD 2 = true := by
  rw [Status.hostWrite_eq] at changed ⊢
  by_cases bit : v.getLsbD 2 = true
  · exact ⟨if_pos bit, bit⟩
  · exact absurd (if_neg bit) changed

/-- A step that changes REJECT took a W1C write of STATUS, a write dropped while busy, or the platform's reset. -/
theorem step_changes_reject {s t : State} (next : step s = .next t) (changed : t.status.reject ≠ s.status.reject) :
    (t.status.reject = false ∧ ∃ v rest, v.getLsbD 2 = true ∧ s.inputs = .access (.write .reg 0x04 32 v) :: rest) ∨
      (t.status.reject = true ∧ s.status.busy = true ∧
        ∃ sp off width v rest, s.inputs = .access (.write sp off width v) :: rest ∧
          (sp = .reg → off < 0x40 ∧ off ≠ 0x04)) ∨
      (t.status.reject = false ∧ ∃ rest, s.inputs = .reset :: rest) := by
  rcases step_cases s with ⟨-, step⟩ | ⟨_, rest, given, ⟨a, rfl, step⟩ | ⟨-, step⟩ | ⟨rfl, step⟩⟩ <;>
    cases step.symm.trans next
  case inl =>
    obtain ⟨-, kept, -⟩ := turnOf_frame s
    exact absurd kept changed
  case inr.inl =>
    cases a with
    | read sp off width =>
      obtain ⟨d, n, read⟩ := hostAccess_read sp off width { s with inputs := rest }
      rw [read] at changed
      exact absurd rfl changed
    | write sp off width v =>
      rcases hostAccess_write_reject sp off width v { s with inputs := rest } with
        ⟨⟨rfl, rfl, rfl⟩, access⟩ | ⟨⟨busy, within⟩, access⟩ | kept
      · rw [access] at changed ⊢
        obtain ⟨cleared, bit⟩ := hostWrite_reject_of_ne changed
        exact .inl ⟨cleared, v, rest, bit, given⟩
      · rw [access]
        exact .inr (.inl ⟨rfl, busy, sp, off, width, v, rest, given, within⟩)
      · exact absurd kept changed
  case inr.inr.inl =>
    obtain ⟨-, kept, -⟩ := turnOf_frame { s with inputs := rest }
    exact absurd kept changed
  case inr.inr.inr => exact .inr (.inr ⟨rfl, rest, given⟩)

/-- Settles O21: the three kinds of step that change REJECT, and which way each does. -/
theorem rejectChangesOnlyByHost : Obligations.RejectChangesOnlyByHost := by
  intro s t next
  refine ⟨fun was is => ?rises, fun was is => ?falls⟩
  case rises =>
    rcases step_changes_reject next (by rw [was, is]; exact Bool.noConfusion) with ⟨low, -⟩ | ⟨-, rise⟩ | ⟨low, -⟩
    · exact absurd (low.symm.trans is) Bool.noConfusion
    · exact rise
    · exact absurd (low.symm.trans is) Bool.noConfusion
  case falls =>
    rcases step_changes_reject next (by rw [was, is]; exact Bool.noConfusion) with ⟨-, write⟩ | ⟨high, -⟩ | ⟨-, reset⟩
    · exact .inl write
    · exact absurd (high.symm.trans is) Bool.noConfusion
    · exact .inr reset

/-! ### Accesses before the engine's turn -/

theorem run_succ {s s' : State} (k : Nat) (h : step s = .next s') :
    Host.Core.run Sys2Proof.core (k + 1) s = Host.Core.run Sys2Proof.core k s' := by
  have taken : Sys2Proof.core.step s = .next s' := h
  simp [Host.Core.run, taken]

/-- While the block is busy any accesses change the host's side alone. -/
theorem run_busy_accesses (as : List Access) {s : State} (k : Nat) (tail : List Input) (busy : s.status.busy = true) :
    ∃ r d n, Host.Core.run Sys2Proof.core (as.length + k) { s with inputs := as.map .access ++ tail } =
      Host.Core.run Sys2Proof.core k (s.withHostSide r d n tail) := by
  induction as generalizing s with
  | nil => exact ⟨s.status.reject, s.rdata, s.freeCount, by rw [List.length_nil, Nat.zero_add]; rfl⟩
  | cons a as ih =>
    obtain ⟨r, d, n, access⟩ := hostAccess_busy a (s := { s with inputs := as.map .access ++ tail }) busy
    obtain ⟨r', d', n', run⟩ := ih (s := s.withHostSide r d n s.inputs) busy
    refine ⟨r', d', n', Eq.trans ?_ run⟩
    rw [List.length_cons, Nat.add_right_comm]
    exact run_succ _ ((step_given_access s a _).trans (congrArg Host.Outcome.next access))

theorem step_given_engine (s : State) (rest : List Input) :
    step { s with inputs := .engine :: rest } = .next (turnOf { s with inputs := rest }) :=
  (step_engine rfl).trans (engineTurn_eq _)

/-- Settles O33: the accesses leave the engine what it had, and its turn neither reads nor writes the host's side. -/
theorem busyAccessesDoNotDisturb : Obligations.BusyAccessesDoNotDisturb := by
  intro as s rest busy
  obtain ⟨r, d, n, run⟩ := run_busy_accesses as 1 (.engine :: rest) busy
  have turn : step (s.withHostSide r d n (.engine :: rest)) =
      .next ((turnOf { s with inputs := rest }).withHostSide r d n rest) :=
    (step_given_engine (s.withHostSide r d n rest) rest).trans
      (congrArg Host.Outcome.next (turnOf_withHostSide { s with inputs := rest } r d n rest))
  obtain ⟨-, -, -, -, -, -, inputs, -, -⟩ := turnOf_frame { s with inputs := rest }
  have kept : (turnOf { s with inputs := rest }).inputs = rest := inputs
  exact ⟨_, _, run.trans (run_succ 0 turn), step_given_engine s rest,
    congrArg (State.withHostSide _ r d n) kept.symm⟩

/-- Settles O57: the polls change the host's side alone, the engine's turn ends the command, and the last read answers
STATUS as that turn left it. -/
theorem waitEndsIdle : Obligations.WaitEndsIdle := by
  intro s polls rest busy
  let poll : Access := .read .reg (regOffset .status) 32
  have inputs : stWait polls ++ rest =
      (List.replicate polls poll).map .access ++ (.engine :: .access poll :: rest) := by
    rw [stWait, List.map_replicate, List.append_assoc]
    rfl
  obtain ⟨r, d, n, run⟩ := run_busy_accesses (List.replicate polls poll) 2 (.engine :: .access poll :: rest) busy
  rw [List.length_replicate, ← inputs, run_succ 1 (step_given_engine (s.withHostSide r d n rest) _)] at run
  obtain ⟨idle, -, -, -, -, -, given, -, -⟩ := turnOf_frame (s.withHostSide r d n (.access poll :: rest))
  rw [run_succ 0 ((step_access given).trans (congrArg Host.Outcome.next
    (hostAccess_read_reg_idle .status (s := { turnOf _ with inputs := rest }) idle)))] at run
  refine ⟨_, run, idle, rfl, ?_, rfl⟩
  obtain ⟨busyBit, -⟩ := statusWordLayout
  exact (busyBit _).1.trans idle

end Sys2Proof.Machine
end

section
/-! PROOF of O43, O44 and O59: Grow, the ratio monitor and the flush (41_encoder.md R168 to R177). -/
namespace Sys2Proof.Machine

variable {P : Params} {c : EncCtx} {seen : Nat} {b : Byte}

/-! ### `Emit` and `Flush` -/

/-- `c` after the emission of a code that left the BitField `bf` (41_encoder.md R168). -/
abbrev EncCtx.sent (c : EncCtx) (bf : BitField) : EncCtx :=
  { c with regs := { c.regs with pos := c.regs.pos + c.regs.width }, bf := bf }

/-- A code that fits its width is emitted where BF has a byte for its last bit. -/
theorem emit_room {code : Nat} (fits : code < 2 ^ c.regs.width) (room : (c.regs.pos + c.regs.width - 1) / 8 < P.bfCap) :
    ∃ bf', c.bf.writtenWith bf' c.regs.pos c.regs.width code ∧ emit P code c = .ok (c.sent bf') := by
  obtain ⟨bf', written, isWritten⟩ := BitField.setInt_ok c.bf fits (.inr room)
  exact ⟨bf', isWritten, emit_ok.mpr ⟨bf', written, rfl⟩⟩

theorem emit_noRoom {code : Nat} (fits : code < 2 ^ c.regs.width) (some_bit : 0 < c.regs.width)
    (noRoom : P.bfCap ≤ (c.regs.pos + c.regs.width - 1) / 8) : emit P code c = .raised { err := .capacity } c :=
  emit_raised.mpr ⟨.capacity, BitField.setInt_capacity fits some_bit noRoom, rfl, rfl⟩

theorem flush_seen {p : Nat} (h : c.regs.seen = some p) : flush P c = emit P p c := by simp [flush, h]

theorem flush_unseen (h : c.regs.seen = none) : flush P c = .ok c := by simp [flush, h]

/-- Settles O59: the flush is the emission of the last seen. -/
theorem flushEmitsSeen : Obligations.FlushEmitsSeen := by
  intro P c
  refine ⟨flush_unseen, fun p isSeen wide fits => ?_⟩
  rw [flush_seen isSeen]
  exact ⟨emit_room fits, emit_noRoom fits (by omega)⟩

/-! ### The width step -/

theorem encWidthStep_inside {r : EncRegs} (h : r.next < 2 ^ r.width) : encWidthStep r = r :=
  if_neg (Nat.not_le.mpr h)

theorem encWidthStep_wider {r : EncRegs} (h : 2 ^ r.width ≤ r.next) (hw : r.width < r.maxw) :
    encWidthStep r = { r with width := r.width + 1 } := by
  rw [encWidthStep, if_pos h, if_pos hw]

theorem encWidthStep_full {r : EncRegs} (h : 2 ^ r.width ≤ r.next) (hw : r.maxw ≤ r.width) :
    encWidthStep r = { r with full := true } := by
  rw [encWidthStep, if_pos h, if_neg (Nat.not_lt.mpr hw)]

/-- Settles O43: the width step decides between an insertion and the full state. -/
theorem growInserts : Obligations.GrowInserts := by
  intro P seen b c
  refine ⟨fun notFull => ⟨fun inside limit => ?_, fun atCap narrow limit => ?_, fun atCap widest nonBlock => ?_,
    fun notFilled limit => ?_⟩, fun full nonBlock settled => ?_⟩
  · rw [grow_ok, encWidthStep_inside inside]
    exact .inl ⟨notFull, limit, rfl⟩
  · rw [grow_ok, encWidthStep_wider atCap narrow]
    exact .inl ⟨notFull, limit, rfl⟩
  · rw [grow_ok, encWidthStep_full atCap widest]
    exact .inr (.inl ⟨rfl, nonBlock, rfl⟩)
  · have kept : (encWidthStep c.regs).full = false ∧ (encWidthStep c.regs).next = c.regs.next := by
      rcases encWidthStep_cases c.regs with ⟨-, step⟩ | ⟨-, -, step⟩ | ⟨atCap, widest, -⟩
      · rw [step]; exact ⟨notFull, rfl⟩
      · rw [step]; exact ⟨notFull, rfl⟩
      · omega
    obtain ⟨stillNotFull, sameNext⟩ := kept
    exact ⟨_, grow_raised.mpr (.inl ⟨stillNotFull, sameNext.symm ▸ limit, rfl, rfl⟩), rfl, sameNext⟩
  · have kept : encWidthStep c.regs = c.regs := by
      rcases encWidthStep_cases c.regs with ⟨-, step⟩ | ⟨atCap, narrow, -⟩ | ⟨-, -, step⟩
      · exact step
      · omega
      · rw [step, ← full]
    rw [grow_ok, kept]
    exact .inr (.inl ⟨full, nonBlock, rfl⟩)

/-! ### The monitor -/

theorem monitor_unset (h : c.regs.ckpt = none) :
    monitor P c = .ok { c with regs := { c.regs with ckpt := some (c.regs.pos + 10000) } } := by
  simp [monitor, h, checkpointBits]

theorem monitor_waits {k : Nat} (h : c.regs.ckpt = some k) (notPassed : c.regs.pos ≤ k) : monitor P c = .ok c := by
  simp [monitor, h, Nat.not_lt.mpr notPassed]

/-- A passed checkpoint is measured: e.pos is at least the header, so the ratio has a denominator. -/
theorem monitor_measures {k : Nat} (h : c.regs.ckpt = some k) (passed : k < c.regs.pos) (started : 24 ≤ c.regs.pos) :
    monitor P c =
      if ratioHolds c.regs.base (c.regs.consumed / (c.regs.pos / 8)) then
        .ok { c with
          regs := { c.regs with base := some (c.regs.consumed / (c.regs.pos / 8)), ckpt := some (k + 10000) } }
      else ratioReset P c := by
  have denominator : ¬c.regs.pos / 8 = 0 := by omega
  simp only [monitor, h, if_pos passed, measureRatio, if_neg denominator, checkpointBits]

theorem ratioHolds_iff (base : Option Nat) (ratio : Nat) :
    ratioHolds base ratio = true ↔ ∀ b, base = some b → b ≤ ratio := by
  cases base <;> simp [ratioHolds]

/-- `c` in the full state (41_encoder.md R169). -/
abbrev EncCtx.filled (c : EncCtx) : EncCtx := { c with regs := { c.regs with full := true } }

/-- In block mode a call of Grow on a dictionary that is or becomes full is a call of the monitor (41_encoder.md R172). -/
theorem grow_full_block (blk : c.regs.blk = true) (atCap : 2 ^ c.regs.width ≤ c.regs.next)
    (widest : c.regs.width = c.regs.maxw) :
    grow P seen b c = monitor P c.filled := by
  have kept : encInsert P seen b c.filled = .ok c.filled := if_pos rfl
  have monitored : (c.filled.regs.blk && c.filled.regs.full) = true := by rw [Bool.and_true]; exact blk
  rw [grow, encWidthStep_full atCap (Nat.le_of_eq widest.symm), kept, Flow.andThen_ok, if_pos monitored]

/-- Settles O44: Grow is the monitor, and the checkpoint and the ratio decide which of its outcomes it has. -/
theorem monitorOutcomes : Obligations.MonitorOutcomes := by
  intro P seen b c blk started atCap widest
  rw [grow_full_block blk atCap widest]
  refine ⟨fun unset => monitor_unset (c := c.filled) unset, fun k isSet waits => monitor_waits (c := c.filled) isSet waits,
    fun k isSet passed noWorse => ?_, fun k base isSet passed isBase worse wide => ?_⟩
  · rw [monitor_measures (c := c.filled) isSet passed started, if_pos ((ratioHolds_iff _ _).mpr noWorse)]
  · have fails : ¬ratioHolds c.filled.regs.base (c.filled.regs.consumed / (c.filled.regs.pos / 8)) = true := fun holds =>
      Nat.not_le.mpr worse ((ratioHolds_iff _ _).mp holds base isBase)
    rw [monitor_measures (c := c.filled) isSet passed started, if_neg fails]
    have fits : resetCode < 2 ^ c.regs.width :=
      Nat.lt_of_lt_of_le (by decide) (Nat.pow_le_pow_right (n := 2) (by decide) wide)
    refine ⟨fun room => ?_, fun noRoom => ?_⟩
    · obtain ⟨bf', written, isWritten⟩ := BitField.setInt_ok c.bf fits (.inr room)
      refine ⟨bf', isWritten, ratioReset_ok.mpr ⟨bf', written, ?_⟩⟩
      simp [EncCtx.afterReset, blk, firstCode]
    · exact ratioReset_raised.mpr ⟨.capacity, BitField.setInt_capacity fits (Nat.zero_lt_of_lt wide) noRoom, rfl, rfl⟩

end Sys2Proof.Machine
end

section
/-! SUPPORT. What one byte of the scan loop leaves, in one list of cases: every invariant of the encoder is read off it
(41_encoder.md R165 to R176). -/
namespace Sys2Proof.Machine

variable {P : Params} {c c' : EncCtx} {e : Raise} {seen : Nat} {b : Byte}

/-! ### The width step, field by field -/

/-- `c` after the width step of Grow (41_encoder.md R169). -/
abbrev EncCtx.stepped (c : EncCtx) : EncCtx := { c with regs := encWidthStep c.regs }

@[simp] theorem encWidthStep_pos (r : EncRegs) : (encWidthStep r).pos = r.pos := by
  rcases encWidthStep_cases r with ⟨-, step⟩ | ⟨-, -, step⟩ | ⟨-, -, step⟩ <;> rw [step]

@[simp] theorem encWidthStep_next (r : EncRegs) : (encWidthStep r).next = r.next := by
  rcases encWidthStep_cases r with ⟨-, step⟩ | ⟨-, -, step⟩ | ⟨-, -, step⟩ <;> rw [step]

@[simp] theorem encWidthStep_maxw (r : EncRegs) : (encWidthStep r).maxw = r.maxw := by
  rcases encWidthStep_cases r with ⟨-, step⟩ | ⟨-, -, step⟩ | ⟨-, -, step⟩ <;> rw [step]

@[simp] theorem encWidthStep_blk (r : EncRegs) : (encWidthStep r).blk = r.blk := by
  rcases encWidthStep_cases r with ⟨-, step⟩ | ⟨-, -, step⟩ | ⟨-, -, step⟩ <;> rw [step]

@[simp] theorem encWidthStep_ckpt (r : EncRegs) : (encWidthStep r).ckpt = r.ckpt := by
  rcases encWidthStep_cases r with ⟨-, step⟩ | ⟨-, -, step⟩ | ⟨-, -, step⟩ <;> rw [step]

@[simp] theorem encWidthStep_base (r : EncRegs) : (encWidthStep r).base = r.base := by
  rcases encWidthStep_cases r with ⟨-, step⟩ | ⟨-, -, step⟩ | ⟨-, -, step⟩ <;> rw [step]

@[simp] theorem encWidthStep_consumed (r : EncRegs) : (encWidthStep r).consumed = r.consumed := by
  rcases encWidthStep_cases r with ⟨-, step⟩ | ⟨-, -, step⟩ | ⟨-, -, step⟩ <;> rw [step]

@[simp] theorem encWidthStep_seen (r : EncRegs) : (encWidthStep r).seen = r.seen := by
  rcases encWidthStep_cases r with ⟨-, step⟩ | ⟨-, -, step⟩ | ⟨-, -, step⟩ <;> rw [step]

@[simp] theorem encWidthStep_idx (r : EncRegs) : (encWidthStep r).idx = r.idx := by
  rcases encWidthStep_cases r with ⟨-, step⟩ | ⟨-, -, step⟩ | ⟨-, -, step⟩ <;> rw [step]

/-- The width never falls, grows by at most one, and stays within the maximum. -/
theorem encWidthStep_width (r : EncRegs) (h : r.width ≤ r.maxw) :
    r.width ≤ (encWidthStep r).width ∧ (encWidthStep r).width ≤ r.width + 1 ∧ (encWidthStep r).width ≤ r.maxw := by
  rcases encWidthStep_cases r with ⟨-, step⟩ | ⟨-, narrow, step⟩ | ⟨-, -, step⟩ <;> rw [step]
  · exact ⟨Nat.le_refl _, Nat.le_succ _, h⟩
  · exact ⟨Nat.le_succ _, Nat.le_refl _, narrow⟩
  · exact ⟨Nat.le_refl _, Nat.le_succ _, h⟩

/-! ### `Grow` -/

/-- `c` with an entry for e.next (41_encoder.md R171). -/
abbrev EncCtx.withEntry (c : EncCtx) (p : Nat) (b : Byte) : EncCtx :=
  { c with regs := { c.regs with next := c.regs.next + 1 }, dict := { code := c.regs.next, pre := p, byte := b } :: c.dict }

/-- The checkpoint and the baseline a call of the monitor may leave: those before it, or ones bounded by the position
and the bytes consumed (41_encoder.md R173 to R175). -/
def EncRegs.Tracks (r : EncRegs) (ckpt base : Option Nat) : Prop :=
  (∀ k, ckpt = some k → r.ckpt = some k ∨ k ≤ r.pos + checkpointBits) ∧
    ∀ x, base = some x → r.base = some x ∨ x ≤ r.consumed

theorem monitor_ok_cases (h : monitor P c = .ok c') :
    (∃ ckpt base, c.regs.Tracks ckpt base ∧ c' = c.withMonitor ckpt base) ∨
      ∃ bf, c.bf.setInt P c.regs.pos c.regs.width resetCode = .ok bf ∧ c' = c.afterReset bf := by
  rcases monitor_cases P c with step | ⟨-, step⟩ | ⟨k, isSet, passed, step⟩ | step
  case inr.inr.inr => exact .inr (ratioReset_ok.mp (step.symm.trans h))
  all_goals cases step.symm.trans h
  case inl => exact .inl ⟨c.regs.ckpt, c.regs.base, ⟨fun _ => .inl, fun _ => .inl⟩, rfl⟩
  case inr.inl =>
    exact .inl ⟨_, c.regs.base, ⟨fun _ set => .inr (Nat.le_of_eq (Option.some.inj set).symm), fun _ => .inl⟩, rfl⟩
  case inr.inr.inl =>
    refine .inl ⟨_, _, ⟨fun x set => .inr ?_, fun x set => .inr ?_⟩, rfl⟩
    · cases set
      exact Nat.add_le_add_right (Nat.le_of_lt passed) _
    · cases set
      exact Nat.div_le_self _ _

/-- What a successful Grow leaves: an entry, the full state and its tracking, or a dictionary that was reset. -/
theorem grow_ok_cases (h : grow P seen b c = .ok c') :
    (c.stepped.regs.full = false ∧ c.regs.next < P.dictLimit ∧ c' = c.stepped.withEntry seen b) ∨
      (c.stepped.regs.full = true ∧
        ∃ ckpt base, c.stepped.regs.Tracks ckpt base ∧ c' = c.stepped.withMonitor ckpt base) ∨
      (c.stepped.regs.full = true ∧ c.regs.blk = true ∧
        ∃ bf, c.bf.setInt P c.regs.pos c.stepped.regs.width resetCode = .ok bf ∧ c' = c.stepped.afterReset bf) := by
  rcases grow_ok.mp h with ⟨notFull, limit, rfl⟩ | ⟨full, -, rfl⟩ | ⟨full, blk, monitored⟩
  · exact .inl ⟨notFull, encWidthStep_next c.regs ▸ limit, rfl⟩
  · exact .inr (.inl ⟨full, _, _, ⟨fun _ => .inl, fun _ => .inl⟩, rfl⟩)
  · rcases monitor_ok_cases monitored with kept | ⟨bf, written, rfl⟩
    · exact .inr (.inl ⟨full, kept⟩)
    · rw [encWidthStep_pos] at written
      exact .inr (.inr ⟨full, encWidthStep_blk c.regs ▸ blk, bf, written, rfl⟩)

/-- A Grow that fails has done its width step alone. -/
theorem grow_raised_cases (wide : 9 ≤ c.regs.width) (within : c.regs.width ≤ c.regs.maxw)
    (h : grow P seen b c = .raised e c') :
    e = { err := .capacity } ∧ c' = c.stepped ∧
      ((c.stepped.regs.full = false ∧ P.dictLimit ≤ c.regs.next) ∨
        P.bfCap ≤ (c.regs.pos + c.stepped.regs.width - 1) / 8) := by
  rcases grow_raised.mp h with ⟨notFull, limit, rfl, rfl⟩ | ⟨-, -, monitored⟩
  · exact ⟨rfl, rfl, .inl ⟨notFull, encWidthStep_next c.regs ▸ limit⟩⟩
  · rcases monitor_cases P c.stepped with step | ⟨-, step⟩ | ⟨_, -, -, step⟩ | step
    case inr.inr.inr =>
      obtain ⟨er, failed, rfl, rfl⟩ := ratioReset_raised.mp (step.symm.trans monitored)
      have grown := encWidthStep_width c.regs within
      rcases BitField.setInt_error failed with ⟨-, overflow⟩ | ⟨rfl, -, -, noRoom⟩
      · have fits : resetCode < 2 ^ c.stepped.regs.width :=
          Nat.lt_of_lt_of_le (by decide) (Nat.pow_le_pow_right (n := 2) (by decide) (Nat.le_trans wide grown.1))
        exact absurd overflow (Nat.not_le.mpr fits)
      · rw [encWidthStep_pos] at noRoom
        exact ⟨rfl, rfl, .inr noRoom⟩
    all_goals cases step.symm.trans monitored

/-! ### One byte -/

/-- What a byte that raises nothing leaves: the first is taken, a match extends seen, and a miss emits seen, grows and
starts again with the byte. -/
theorem scanByte_ok_cases (h : scanByte P b c = .ok c') :
    (c.regs.seen = none ∧ c' = c.counted.withSeen b.toNat) ∨
      (∃ p code, c.regs.seen = some p ∧ dictLookup c.dict p b = some code ∧ c' = c.counted.withSeen code) ∨
      ∃ p bf c₁, c.regs.seen = some p ∧ dictLookup c.dict p b = none ∧
        c.bf.setInt P c.regs.pos c.regs.width p = .ok bf ∧ grow P p b (c.counted.sent bf) = .ok c₁ ∧
        c' = c₁.withSeen b.toNat := by
  rcases scanByte_cases P b c with ⟨unseen, step⟩ | ⟨p, code, isSeen, found, step⟩ | ⟨p, isSeen, absent, step⟩
  · cases step.symm.trans h
    exact .inl ⟨unseen, rfl⟩
  · cases step.symm.trans h
    exact .inr (.inl ⟨p, code, isSeen, found, rfl⟩)
  · obtain ⟨bf, c₁, written, grown, rfl⟩ := encMiss_ok.mp (step.symm.trans h)
    exact .inr (.inr ⟨p, bf, c₁, isSeen, absent, written, grown, rfl⟩)

/-- What every successful Grow keeps. -/
theorem grow_keeps (h : grow P seen b c = .ok c') :
    c'.regs.maxw = c.regs.maxw ∧ c'.regs.blk = c.regs.blk ∧ c'.regs.consumed = c.regs.consumed ∧
      c'.regs.idx = c.regs.idx := by
  rcases grow_ok_cases h with ⟨-, -, rfl⟩ | ⟨-, _, _, -, rfl⟩ | ⟨-, -, _, -, rfl⟩ <;> simp

/-- What every successful byte keeps, and that it is counted and leaves a pending sequence. -/
theorem scanByte_keeps (h : scanByte P b c = .ok c') :
    c'.regs.maxw = c.regs.maxw ∧ c'.regs.blk = c.regs.blk ∧ c'.regs.consumed = c.regs.consumed + 1 ∧
      c'.regs.idx = c.regs.idx ∧ c'.regs.seen ≠ none := by
  rcases scanByte_ok_cases h with ⟨-, rfl⟩ | ⟨_, _, -, -, rfl⟩ | ⟨_, _, _, -, -, -, grown, rfl⟩
  · exact ⟨rfl, rfl, rfl, rfl, Option.some_ne_none _⟩
  · exact ⟨rfl, rfl, rfl, rfl, Option.some_ne_none _⟩
  · obtain ⟨maxw, blk, consumed, idx⟩ := grow_keeps grown
    exact ⟨maxw, blk, consumed, idx, Option.some_ne_none _⟩

end Sys2Proof.Machine
end

section
/-! PROOF of O41 and O42: the codes fit their width, and the width is monotone between resets (41_encoder.md R179,
R180). -/
namespace Sys2Proof.Machine

variable {P : Params} {c c' : EncCtx} {e : Raise} {b : Byte}

/-! ### Codes fit -/

theorem byte_lt_two_pow {w : Nat} (b : Byte) (wide : 9 ≤ w) : b.toNat < 2 ^ w :=
  Nat.lt_of_lt_of_le b.isLt (Nat.pow_le_pow_right (n := 2) (by decide) (by omega))

theorem EncCtx.CodesFit.withSeen (h : c.CodesFit) {p : Nat} (fits : p < 2 ^ c.regs.width) : (c.withSeen p).CodesFit :=
  ⟨h.width_range, h.next_le, h.stored_lt, fun _ set => Option.some.inj set ▸ fits⟩

theorem EncCtx.CodesFit.counted (h : c.CodesFit) : c.counted.CodesFit :=
  ⟨h.width_range, h.next_le, h.stored_lt, h.seen_lt⟩

theorem EncCtx.CodesFit.sent (h : c.CodesFit) (bf : BitField) : (c.sent bf).CodesFit :=
  ⟨h.width_range, h.next_le, h.stored_lt, h.seen_lt⟩

theorem EncCtx.CodesFit.advanced (h : c.CodesFit) : (encAdvance c).CodesFit :=
  ⟨h.width_range, h.next_le, h.stored_lt, h.seen_lt⟩

theorem EncCtx.CodesFit.withMonitor (h : c.CodesFit) (ckpt base : Option Nat) : (c.withMonitor ckpt base).CodesFit :=
  ⟨h.width_range, h.next_le, h.stored_lt, h.seen_lt⟩

/-- The width step keeps the loop state. -/
theorem EncCtx.CodesFit.stepped (h : c.CodesFit) : c.stepped.CodesFit := by
  obtain ⟨wide, within⟩ := h.width_range
  obtain ⟨grows, -, inMax⟩ := encWidthStep_width c.regs within
  have room : 2 ^ c.regs.width ≤ 2 ^ c.stepped.regs.width := Nat.pow_le_pow_right (by decide) grows
  refine ⟨⟨Nat.le_trans wide grows, ?_⟩, ?_, ?_, ?_⟩
  · exact (encWidthStep_maxw c.regs).symm ▸ inMax
  · exact (encWidthStep_next c.regs).symm ▸ Nat.le_trans h.next_le room
  · exact (encWidthStep_next c.regs).symm ▸ h.stored_lt
  · exact fun p isSeen => Nat.lt_of_lt_of_le (h.seen_lt p (encWidthStep_seen c.regs ▸ isSeen)) room

/-- A width step that does not find the dictionary full leaves room for the next code. -/
theorem EncCtx.CodesFit.stepped_room (h : c.CodesFit) (notFull : c.stepped.regs.full = false) :
    c.regs.next < 2 ^ c.stepped.regs.width := by
  have next := h.next_le
  rcases encWidthStep_cases c.regs with ⟨inside, step⟩ | ⟨-, -, step⟩ | ⟨-, -, step⟩
  · exact step.symm ▸ inside
  · have wider : 2 ^ c.regs.width < 2 ^ (c.regs.width + 1) := Nat.pow_lt_pow_right (by decide) (Nat.lt_succ_self _)
    have width : c.stepped.regs.width = c.regs.width + 1 := congrArg EncRegs.width step
    exact width ▸ Nat.lt_of_le_of_lt next wider
  · exact absurd (congrArg EncRegs.full step ▸ notFull) Bool.noConfusion

/-- Grow keeps the loop state, with the byte that made the miss as the new pending code. -/
theorem EncCtx.CodesFit.afterGrow (h : c.CodesFit) {p : Nat} (grown : grow P p b c = .ok c') :
    (c'.withSeen b.toNat).CodesFit := by
  have fit := h.stepped
  have wide := fit.width_range.1
  rcases grow_ok_cases grown with ⟨notFull, -, rfl⟩ | ⟨-, _, _, -, rfl⟩ | ⟨-, blk, bf, -, rfl⟩
  · have room := h.stepped_room notFull
    rw [← encWidthStep_next c.regs] at room
    refine ⟨fit.width_range, room, fun x mem => ?_, fun _ set => Option.some.inj set ▸ byte_lt_two_pow b wide⟩
    rcases List.mem_cons.mp mem with rfl | mem
    · exact Nat.lt_succ_self _
    · exact Nat.lt_succ_of_lt (fit.stored_lt x mem)
  · exact (fit.withMonitor _ _).withSeen (byte_lt_two_pow b wide)
  · have first := firstCode_le c.stepped.regs.blk
    refine ⟨⟨Nat.le_refl 9, Nat.le_trans wide fit.width_range.2⟩, Nat.le_trans first (show 257 ≤ 2 ^ 9 by decide), nofun,
      fun _ set => Option.some.inj set ▸ byte_lt_two_pow b (Nat.le_refl 9)⟩

theorem EncCtx.CodesFit.afterByte (h : c.CodesFit) (scanned : scanByte P b c = .ok c') : c'.CodesFit := by
  have wide := h.width_range.1
  rcases scanByte_ok_cases scanned with ⟨-, rfl⟩ | ⟨p, code, -, found, rfl⟩ | ⟨p, bf, c₁, -, -, -, grown, rfl⟩
  · exact h.counted.withSeen (byte_lt_two_pow b wide)
  · obtain ⟨x, mem, -, -, rfl⟩ := dictLookup_some found
    exact h.counted.withSeen (Nat.lt_of_lt_of_le (h.stored_lt x mem) h.next_le)
  · exact (h.counted.sent bf).afterGrow grown

/-- The emission of the pending code can only lack room. -/
theorem EncCtx.CodesFit.setInt_error (h : c.CodesFit) {p : Nat} (isSeen : c.regs.seen = some p) {er : ErrCode}
    (failed : c.bf.setInt P c.regs.pos c.regs.width p = .error er) :
    er = .capacity ∧ P.bfCap ≤ (c.regs.pos + c.regs.width - 1) / 8 := by
  rcases BitField.setInt_error failed with ⟨-, overflow⟩ | ⟨rfl, -, -, noRoom⟩
  · exact absurd overflow (Nat.not_le.mpr (h.seen_lt p isSeen))
  · exact ⟨rfl, noRoom⟩

/-- How a byte can fail in a loop state whose codes fit, and what it has changed by then. -/
theorem EncCtx.CodesFit.scanByte_raised (h : c.CodesFit) (raised : scanByte P b c = .raised e c') :
    e = { err := .capacity } ∧
      ((P.bfCap ≤ (c.regs.pos + c.regs.width - 1) / 8 ∧ c' = c.counted) ∨
        ∃ p bf, c.bf.setInt P c.regs.pos c.regs.width p = .ok bf ∧ c' = (c.counted.sent bf).stepped ∧
          ((c'.regs.full = false ∧ P.dictLimit ≤ c.regs.next) ∨
            P.bfCap ≤ (c.regs.pos + c.regs.width + c'.regs.width - 1) / 8)) := by
  rcases scanByte_cases P b c with ⟨-, step⟩ | ⟨_, _, -, -, step⟩ | ⟨p, isSeen, -, step⟩
  · cases step.symm.trans raised
  · cases step.symm.trans raised
  · rcases encMiss_raised.mp (step.symm.trans raised) with ⟨er, failed, rfl, rfl⟩ | ⟨bf, written, growing⟩
    · obtain ⟨rfl, noRoom⟩ := h.setInt_error isSeen failed
      exact ⟨rfl, .inl ⟨noRoom, rfl⟩⟩
    · obtain ⟨wide, within⟩ := h.width_range
      obtain ⟨rfl, rfl, why⟩ := grow_raised_cases (c := c.counted.sent bf) wide within growing
      exact ⟨rfl, .inr ⟨p, bf, written, rfl, why⟩⟩

theorem EncCtx.CodesFit.flush_raised (h : c.CodesFit) (raised : flush P c = .raised e c') :
    e = { err := .capacity } ∧ P.bfCap ≤ (c.regs.pos + c.regs.width - 1) / 8 ∧ c' = c := by
  rcases flush_cases P c with ⟨-, step⟩ | ⟨p, isSeen, step⟩
  · cases step.symm.trans raised
  · obtain ⟨er, failed, rfl, rfl⟩ := emit_raised.mp (step.symm.trans raised)
    obtain ⟨rfl, noRoom⟩ := h.setInt_error isSeen failed
    exact ⟨rfl, noRoom, rfl⟩

/-- Settles O41: a byte keeps the loop state, in which an emission lacks room at worst. -/
theorem encoderCodesFit : Obligations.EncoderCodesFit := by
  intro P b c h
  refine ⟨fun c' scanned => h.afterByte scanned, fun e c' raised => ?_, fun e c' raised => ?_⟩
  · obtain ⟨isCapacity, -⟩ := h.scanByte_raised raised
    exact isCapacity
  · obtain ⟨isCapacity, -⟩ := h.flush_raised raised
    exact isCapacity

/-! ### The width between resets -/

/-- Settles O42: a byte leaves the width, or a miss's width step adds one, or the miss ends in a reset. -/
theorem encoderWidthMonotone : Obligations.EncoderWidthMonotone := by
  intro P b c c' within wide scanned
  obtain ⟨maxw, -⟩ := scanByte_keeps scanned
  refine ⟨maxw, ?_⟩
  rw [maxw]
  rcases scanByte_ok_cases scanned with ⟨-, rfl⟩ | ⟨_, _, -, -, rfl⟩ | ⟨_, bf, _, -, -, -, grown, rfl⟩
  · exact ⟨within, .inl ⟨Nat.le_refl _, Nat.le_succ _⟩⟩
  · exact ⟨within, .inl ⟨Nat.le_refl _, Nat.le_succ _⟩⟩
  · obtain ⟨grows, byOne, inMax⟩ := encWidthStep_width (c.counted.sent bf).regs within
    rcases grow_ok_cases grown with ⟨-, -, rfl⟩ | ⟨-, _, _, -, rfl⟩ | ⟨-, blk, _, -, rfl⟩
    · exact ⟨inMax, .inl ⟨grows, byOne⟩⟩
    · exact ⟨inMax, .inl ⟨grows, byOne⟩⟩
    · have first : firstCode (encWidthStep (c.counted.sent bf).regs).blk = 257 := by
        rw [encWidthStep_blk, blk]
        rfl
      exact ⟨wide, .inr ⟨blk, rfl, first, rfl, rfl⟩⟩

end Sys2Proof.Machine
end

section
/-! SUPPORT. The stream COMPRESS writes: a BitField that only grows at its end, and the state in which the scan loop
starts (41_encoder.md R160 to R168). -/
namespace Sys2Proof.Machine

/-! ### Appending to a BitField -/

/-- `bf'` continues the stream of `bf`, of `p` bits, to one of `p'` bits: BF_SIZE is the stream's length in bytes, no bit
of the old stream changes, and no byte above the new one (41_encoder.md R168, 40_bitfield.md R131, R137). -/
structure BitField.Appended (bf : BitField) (p : Nat) (bf' : BitField) (p' : Nat) : Prop where
  pos_le : p ≤ p'
  order : bf'.order = bf.order
  size : bf'.size.toNat = (p' + 7) / 8
  below : ∀ q, q < p → bf'.bit q = bf.bit q
  above : ∀ i, bf'.size.toNat ≤ i → bf'.bytes.read .bf i = bf.bytes.read .bf i

variable {P : Params} {bf bf₁ bf' : BitField} {p p₁ p' w v : Nat}

theorem BitField.Appended.refl (size : bf.size.toNat = (p + 7) / 8) : bf.Appended p bf p :=
  ⟨Nat.le_refl p, rfl, size, fun _ _ => rfl, fun _ _ => rfl⟩

theorem BitField.Appended.trans (h : bf.Appended p bf₁ p₁) (h' : bf₁.Appended p₁ bf' p') : bf.Appended p bf' p' := by
  have grows : bf₁.size.toNat ≤ bf'.size.toNat := by
    rw [h.size, h'.size]
    exact Nat.div_le_div_right (Nat.add_le_add_right h'.pos_le 7)
  exact ⟨Nat.le_trans h.pos_le h'.pos_le, h'.order.trans h.order, h'.size,
    fun q below => (h'.below q (Nat.lt_of_lt_of_le below h.pos_le)).trans (h.below q below),
    fun i above => (h'.above i above).trans (h.above i (Nat.le_trans grows above))⟩

/-- A code written at the end of the stream continues it. -/
theorem BitField.Appended.of_written (size : bf.size.toNat = (p + 7) / 8) (some_bit : 0 < w)
    (h : bf.writtenWith bf' p w v) : bf.Appended p bf' (p + w) := by
  obtain ⟨order, newSize, bits, bytes⟩ := h
  rw [if_neg (by omega)] at newSize
  refine ⟨Nat.le_add_right _ _, order, by omega, fun q below => ?_, fun i above => bytes i (.inr above) fun j inside => ?_⟩
  · rw [bits q (by omega), if_neg (by omega), if_pos (by omega)]
  · omega

theorem BitField.Appended.of_setInt (size : bf.size.toNat = (p + 7) / 8) (some_bit : 0 < w)
    (h : bf.setInt P p w v = .ok bf') : bf.Appended p bf' (p + w) := by
  obtain ⟨-, -, written⟩ := BitField.setInt_spec h
  exact .of_written size some_bit written

/-- An integer in the old stream stays. -/
theorem BitField.Appended.holdsInt (h : bf.Appended p bf' p') {q : Nat} (inside : q + w ≤ p) (held : bf.holdsInt q w v) :
    bf'.holdsInt q w v :=
  BitField.holdsInt_congr held h.order fun r _ below => h.below r (Nat.lt_of_lt_of_le below inside)

/-- A byte in the old stream stays. -/
theorem BitField.Appended.read (h : bf.Appended p bf' p') {i : Nat} (inside : 8 * (i + 1) ≤ p) :
    bf'.bytes.read .bf i = bf.bytes.read .bf i :=
  BitField.byte_ext h.order fun q byte => h.below q (by omega)

/-- The byte whose positions hold an integer of eight bits. -/
theorem BitField.read_of_holdsInt {i : Nat} (h : bf.holdsInt (8 * i) 8 v) : bf.bytes.read .bf i = BitVec.ofNat 8 v := by
  rw [BitField.holdsInt_unique h (bf.holdsInt_byte i), BitVec.ofNat_toNat, BitVec.setWidth_eq]

/-! ### The header -/

/-- `bf` is the stream of a header alone, in a store whose other bytes are those of `before` (30_encoding.md R100 to
R101, 41_encoder.md R164). -/
structure BitField.Header (P : Params) (maxw : Nat) (blk : Bool) (before bf : BitField) : Prop where
  order : bf.order = P.codecOrder
  size : bf.size.toNat = 3
  magic0 : bf.bytes.read .bf 0 = 0x1F
  magic1 : bf.bytes.read .bf 1 = 0x9D
  flags : bf.bytes.read .bf 2 = BitVec.ofNat 8 (maxw + 128 * blk.toNat)
  above : ∀ i, 3 ≤ i → bf.bytes.read .bf i = before.bytes.read .bf i
  stored : before.bytes.wf → before.bytes.within P.bfCap → bf.bytes.wf ∧ bf.bytes.within P.bfCap

/-- The stream that continues a header starts with it. -/
theorem BitField.Header.bytes {maxw : Nat} {blk : Bool} {before : BitField} (h : before.Header P maxw blk bf)
    (continued : bf.Appended 24 bf' p') :
    bf'.bytes.read .bf 0 = 0x1F ∧ bf'.bytes.read .bf 1 = 0x9D ∧
      bf'.bytes.read .bf 2 = BitVec.ofNat 8 (maxw + 128 * blk.toNat) :=
  ⟨(continued.read (by decide)).trans h.magic0, (continued.read (by decide)).trans h.magic1,
    (continued.read (by decide)).trans h.flags⟩

/-- The state in which the scan loop starts, whatever the registers and the dictionary held before. -/
abbrev EncCtx.start (maxw : Nat) (blk : Bool) (bf : BitField) : EncCtx :=
  { regs :=
      { pos := 24, width := 9, next := firstCode blk, full := false, maxw := maxw, blk := blk, ckpt := none, base := none
        consumed := 0, seen := none, idx := 0 }
    dict := [], bf := bf }

/-- COMPRESS writes its header, which always fits, and scans from there. -/
theorem compressRun_eq {maxw : Nat} (hm : maxw ≤ 31) (blk : Bool) (data : Memory) (len : Nat) (c : EncCtx) :
    ∃ bf, c.bf.Header P maxw blk bf ∧
      compressRun P data len maxw blk c = (scanLoop P data len (EncCtx.start maxw blk bf)).andThen (flush P) := by
  obtain ⟨bf₁, bf₂, bf₃, w₁, w₂, w₃, size, e₁, e₂, e₃, header⟩ :=
    writeHeader_ok P blk hm (c := { c with bf := constructBF P c.bf }) rfl
  have a₁ := BitField.Appended.of_written (p := 0) rfl (by decide) w₁
  have a₂ := BitField.Appended.of_written a₁.size (by decide) w₂
  have a₃ := BitField.Appended.of_written a₂.size (by decide) w₃
  have flagsFit : flagsByte maxw blk < 2 ^ 8 := by
    have := Bool.toNat_le blk
    simp only [flagsByte]
    omega
  have held₁ := BitField.writtenWith_holdsInt (by decide) w₁
  have held₂ := BitField.writtenWith_holdsInt (by decide) w₂
  have held₃ := BitField.writtenWith_holdsInt flagsFit w₃
  refine ⟨bf₃, ⟨((a₁.trans a₂).trans a₃).order, size, ?_, ?_, ?_, fun i above => ?_, fun canonical within => ?_⟩, ?_⟩
  · exact BitField.read_of_holdsInt (i := 0) ((a₂.trans a₃).holdsInt (by decide) held₁)
  · exact BitField.read_of_holdsInt (i := 1) (a₃.holdsInt (by decide) held₂)
  · exact BitField.read_of_holdsInt (i := 2) held₃
  · exact ((a₁.trans a₂).trans a₃).above i (size.symm ▸ above)
  · obtain ⟨canonical₁, within₁⟩ := BitField.setInt_keeps e₁ canonical within
    obtain ⟨canonical₂, within₂⟩ := BitField.setInt_keeps e₂ canonical₁ within₁
    exact BitField.setInt_keeps e₃ canonical₂ within₂
  · rw [compressRun, header, Flow.andThen_ok]
    rfl

/-! ### The stream of the scan loop -/

variable {c c' : EncCtx} {e : Raise} {b : Byte} {maxw len n : Nat}

theorem grow_appends {seen : Nat} (fit : c.CodesFit) (size : c.bf.size.toNat = (c.regs.pos + 7) / 8)
    (grown : grow P seen b c = .ok c') : c.bf.Appended c.regs.pos c'.bf c'.regs.pos := by
  rcases grow_ok_cases grown with ⟨-, -, rfl⟩ | ⟨-, _, _, -, rfl⟩ | ⟨-, -, _, written, rfl⟩
  · simpa using BitField.Appended.refl size
  · simpa using BitField.Appended.refl size
  · have some_bit : 0 < c.stepped.regs.width := Nat.zero_lt_of_lt fit.stepped.width_range.1
    simpa using BitField.Appended.of_setInt size some_bit written

/-- What a byte leaves continues the stream. -/
theorem scanByte_appends (fit : c.CodesFit) (size : c.bf.size.toNat = (c.regs.pos + 7) / 8)
    (scanned : scanByte P b c = .ok c') : c.bf.Appended c.regs.pos c'.bf c'.regs.pos := by
  rcases scanByte_ok_cases scanned with ⟨-, rfl⟩ | ⟨_, _, -, -, rfl⟩ | ⟨p, bf, c₁, -, -, written, grown, rfl⟩
  · exact .refl size
  · exact .refl size
  · have sent := BitField.Appended.of_setInt size (Nat.zero_lt_of_lt fit.width_range.1) written
    have grew := grow_appends (fit.counted.sent bf) sent.size grown
    exact sent.trans grew

/-- So does what a byte that fails leaves. -/
theorem scanByte_raised_appends (fit : c.CodesFit) (size : c.bf.size.toNat = (c.regs.pos + 7) / 8)
    (raised : scanByte P b c = .raised e c') : c.bf.Appended c.regs.pos c'.bf c'.regs.pos := by
  rcases fit.scanByte_raised raised with ⟨-, ⟨-, rfl⟩ | ⟨p, bf, written, rfl, -⟩⟩
  · exact .refl size
  · have sent := BitField.Appended.of_setInt size (Nat.zero_lt_of_lt fit.width_range.1) written
    simpa using sent

/-- What a successful flush leaves. -/
theorem flush_ok (h : flush P c = .ok c') :
    (c.regs.seen = none ∧ c' = c) ∨
      ∃ p bf, c.regs.seen = some p ∧ c.bf.setInt P c.regs.pos c.regs.width p = .ok bf ∧ c' = c.sent bf := by
  rcases flush_cases P c with ⟨unseen, step⟩ | ⟨p, isSeen, step⟩
  · cases step.symm.trans h
    exact .inl ⟨unseen, rfl⟩
  · obtain ⟨bf, written, rfl⟩ := emit_ok.mp (step.symm.trans h)
    exact .inr ⟨p, bf, isSeen, written, rfl⟩

theorem flush_appends (fit : c.CodesFit) (size : c.bf.size.toNat = (c.regs.pos + 7) / 8) (flushed : flush P c = .ok c') :
    c.bf.Appended c.regs.pos c'.bf c'.regs.pos := by
  rcases flush_ok flushed with ⟨-, rfl⟩ | ⟨p, bf, -, written, rfl⟩
  · exact .refl size
  · exact .of_setInt size (Nat.zero_lt_of_lt fit.width_range.1) written

theorem flush_consumed (flushed : flush P c = .ok c') : c'.regs.consumed = c.regs.consumed := by
  rcases flush_ok flushed with ⟨-, rfl⟩ | ⟨p, bf, -, -, rfl⟩ <;> rfl

/-- What holds before each byte of the scan loop, with `n` of the `len` bytes still to read: the codes fit, and the
stream continues the header `bf`. -/
structure EncCtx.Scanning (bf : BitField) (maxw len n : Nat) (c : EncCtx) : Prop where
  fit : c.CodesFit
  stream : bf.Appended 24 c.bf c.regs.pos
  maxw : c.regs.maxw = maxw
  consumed : c.regs.consumed + n = len
  idx : c.regs.idx + n = len

theorem EncCtx.start_scanning (blk : Bool) (wide : 9 ≤ maxw) (size : bf.size.toNat = 3) :
    (EncCtx.start maxw blk bf).Scanning bf maxw len len := by
  have first : firstCode blk ≤ 2 ^ 9 := Nat.le_trans (firstCode_le blk) (by decide)
  exact ⟨⟨⟨Nat.le_refl 9, wide⟩, first, nofun, nofun⟩, .refl size, rfl, Nat.zero_add len, Nat.zero_add len⟩

theorem EncCtx.Scanning.size (h : c.Scanning bf maxw len n) : c.bf.size.toNat = (c.regs.pos + 7) / 8 := h.stream.size

theorem EncCtx.Scanning.next (h : c.Scanning bf maxw len (n + 1)) (scanned : scanByte P b c = .ok c') :
    (encAdvance c').Scanning bf maxw len n := by
  obtain ⟨sameMaxw, -, consumed, idx, -⟩ := scanByte_keeps scanned
  have appended := scanByte_appends h.fit h.size scanned
  refine ⟨(h.fit.afterByte scanned).advanced, h.stream.trans appended,
    sameMaxw.trans h.maxw, ?_, ?_⟩
  · have := h.consumed
    show c'.regs.consumed + n = len
    omega
  · have := h.idx
    show c'.regs.idx + 1 + n = len
    omega

/-- What a successful scan and flush leave. -/
theorem compressRun_ok {data : Memory} (h : c.Scanning bf maxw len n)
    (run : (scanLoop P data n c).andThen (flush P) = .ok c') :
    bf.Appended 24 c'.bf c'.regs.pos ∧ c'.regs.consumed = len := by
  obtain ⟨d, scanned, flushed⟩ := Flow.andThen_eq_ok.mp run
  have last := scanLoop_induct (fun n c => c.Scanning bf maxw len n) (fun _ _ _ h step => h.next step) n c d h scanned
  exact ⟨last.stream.trans (flush_appends last.fit last.size flushed), (flush_consumed flushed).trans last.consumed⟩

/-- A scan or a flush that fails lacks room, and leaves a stream that continues the header too. -/
theorem compressRun_raised {data : Memory} (h : c.Scanning bf maxw len n)
    (run : (scanLoop P data n c).andThen (flush P) = .raised e c') :
    e = { err := .capacity } ∧ bf.Appended 24 c'.bf c'.regs.pos := by
  rcases Flow.andThen_eq_raised.mp run with raised | ⟨d, scanned, flushing⟩
  · obtain ⟨m, d, before, failed⟩ :=
      scanLoop_raised (fun n c => c.Scanning bf maxw len n) (fun _ _ _ h step => h.next step) n c e c' h raised
    obtain ⟨isCapacity, -⟩ := before.fit.scanByte_raised failed
    exact ⟨isCapacity, before.stream.trans (scanByte_raised_appends before.fit before.size failed)⟩
  · have last := scanLoop_induct (fun n c => c.Scanning bf maxw len n) (fun _ _ _ h step => h.next step) n c d h scanned
    obtain ⟨isCapacity, -, rfl⟩ := last.fit.flush_raised flushing
    exact ⟨isCapacity, last.stream⟩

end Sys2Proof.Machine
end

section
/-! PROOF of O38, O39, O40 and O60: how a COMPRESS past its start checks ends (41_encoder.md R160, R177, R178). -/
namespace Sys2Proof.Machine

variable {P : Params} {bf : BitField} {c c' : EncCtx} {e : Raise} {b : Byte} {s : State} {maxw len n : Nat} {blk : Bool}

/-! ### The end of the command -/

/-- What the encoder starts from in a state. -/
abbrev State.encBegin (s : State) : EncCtx := { regs := s.enc, dict := s.edict, bf := s.bf }

theorem compressEnd_ok (h9 : 9 ≤ maxw) (h31 : maxw ≤ 31) (fits : s.dataLen.toNat ≤ s.params.dataCap)
    (run : compressRun s.params s.data s.dataLen.toNat maxw blk s.encBegin = .ok c) :
    compressEnd maxw blk s = State.finishedWith c.bf.size { s with bf := c.bf, enc := c.regs, edict := c.dict } := by
  rw [compressEnd, if_neg (by omega), if_neg (Nat.not_lt.mpr fits), run]
  rfl

theorem compressEnd_raised (h9 : 9 ≤ maxw) (h31 : maxw ≤ 31) (fits : s.dataLen.toNat ≤ s.params.dataCap)
    (run : compressRun s.params s.data s.dataLen.toNat maxw blk s.encBegin = .raised { err := .capacity } c) :
    compressEnd maxw blk s =
      State.failedWith .capacity { s with bf := compressFailed c.bf, enc := c.regs, edict := c.dict } := by
  rw [compressEnd, if_neg (by omega), if_neg (Nat.not_lt.mpr fits), run]
  rfl

/-- 41_encoder.md R178, 93 U2: a failed COMPRESS leaves the bytes above what it wrote. -/
theorem compressFailed_read {bf : BitField} {i : Nat} (above : bf.size.toNat ≤ i) :
    (compressFailed bf).bytes.read .bf i = bf.bytes.read .bf i := Memory.read_forgetBelow .bf bf.bytes above

/-- Settles O39: both ends leave a stream that continues the header, of which an error forgets the bytes. -/
theorem compressOutputs : Obligations.CompressOutputs := by
  intro s maxw blk h9 h31 fits
  obtain ⟨bf, header, run⟩ := compressRun_eq (P := s.params) h31 blk s.data s.dataLen.toNat s.encBegin
  have start := EncCtx.start_scanning (len := s.dataLen.toNat) blk h9 header.size
  cases result : (scanLoop s.params s.data s.dataLen.toNat (EncCtx.start maxw blk bf)).andThen (flush s.params) with
  | ok c =>
    obtain ⟨stream, -⟩ := compressRun_ok start result
    have longer : 3 ≤ c.bf.size.toNat := by have := stream.pos_le; have := stream.size; omega
    exact ⟨c.bf, c.regs, c.dict, stream.order.trans header.order,
      .inl ⟨exec_eq_next (compressEnd_ok h9 h31 fits (run.trans result)), stream.size,
        fun i above => (stream.above i above).trans (header.above i (Nat.le_trans longer above))⟩⟩
  | raised e c =>
    obtain ⟨rfl, stream⟩ := compressRun_raised start result
    have longer : 3 ≤ c.bf.size.toNat := by have := stream.pos_le; have := stream.size; omega
    refine ⟨compressFailed c.bf, c.regs, c.dict, stream.order.trans header.order,
      .inr ⟨exec_eq_next (compressEnd_raised h9 h31 fits (run.trans result)), rfl, fun i above => ?_⟩⟩
    rw [← stream.size] at above
    rw [compressFailed_read above, stream.above i above, header.above i (Nat.le_trans longer above)]

/-- Settles O40: with nothing to scan and nothing to flush the stream is the header. -/
theorem compressEmptyInput : Obligations.CompressEmptyInput := by
  intro s maxw blk h9 h31 empty
  have noBytes : s.dataLen.toNat = 0 := by rw [empty]; rfl
  obtain ⟨bf, header, run⟩ := compressRun_eq (P := s.params) h31 blk s.data s.dataLen.toNat s.encBegin
  have result : compressRun s.params s.data s.dataLen.toNat maxw blk s.encBegin = .ok (EncCtx.start maxw blk bf) := by
    rw [run, noBytes, scanLoop, Flow.andThen_ok, flush_unseen rfl]
  have size : bf.size = 3 := BitVec.eq_of_toNat_eq header.size
  have ended := compressEnd_ok h9 h31 (by omega) result
  rw [show (EncCtx.start maxw blk bf).bf.size = 3 from size] at ended
  exact ⟨bf, _, exec_eq_next ended, header.order, size, header.magic0, header.magic1, header.flags, header.above⟩

/-! ### Room for the whole input -/

/-- The room that is left is enough for the `n` bytes to come: two codes of at most 31 bits for each, two more once one
is pending, and a code below DICT_LIMIT for each. -/
def EncCtx.Room (P : Params) (n : Nat) (c : EncCtx) : Prop :=
  c.regs.pos + 62 * n + (if c.regs.seen = none then 0 else 62) ≤ 8 * P.bfCap ∧
    (2 ^ c.regs.maxw ≤ P.dictLimit ∨ (257 + n ≤ P.dictLimit ∧ c.regs.next + n ≤ P.dictLimit))

/-- In a loop state with room a byte does not fail. -/
theorem EncCtx.Room.scanByte_ok (room : c.Room P (n + 1)) (fit : c.CodesFit) (hm : c.regs.maxw ≤ 31) :
    ∃ c', scanByte P b c = .ok c' := by
  obtain ⟨bits, codes⟩ := room
  cases scanned : scanByte P b c with
  | ok c' => exact ⟨c', rfl⟩
  | raised e c' =>
    have within := fit.width_range.2
    rcases fit.scanByte_raised scanned with ⟨-, ⟨noRoom, -⟩ | ⟨p, bf, -, rfl, ⟨notFull, limit⟩ | noRoom⟩⟩
    · omega
    · have next := (fit.counted.sent bf).stepped_room notFull
      have inMax : 2 ^ (encWidthStep (c.counted.sent bf).regs).width ≤ 2 ^ c.regs.maxw :=
        Nat.pow_le_pow_right (by decide) (encWidthStep_width (c.counted.sent bf).regs within).2.2
      have below : c.regs.next < 2 ^ c.regs.maxw := Nat.lt_of_lt_of_le next inMax
      omega
    · have inMax : (c.counted.sent bf).stepped.regs.width ≤ c.regs.maxw :=
        (encWidthStep_width (c.counted.sent bf).regs within).2.2
      omega

theorem grow_takes {seen : Nat} (within : c.regs.width ≤ c.regs.maxw) (grown : grow P seen b c = .ok c') :
    c'.regs.pos ≤ c.regs.pos + c.regs.maxw ∧ c'.regs.next ≤ max (c.regs.next + 1) 257 := by
  have inMax := (encWidthStep_width c.regs within).2.2
  have first := firstCode_le c.regs.blk
  rcases grow_ok_cases grown with ⟨-, -, rfl⟩ | ⟨-, _, _, -, rfl⟩ | ⟨-, -, _, -, rfl⟩
  all_goals
    simp only [encWidthStep_pos, encWidthStep_next, encWidthStep_blk]
    omega

/-- What a byte takes of the room: two codes at most, none if it is the first, and at most one entry. -/
theorem scanByte_takes (fit : c.CodesFit) (hm : c.regs.maxw ≤ 31) (scanned : scanByte P b c = .ok c') :
    c'.regs.pos ≤ c.regs.pos + (if c.regs.seen = none then 0 else 62) ∧ c'.regs.next ≤ max (c.regs.next + 1) 257 := by
  have within := fit.width_range.2
  rcases scanByte_ok_cases scanned with ⟨-, rfl⟩ | ⟨_, _, -, -, rfl⟩ | ⟨p, bf, c₁, isSeen, -, -, grown, rfl⟩
  · exact ⟨Nat.le_add_right _ _, by show c.regs.next ≤ _; omega⟩
  · exact ⟨Nat.le_add_right _ _, by show c.regs.next ≤ _; omega⟩
  · obtain ⟨pos, next⟩ := grow_takes (c := c.counted.sent bf) within grown
    have twice : c₁.regs.pos ≤ c.regs.pos + c.regs.width + c.regs.maxw := pos
    rw [if_neg (isSeen ▸ Option.some_ne_none p)]
    exact ⟨by show c₁.regs.pos ≤ _; omega, next⟩

theorem EncCtx.Room.next (room : c.Room P (n + 1)) (fit : c.CodesFit) (hm : c.regs.maxw ≤ 31)
    (scanned : scanByte P b c = .ok c') : (encAdvance c').Room P n := by
  obtain ⟨bits, codes⟩ := room
  obtain ⟨pos, next⟩ := scanByte_takes fit hm scanned
  obtain ⟨maxw, -, -, -, isSeen⟩ := scanByte_keeps scanned
  refine ⟨?_, ?_⟩
  · show c'.regs.pos + 62 * n + (if c'.regs.seen = none then 0 else 62) ≤ 8 * P.bfCap
    rw [if_neg isSeen]
    omega
  · show 2 ^ c'.regs.maxw ≤ P.dictLimit ∨ (257 + n ≤ P.dictLimit ∧ c'.regs.next + n ≤ P.dictLimit)
    rw [maxw]
    omega

/-- With room the scan loop and the flush complete. -/
theorem EncCtx.Room.completes {data : Memory} (room : c.Room P n) (scanning : c.Scanning bf maxw len n) (hm : maxw ≤ 31) :
    ∃ c', (scanLoop P data n c).andThen (flush P) = .ok c' := by
  induction n generalizing c with
  | zero =>
    cases flushed : flush P c with
    | ok c' => exact ⟨c', flushed⟩
    | raised e c' =>
      obtain ⟨-, noRoom, -⟩ := scanning.fit.flush_raised flushed
      have within := scanning.fit.width_range.2
      have isMax := scanning.maxw
      obtain ⟨bits, -⟩ := room
      by_cases unseen : c.regs.seen = none
      · rw [flush_unseen unseen] at flushed
        cases flushed
      · rw [if_neg unseen] at bits
        omega
  | succ n ih =>
    have inWord : c.regs.maxw ≤ 31 := scanning.maxw ▸ hm
    obtain ⟨c₁, scanned⟩ := room.scanByte_ok scanning.fit inWord
    obtain ⟨c', rest⟩ := ih (room.next scanning.fit inWord scanned) (scanning.next scanned)
    exact ⟨c', by rw [scanLoop, scanned]; exact rest⟩

/-- Settles O38: the room the input asks for is there at the start, and what completes continues the header. -/
theorem compressCompletes : Obligations.CompressCompletes := by
  intro s maxw blk h9 h31 fits bits codes
  obtain ⟨bf, header, run⟩ := compressRun_eq (P := s.params) h31 blk s.data s.dataLen.toNat s.encBegin
  have start := EncCtx.start_scanning (len := s.dataLen.toNat) blk h9 header.size
  have first := firstCode_le blk
  have room : (EncCtx.start maxw blk bf).Room s.params s.dataLen.toNat :=
    ⟨bits, codes.imp_right fun enough => ⟨enough, by show firstCode blk + _ ≤ _; omega⟩⟩
  obtain ⟨c, completed⟩ := room.completes (data := s.data) start h31
  obtain ⟨stream, consumed⟩ := compressRun_ok start completed
  obtain ⟨magic0, magic1, flags⟩ := header.bytes stream
  exact ⟨c.bf, c.regs, c.dict, exec_eq_next (compressEnd_ok h9 h31 fits (run.trans completed)),
    stream.order.trans header.order, stream.size, consumed, magic0, magic1, flags⟩

/-! ### One byte -/

/-- The first byte taken (41_encoder.md R165). -/
abbrev EncCtx.oneTaken (maxw : Nat) (blk : Bool) (bf : BitField) (b : Byte) : EncCtx :=
  encAdvance ((EncCtx.start maxw blk bf).counted.withSeen b.toNat)

/-- One byte is only taken by the scan loop, and the flush emits it. -/
theorem scanLoop_one {data : Memory} :
    (scanLoop P data 1 (EncCtx.start maxw blk bf)).andThen (flush P) =
      emit P (data.read .data 0).toNat
        (EncCtx.oneTaken maxw blk bf (data.read .data 0)) := by
  rw [scanLoop, scanByte_first rfl]
  exact flush_seen (c := EncCtx.oneTaken maxw blk bf (data.read .data 0)) rfl

/-- Settles O60: the byte is emitted at bit 24, and its last bit is in the fifth byte of BF. -/
theorem compressOneByte : Obligations.CompressOneByte := by
  intro s maxw blk h9 h31 one
  have oneByte : s.dataLen.toNat = 1 := by rw [one]; rfl
  have fits : s.dataLen.toNat ≤ s.params.dataCap := oneByte ▸ s.params.dataCap_legal.1
  obtain ⟨bf, header, run⟩ := compressRun_eq (P := s.params) h31 blk s.data s.dataLen.toNat s.encBegin
  rw [oneByte, scanLoop_one, ← oneByte] at run
  have isCode := byte_lt_two_pow (s.data.read .data 0) (Nat.le_refl 9)
  by_cases room : 5 ≤ s.params.bfCap
  · obtain ⟨bf', written, emitted⟩ := emit_room (P := s.params)
      (c := EncCtx.oneTaken maxw blk bf (s.data.read .data 0)) isCode
      (by show (24 + 9 - 1) / 8 < _; omega)
    have stream : bf.Appended 24 bf' (24 + 9) := .of_written header.size (by decide) written
    have size : bf'.size = 5 := BitVec.eq_of_toNat_eq stream.size
    obtain ⟨magic0, magic1, flags⟩ := header.bytes stream
    have ended := compressEnd_ok h9 h31 fits (run.trans emitted)
    rw [show (EncCtx.sent _ bf').bf.size = 5 from size] at ended
    refine ⟨bf', _, stream.order.trans header.order, fun _ => ⟨exec_eq_next ended, size, magic0, magic1, flags,
      BitField.writtenWith_holdsInt isCode written, fun i above => ?_⟩, fun short => absurd room (Nat.not_le.mpr short)⟩
    rw [stream.above i (stream.size.symm ▸ above), header.above i (by omega)]
  · have noRoom : s.params.bfCap ≤ (24 + 9 - 1) / 8 := by omega
    have failed := emit_noRoom (P := s.params)
      (c := EncCtx.oneTaken maxw blk bf (s.data.read .data 0)) isCode
      (by show 0 < 9; decide) noRoom
    refine ⟨compressFailed bf, _, header.order, fun enough => absurd enough room,
      fun _ => ⟨exec_eq_next (compressEnd_raised h9 h31 fits (run.trans failed)), rfl, fun i above => ?_⟩⟩
    rw [compressFailed_read (header.size.symm ▸ above), header.above i above]

end Sys2Proof.Machine
end

section
/-! PROOF of O45: two runs of COMPRESS that start from streams with the same bytes stay alike, step by step
(41_encoder.md R182). -/
namespace Sys2Proof.Machine

variable {P : Params} {bf₁ bf₂ : BitField} {c d : EncCtx}

/-- The same order and size, and the same bytes within the size; the rest of the store is free. -/
def BitField.Alike (bf₁ bf₂ : BitField) : Prop :=
  bf₁.order = bf₂.order ∧ bf₁.size = bf₂.size ∧
    ∀ i, i < bf₁.size.toNat → bf₁.bytes.read .bf i = bf₂.bytes.read .bf i

/-- The same registers and dictionary, and alike BitFields. -/
def EncCtx.Alike (c d : EncCtx) : Prop := ∃ bf, c.bf.Alike bf ∧ d = { c with bf := bf }

/-- The same end, in alike states. -/
def Flow.Alike : Flow EncCtx → Flow EncCtx → Prop
  | .ok c, .ok d => c.Alike d
  | .raised e c, .raised e' d => e = e' ∧ c.Alike d
  | .ok _, .raised _ _ => False
  | .raised _ _, .ok _ => False

theorem Flow.Alike.andThen {x y : Flow EncCtx} {f g : EncCtx → Flow EncCtx} (h : x.Alike y)
    (next : ∀ c d, c.Alike d → (f c).Alike (g d)) : (x.andThen f).Alike (y.andThen g) := by
  cases x <;> cases y
  case ok.ok c d => exact next c d h
  case raised.raised => exact h
  case ok.raised => exact h.elim
  case raised.ok => exact h.elim

theorem BitField.Alike.bit (h : bf₁.Alike bf₂) {q : Nat} (inside : q < 8 * bf₁.size.toNat) : bf₁.bit q = bf₂.bit q := by
  obtain ⟨order, -, bytes⟩ := h
  rw [BitField.bit, BitField.bit, order, bytes (q / 8) (by omega)]

/-- The same value written into alike BitFields leaves alike BitFields. -/
theorem BitField.Alike.written {bf₁' bf₂' : BitField} {p w v : Nat} (h : bf₁.Alike bf₂)
    (w₁ : bf₁.writtenWith bf₁' p w v) (w₂ : bf₂.writtenWith bf₂' p w v) : bf₁'.Alike bf₂' := by
  obtain ⟨order₁, size₁, bits₁, -⟩ := w₁
  obtain ⟨order₂, size₂, bits₂, -⟩ := w₂
  obtain ⟨order, size, -⟩ := id h
  have sameSize : bf₁'.size.toNat = bf₂'.size.toNat := by rw [size₁, size₂, size]
  refine ⟨by rw [order₁, order₂, order], BitVec.eq_of_toNat_eq sameSize, fun i inside => ?_⟩
  refine BitField.byte_ext (by rw [order₁, order₂, order]) fun q byte => ?_
  rw [bits₁ q (by omega), bits₂ q (by omega), order, size]
  by_cases old : q < 8 * bf₂.size.toNat
  · rw [h.bit (size ▸ old)]
  · rw [if_neg old, if_neg old]

theorem encSetInt_alike (p w v : Nat) (h : c.Alike d) : (encSetInt P p w v c).Alike (encSetInt P p w v d) := by
  obtain ⟨bf, alike, rfl⟩ := h
  by_cases fits : v < 2 ^ w
  · by_cases room : w = 0 ∨ (p + w - 1) / 8 < P.bfCap
    · obtain ⟨bf₁, ok₁, w₁⟩ := BitField.setInt_ok c.bf fits room
      obtain ⟨bf₂, ok₂, w₂⟩ := BitField.setInt_ok bf fits room
      simp only [encSetInt, ok₁, ok₂]
      exact ⟨bf₂, alike.written w₁ w₂, rfl⟩
    · simp only [encSetInt, BitField.setInt_capacity fits (by omega : 0 < w) (by omega : P.bfCap ≤ (p + w - 1) / 8)]
      exact ⟨rfl, bf, alike, rfl⟩
  · simp only [encSetInt, BitField.setInt_overflow (Nat.le_of_not_lt fits)]
    exact ⟨rfl, bf, alike, rfl⟩

theorem emit_alike (code : Nat) (h : c.Alike d) : (emit P code c).Alike (emit P code d) := by
  have written := encSetInt_alike (P := P) c.regs.pos c.regs.width code h
  obtain ⟨_, -, rfl⟩ := h
  refine written.andThen fun c d h => ?_
  obtain ⟨bf, alike, rfl⟩ := h
  exact ⟨bf, alike, rfl⟩

theorem ratioReset_alike (h : c.Alike d) : (ratioReset P c).Alike (ratioReset P d) := by
  refine (emit_alike resetCode h).andThen fun c d h => ?_
  obtain ⟨bf, alike, rfl⟩ := h
  exact ⟨bf, alike, rfl⟩

theorem measureRatio_alike (k : Nat) (h : c.Alike d) : (measureRatio P k c).Alike (measureRatio P k d) := by
  have reset := ratioReset_alike (P := P) h
  obtain ⟨bf, alike, rfl⟩ := h
  unfold measureRatio
  by_cases denominator : c.regs.pos / 8 = 0
  · rw [if_pos denominator, if_pos denominator]
    exact ⟨bf, alike, rfl⟩
  · rw [if_neg denominator, if_neg denominator]
    by_cases holds : ratioHolds c.regs.base (c.regs.consumed / (c.regs.pos / 8)) = true
    · rw [if_pos holds, if_pos holds]
      exact ⟨bf, alike, rfl⟩
    · rw [if_neg holds, if_neg holds]
      exact reset

theorem monitor_alike (h : c.Alike d) : (monitor P c).Alike (monitor P d) := by
  have measured := fun k => measureRatio_alike (P := P) k h
  obtain ⟨bf, alike, rfl⟩ := h
  unfold monitor
  cases c.regs.ckpt with
  | none => exact ⟨bf, alike, rfl⟩
  | some k =>
    by_cases passed : k < c.regs.pos
    · simp only [if_pos passed]
      exact measured k
    · simp only [if_neg passed]
      exact ⟨bf, alike, rfl⟩

theorem encInsert_alike (seen : Nat) (b : Byte) (h : c.Alike d) : (encInsert P seen b c).Alike (encInsert P seen b d) := by
  obtain ⟨bf, alike, rfl⟩ := h
  unfold encInsert
  by_cases full : c.regs.full = true
  · rw [if_pos full, if_pos full]
    exact ⟨bf, alike, rfl⟩
  · rw [if_neg full, if_neg full]
    by_cases limit : P.dictLimit ≤ c.regs.next
    · rw [if_pos limit, if_pos limit]
      exact ⟨rfl, bf, alike, rfl⟩
    · rw [if_neg limit, if_neg limit]
      exact ⟨bf, alike, rfl⟩

theorem grow_alike (seen : Nat) (b : Byte) (h : c.Alike d) : (grow P seen b c).Alike (grow P seen b d) := by
  have stepped : c.stepped.Alike d.stepped := by
    obtain ⟨bf, alike, rfl⟩ := h
    exact ⟨bf, alike, rfl⟩
  refine (encInsert_alike seen b stepped).andThen fun c d h => ?_
  have monitored := monitor_alike (P := P) h
  obtain ⟨bf, alike, rfl⟩ := h
  by_cases calls : (c.regs.blk && c.regs.full) = true
  · rw [if_pos calls, if_pos calls]
    exact monitored
  · rw [if_neg calls, if_neg calls]
    exact ⟨bf, alike, rfl⟩

theorem encMiss_alike (seen : Nat) (b : Byte) (h : c.Alike d) : (encMiss P seen b c).Alike (encMiss P seen b d) := by
  refine ((emit_alike seen h).andThen fun c d h => grow_alike seen b h).andThen fun c d h => ?_
  obtain ⟨bf, alike, rfl⟩ := h
  exact ⟨bf, alike, rfl⟩

theorem scanByte_alike (b : Byte) (h : c.Alike d) : (scanByte P b c).Alike (scanByte P b d) := by
  obtain ⟨bf, alike, rfl⟩ := h
  rcases scanByte_cases P b c with ⟨unseen, step⟩ | ⟨p, code, isSeen, found, step⟩ | ⟨p, isSeen, absent, step⟩ <;>
    rw [step]
  · rw [scanByte_first (c := { c with bf := bf }) unseen]
    exact ⟨bf, alike, rfl⟩
  · rw [scanByte_match (c := { c with bf := bf }) isSeen found]
    exact ⟨bf, alike, rfl⟩
  · rw [scanByte_miss (c := { c with bf := bf }) isSeen absent]
    exact encMiss_alike p b ⟨bf, alike, rfl⟩

/-- The scan of two stores that agree on the bytes still to read. -/
theorem scanLoop_alike {data₁ data₂ : Memory} {len n : Nat} (same : ∀ i, i < len → data₁.read .data i = data₂.read .data i)
    (position : c.regs.idx + n = len) (h : c.Alike d) : (scanLoop P data₁ n c).Alike (scanLoop P data₂ n d) := by
  induction n generalizing c d with
  | zero => exact h
  | succ n ih =>
    have step := scanByte_alike (P := P) (data₁.read .data c.regs.idx) h
    have byte : data₂.read .data d.regs.idx = data₁.read .data c.regs.idx := by
      obtain ⟨_, -, rfl⟩ := h
      exact (same c.regs.idx (by omega)).symm
    rw [scanLoop, scanLoop, byte]
    cases left : scanByte P (data₁.read .data c.regs.idx) c <;>
      cases right : scanByte P (data₁.read .data c.regs.idx) d <;> rw [left, right] at step
    case ok.ok c' d' =>
      obtain ⟨-, -, -, idx, -⟩ := scanByte_keeps left
      obtain ⟨bf, alike, rfl⟩ := step
      refine ih ?_ ⟨bf, alike, rfl⟩
      show c'.regs.idx + 1 + n = len
      omega
    case raised.raised => exact step
    case ok.raised => exact step.elim
    case raised.ok => exact step.elim

theorem flush_alike (h : c.Alike d) : (flush P c).Alike (flush P d) := by
  have emitted := fun p => emit_alike (P := P) p h
  obtain ⟨bf, alike, rfl⟩ := h
  unfold flush
  cases c.regs.seen with
  | none => exact ⟨bf, alike, rfl⟩
  | some p => exact emitted p

/-- Two headers of the same parameters have the same three bytes. -/
theorem BitField.Header.alike {maxw : Nat} {blk : Bool} {before₁ before₂ : BitField} (h₁ : before₁.Header P maxw blk bf₁)
    (h₂ : before₂.Header P maxw blk bf₂) : bf₁.Alike bf₂ := by
  refine ⟨h₁.order.trans h₂.order.symm, BitVec.eq_of_toNat_eq (h₁.size.trans h₂.size.symm), fun i inside => ?_⟩
  have three : i = 0 ∨ i = 1 ∨ i = 2 := by have := h₁.size; omega
  rcases three with rfl | rfl | rfl
  · exact h₁.magic0.trans h₂.magic0.symm
  · exact h₁.magic1.trans h₂.magic1.symm
  · exact h₁.flags.trans h₂.flags.symm

theorem compressRun_alike {data₁ data₂ : Memory} {len maxw : Nat} (blk : Bool) (hm : maxw ≤ 31)
    (same : ∀ i, i < len → data₁.read .data i = data₂.read .data i) (c d : EncCtx) :
    (compressRun P data₁ len maxw blk c).Alike (compressRun P data₂ len maxw blk d) := by
  obtain ⟨bf₁, header₁, run₁⟩ := compressRun_eq (P := P) hm blk data₁ len c
  obtain ⟨bf₂, header₂, run₂⟩ := compressRun_eq (P := P) hm blk data₂ len d
  rw [run₁, run₂]
  exact (scanLoop_alike same (Nat.zero_add len) ⟨bf₂, header₁.alike header₂, rfl⟩).andThen
    fun _ _ => flush_alike

/-- Settles O45: both commands fail the same start check, or run alike. -/
theorem compressDeterminism : Obligations.CompressDeterminism := by
  intro s₁ s₂ t₁ t₂ maxw blk accepted₁ accepted₂ params dataLen same run₁ run₂
  cases (exec_eq _ s₁).symm.trans run₁
  cases (exec_eq _ s₂).symm.trans run₂
  by_cases outside : maxw < 9 ∨ 31 < maxw
  · rw [endOf, compressEnd_configMaxw blk s₁ outside, compressEnd_configMaxw blk s₂ outside]
    exact ⟨rfl, rfl, rfl, fun h9 h31 => by omega⟩
  obtain ⟨h9, h31⟩ : 9 ≤ maxw ∧ maxw ≤ 31 := by omega
  by_cases tooLong : s₁.params.dataCap < s₁.dataLen.toNat
  · rw [endOf, compressEnd_capacity blk h9 h31 tooLong, compressEnd_capacity blk h9 h31 (params ▸ dataLen ▸ tooLong)]
    exact ⟨rfl, rfl, rfl, fun _ _ fits => absurd tooLong (Nat.not_lt.mpr fits)⟩
  have fits₁ := Nat.le_of_not_lt tooLong
  have fits₂ : s₂.dataLen.toNat ≤ s₂.params.dataCap := params ▸ dataLen ▸ fits₁
  have alike := compressRun_alike (P := s₁.params) blk h31 same s₁.encBegin s₂.encBegin
  cases left : compressRun s₁.params s₁.data s₁.dataLen.toNat maxw blk s₁.encBegin <;>
    cases right : compressRun s₁.params s₂.data s₁.dataLen.toNat maxw blk s₂.encBegin <;> rw [left, right] at alike <;>
    rw [params, dataLen] at right
  case ok.ok c d =>
    obtain ⟨_, ⟨order, size, bytes⟩, rfl⟩ := alike
    obtain ⟨-, -, err₁, code₁, -⟩ := accepted₁
    obtain ⟨-, -, err₂, code₂, -⟩ := accepted₂
    rw [endOf, compressEnd_ok h9 h31 fits₁ left, compressEnd_ok h9 h31 fits₂ right]
    exact ⟨err₁.trans err₂.symm, size, code₁.trans code₂.symm, fun _ _ _ => ⟨size, order, bytes⟩⟩
  case raised.raised e c e' d =>
    obtain ⟨rfl, _, ⟨order, -⟩, rfl⟩ := alike
    obtain ⟨bf, header, run⟩ := compressRun_eq (P := s₁.params) h31 blk s₁.data s₁.dataLen.toNat s₁.encBegin
    obtain ⟨rfl, -⟩ := compressRun_raised (EncCtx.start_scanning blk h9 header.size) (run.symm.trans left)
    rw [endOf, compressEnd_raised h9 h31 fits₁ left, compressEnd_raised h9 h31 fits₂ right]
    exact ⟨rfl, rfl, rfl, fun _ _ _ => ⟨rfl, order, fun i inside => absurd inside (Nat.not_lt_zero i)⟩⟩
  case ok.raised => exact alike.elim
  case raised.ok => exact alike.elim

end Sys2Proof.Machine
end

section
/-! PROOF of O25, O26, O28 and O29: how every command ends, with which errors, and what it leaves unchanged
(60_exceptions.md R240 to R253, 20_memory.md R61). -/
namespace Sys2Proof.Machine

variable {P : Params} {bf : BitField} {s : State} {e : Raise}

/-! ### The errors of a stream -/

/-- The errors DECOMPRESS can raise past its pre-check (60_exceptions.md R249). -/
def Raise.OfDecoder (e : Raise) : Prop := e.err ∈ [ErrCode.capacity, .streamTruncated, .streamBadMagic, .streamBadCode]

theorem capacity_ofDecoder : Raise.OfDecoder { err := .capacity } := by simp [Raise.OfDecoder]

theorem truncated_ofDecoder : Raise.OfDecoder { err := .streamTruncated } := by simp [Raise.OfDecoder]

theorem badMagic_ofDecoder (found expected bitpos : Nat) : (badMagic found expected bitpos).OfDecoder := by
  simp [Raise.OfDecoder, badMagic]

theorem badCode_ofDecoder (code expected bitpos : Nat) : (badCode code expected bitpos).OfDecoder := by
  simp [Raise.OfDecoder, badCode]

theorem readFlags_ofDecoder (h : readFlags bf = .error e) : e.OfDecoder := by
  by_cases short : bf.size.toNat < 3
  · cases (readFlags_truncated short).symm.trans h
    exact truncated_ofDecoder
  · rw [readFlags_of_three_le (Nat.le_of_not_lt short)] at h
    split at h
    · cases h
      exact badMagic_ofDecoder _ _ _
    · split at h <;> cases h
      exact badMagic_ofDecoder _ _ _

theorem firstCodeStep_ofDecoder {c c' : DecCtx} (h : firstCodeStep P bf c = .raised e c') : e.OfDecoder := by
  rcases firstCodeStep_cases P bf c with
    ⟨-, step⟩ | ⟨code, -, -, step⟩ | ⟨_, -, -, -, step⟩ | ⟨_, -, -, step⟩ <;> cases step.symm.trans h
  · exact badCode_ofDecoder _ _ _
  · exact capacity_ofDecoder

theorem mainStep_ofDecoder {c c' : DecCtx} (h : mainStep P bf c = .raised e c') : e.OfDecoder := by
  rcases mainStep_cases P bf c with ⟨-, step⟩ | ⟨-, -, step⟩ | ⟨_, -, -, ⟨_, -, step⟩ | ⟨_, _, raised, step⟩⟩
  case inl => cases step.symm.trans h
  case inr.inl => exact firstCodeStep_ofDecoder (step.symm.trans h)
  case inr.inr.inl => cases step.symm.trans h
  case inr.inr.inr =>
    cases step.symm.trans h
    rcases expandCode_raised raised with ⟨-, -, rfl, -⟩ | ⟨rfl, -⟩
    · exact badCode_ofDecoder _ _ _
    · exact capacity_ofDecoder

theorem decompressRun_ofDecoder {c c' : DecCtx} (h : decompressRun P bf c = .raised e c') : e.OfDecoder := by
  cases header : readFlags bf with
  | error e₁ =>
    cases (decompressRun_headerError header).symm.trans h
    exact readFlags_ofDecoder header
  | ok flags =>
    rcases decompressRun_cases header with ⟨_, -, run⟩ | ⟨_, _, raised, run⟩ | ⟨_, -, run⟩
    · cases run.symm.trans h
    · cases run.symm.trans h
      exact firstCodeStep_ofDecoder raised
    · obtain ⟨_, -, raised⟩ :=
        mainLoop_raised (fun _ => True) (fun _ _ _ _ => trivial) _ _ e c' trivial (run.symm.trans h)
      exact mainStep_ofDecoder raised

/-- A COMPRESS past its start checks can only lack room (41_encoder.md R179). -/
theorem compressRun_capacity {c c' : EncCtx} {data : Memory} {len maxw : Nat} {blk : Bool} (h9 : 9 ≤ maxw)
    (h31 : maxw ≤ 31) (h : compressRun P data len maxw blk c = .raised e c') : e = { err := .capacity } := by
  obtain ⟨bf, header, run⟩ := compressRun_eq (P := P) h31 blk data len c
  obtain ⟨isCapacity, -⟩ := compressRun_raised (EncCtx.start_scanning blk h9 header.size) (run.symm.trans h)
  exact isCapacity

/-! ### The three ways a command ends -/

/-- The errors of each command (60_exceptions.md R244, R246 to R249). -/
def errorsOf : Instr → List ErrCode
  | .setbit => [.configOverflow, .capacity]
  | .getbit => [.capacity]
  | .setint _ => [.configOverflow, .capacity]
  | .getint _ => [.capacity]
  | .compress _ _ => [.configMaxw, .capacity]
  | .decompress => [.capacity, .streamTruncated, .streamBadMagic, .streamBadCode]

theorem none_not_mem_errorsOf (i : Instr) : ErrCode.none ∉ errorsOf i := by
  cases i <;> simp [errorsOf]

/-- The command ended normally: of STATUS only BUSY was written. -/
def State.CompletedFrom (s t : State) : Prop := t.status = { s.status with busy := false }

/-- The command ended by one of the errors of a list: of STATUS BUSY and ERR were written, and RESULT is 0. -/
def State.FailedFrom (s t : State) (errors : List ErrCode) : Prop :=
  ∃ e ∈ errors, t.status = { s.status with busy := false, err := e } ∧ t.result = 0

theorem failedWith_failedFrom {err : ErrCode} {errors : List ErrCode} (h : err ∈ errors) (s : State) :
    s.FailedFrom (s.failedWith err) errors := ⟨err, h, rfl, rfl⟩

/-- Every command completes, lacks data as a GETINT, or fails by one of its errors. -/
theorem endOf_ends (i : Instr) (s : State) :
    s.CompletedFrom (endOf i s) ∨
      (∃ w, i = .getint w ∧ s.bf.size.toNat ≤ s.params.bfCap ∧ s.bf.getInt s.pos w = none ∧
        endOf i s = State.finishedWith 0 { s with status := { s.status with nodata := true } }) ∨
      s.FailedFrom (endOf i s) (errorsOf i) := by
  cases i with
  | setbit =>
    rcases setbitEnd_cases s with ⟨-, ended⟩ | ended | ⟨_, -, ended⟩ <;> rw [endOf, ended]
    · exact .inr (.inr (failedWith_failedFrom (by simp [errorsOf]) s))
    · exact .inr (.inr (failedWith_failedFrom (by simp [errorsOf]) s))
    · exact .inl rfl
  | getbit =>
    rcases getbitEnd_cases s with ended | ⟨_, -, ended⟩ <;> rw [endOf, ended]
    · exact .inr (.inr (failedWith_failedFrom (by simp [errorsOf]) s))
    · exact .inl rfl
  | setint w =>
    rcases setintEnd_cases w s with ⟨-, ended⟩ | ended | ⟨_, -, ended⟩ <;> rw [endOf, ended]
    · exact .inr (.inr (failedWith_failedFrom (by simp [errorsOf]) s))
    · exact .inr (.inr (failedWith_failedFrom (by simp [errorsOf]) s))
    · exact .inl rfl
  | getint w =>
    rcases getintEnd_cases w s with ended | ⟨fits, lacks, ended⟩ | ⟨_, -, ended⟩ <;> rw [endOf, ended]
    · exact .inr (.inr (failedWith_failedFrom (by simp [errorsOf]) s))
    · exact .inr (.inl ⟨w, rfl, fits, lacks, rfl⟩)
    · exact .inl rfl
  | compress maxw blk =>
    rcases compressEnd_cases maxw blk s with
      ⟨-, ended⟩ | ⟨-, -, ended⟩ | ⟨⟨h9, h31⟩, -, ⟨_, -, ended⟩ | ⟨e, _, run, ended⟩⟩ <;> rw [endOf, ended]
    · exact .inr (.inr (failedWith_failedFrom (by simp [errorsOf]) s))
    · exact .inr (.inr (failedWith_failedFrom (by simp [errorsOf]) s))
    · exact .inl rfl
    · obtain rfl := compressRun_capacity h9 h31 run
      exact .inr (.inr ⟨.capacity, by simp [errorsOf], rfl, rfl⟩)
  | decompress =>
    rcases decompressEnd_cases s with ⟨-, ended⟩ | ⟨-, ⟨_, -, ended⟩ | ⟨e, _, run, ended⟩⟩ <;> rw [endOf, ended]
    · exact .inr (.inr (failedWith_failedFrom (by simp [errorsOf]) s))
    · exact .inl rfl
    · exact .inr (.inr ⟨e.err, decompressRun_ofDecoder run, rfl, rfl⟩)

/-- Settles O26: the three ends, none of whose errors is NONE. -/
theorem everyCommandEnds : Obligations.EveryCommandEnds := by
  intro i s ⟨_, nodata, err, _⟩
  obtain ⟨idle, -⟩ := endOf_frame i s
  refine ⟨endOf i s, exec_eq i s, idle, ?_⟩
  rcases endOf_ends i s with completed | ⟨w, isGetint, -, -, ended⟩ | ⟨e, isError, failed, result⟩
  · rw [completed]
    exact .inl ⟨err, nodata⟩
  · rw [ended]
    exact .inr (.inl ⟨err, rfl, rfl, w, isGetint⟩)
  · rw [failed]
    exact .inr (.inr ⟨fun none => none_not_mem_errorsOf i (none ▸ isError), nodata, result⟩)

/-- A command ends with no error or with one of its own. -/
theorem endOf_err (h : s.accepted) (i : Instr) : (endOf i s).status.err ∈ ErrCode.none :: errorsOf i := by
  obtain ⟨-, -, err, -⟩ := h
  rcases endOf_ends i s with completed | ⟨_, -, -, -, ended⟩ | ⟨e, isError, failed, -⟩
  · rw [completed]
    exact List.mem_cons.mpr (.inl err)
  · rw [ended]
    exact List.mem_cons.mpr (.inl err)
  · rw [failed]
    exact List.mem_cons_of_mem _ isError

/-- Settles O28: the list of each command. -/
theorem errorsOfEachCommand : Obligations.ErrorsOfEachCommand := by
  intro i s t accepted run
  cases (exec_eq i s).symm.trans run
  have errors := endOf_err accepted i
  refine ⟨?_, ?_, fun _ => ?_, fun _ => ?_, fun _ _ => ?_, ?_⟩ <;> (rintro rfl; exact errors)

/-- Settles O29: only the second end sets NODATA, and GETINT ends that way when its data are short. -/
theorem nodataOnlyByGetint : Obligations.NodataOnlyByGetint := by
  intro i s t ⟨_, nodata, _⟩ run
  cases (exec_eq i s).symm.trans run
  constructor
  · intro set
    rcases endOf_ends i s with completed | ⟨w, isGetint, fits, lacks, -⟩ | ⟨_, -, failed, -⟩
    · rw [completed] at set
      exact absurd (nodata.symm.trans set) Bool.noConfusion
    · refine ⟨w, isGetint, fits, Nat.lt_of_not_le fun enough => ?_⟩
      obtain ⟨v, found, -⟩ := BitField.getInt_some (bf := s.bf) enough
      cases lacks.symm.trans found
    · rw [failed] at set
      exact absurd (nodata.symm.trans set) Bool.noConfusion
  · rintro ⟨w, rfl, fits, short⟩
    rw [endOf, getintEnd_nodata fits (BitField.getInt_none short)]
    rfl

/-! ### What a command leaves unchanged -/

/-- The state is `s` but for the BitField's bytes and size, STATUS, RESULT and the diagnostics. -/
def State.BitFieldFrame (s t : State) : Prop :=
  t.data = s.data ∧ t.dataLen = s.dataLen ∧ t.bf.order = s.bf.order ∧ t.enc = s.enc ∧ t.edict = s.edict ∧
    t.dec = s.dec ∧ t.ddict = s.ddict

theorem setintEnd_frame (w : Nat) (s : State) : s.BitFieldFrame (setintEnd w s) := by
  rcases setintEnd_cases w s with ⟨-, ended⟩ | ended | ⟨bf, written, ended⟩ <;> rw [ended]
  · exact ⟨rfl, rfl, rfl, rfl, rfl, rfl, rfl⟩
  · exact ⟨rfl, rfl, rfl, rfl, rfl, rfl, rfl⟩
  · obtain ⟨-, -, order, -⟩ := BitField.setInt_spec written
    exact ⟨rfl, rfl, order, rfl, rfl, rfl, rfl⟩

/-- 20_memory.md R61: a BitField command writes the BitField and the command-end fields alone. -/
theorem endOf_bitFieldFrame {i : Instr} (isBf : isBitField i = true) (s : State) : s.BitFieldFrame (endOf i s) := by
  cases i with
  | setbit =>
    rw [endOf, setbitEnd_eq_setintEnd_one]
    exact setintEnd_frame 1 s
  | getbit =>
    rcases getbitEnd_cases s with ended | ⟨bf, grown, ended⟩ <;> rw [endOf, ended]
    · exact ⟨rfl, rfl, rfl, rfl, rfl, rfl, rfl⟩
    · obtain ⟨-, order, -⟩ := BitField.ensureBit_spec grown
      exact ⟨rfl, rfl, order, rfl, rfl, rfl, rfl⟩
  | setint w => exact setintEnd_frame w s
  | getint w =>
    rcases getintEnd_cases w s with ended | ⟨-, -, ended⟩ | ⟨_, -, ended⟩ <;> rw [endOf, ended] <;>
      exact ⟨rfl, rfl, rfl, rfl, rfl, rfl, rfl⟩
  | compress maxw blk => cases isBf
  | decompress => cases isBf

theorem compressEnd_frame (maxw : Nat) (blk : Bool) (s : State) :
    (compressEnd maxw blk s).data = s.data ∧ (compressEnd maxw blk s).dataLen = s.dataLen ∧
      (compressEnd maxw blk s).dec = s.dec ∧ (compressEnd maxw blk s).ddict = s.ddict := by
  rcases compressEnd_cases maxw blk s with ⟨-, ended⟩ | ⟨-, -, ended⟩ | ⟨-, -, ⟨_, -, ended⟩ | ⟨_, _, -, ended⟩⟩ <;>
    rw [ended] <;> exact ⟨rfl, rfl, rfl, rfl⟩

theorem decompressEnd_frame (s : State) :
    (decompressEnd s).bf.bytes = s.bf.bytes ∧ (decompressEnd s).bf.size = s.bf.size ∧
      (decompressEnd s).enc = s.enc ∧ (decompressEnd s).edict = s.edict := by
  rcases decompressEnd_cases s with ⟨-, ended⟩ | ⟨-, ⟨_, -, ended⟩ | ⟨_, _, -, ended⟩⟩ <;>
    rw [ended] <;> exact ⟨rfl, rfl, rfl, rfl⟩

/-- Settles O25: the frame of every command, and of each kind of command. -/
theorem commandFrame : Obligations.CommandFrame := by
  intro i s t run
  cases (exec_eq i s).symm.trans run
  obtain ⟨-, reject, params, cmd, arg0, arg1, inputs, rdata, freeCount⟩ := endOf_frame i s
  refine ⟨arg0, arg1, reject, params, cmd, inputs, rdata, freeCount, fun isBf => endOf_bitFieldFrame isBf s, ?_, ?_, ?_⟩
  · rintro maxw blk rfl
    exact compressEnd_frame maxw blk s
  · rintro rfl
    exact decompressEnd_frame s
  · rintro w rfl
    exact getintEnd_bf w s

end Sys2Proof.Machine
end

section
/-! PROOF of O53, O54 and O55: the strings of a dictionary, the decoder's loop state, and the end of its main loop
(10_state.md R46, 42_decoder.md R208 to R217). -/
namespace Sys2Proof.Machine

variable {P : Params} {bf : BitField} {c c' : DecCtx} {code : Nat}

/-- Settles O53: bytes are implicit, and an entry's prefix is older than the entry. -/
theorem stringsFollowEntries : Obligations.StringsFollowEntries := by
  intro blk d form
  refine ⟨fun c => ?_, dictStr_entry (firstCode_ge blk) form⟩
  rw [dictStr_byte d c.isLt, BitVec.ofNat_toNat, BitVec.setWidth_eq]

/-! ### The registers after a code -/

@[simp] theorem decWidthStep_maxw (r : DecRegs) : (decWidthStep r).maxw = r.maxw := by
  unfold decWidthStep; split <;> rfl

@[simp] theorem decWidthStep_wtop (r : DecRegs) : (decWidthStep r).wtop = r.wtop := by
  unfold decWidthStep; split <;> rfl

@[simp] theorem decWidthStep_blk (r : DecRegs) : (decWidthStep r).blk = r.blk := by
  unfold decWidthStep; split <;> rfl

/-- The width never falls, and it grows to the maximum at most. -/
theorem decWidthStep_width_le (r : DecRegs) :
    r.width ≤ (decWidthStep r).width ∧ (decWidthStep r).width ≤ max r.width r.maxw := by
  rw [decWidthStep_width]
  split <;> omega

/-- What a code read at d.pos is: an integer of d.width bits inside the BitField. -/
theorem codeAt_some (h : codeAt bf c = some code) :
    c.regs.pos + c.regs.width ≤ 8 * bf.size.toNat ∧ bf.holdsInt c.regs.pos c.regs.width code := BitField.getInt_spec h

/-! ### The loop state -/

/-- A first code after a dictionary reset establishes the loop state: the dictionary is empty and the code is a byte. -/
theorem firstCodeStep_mirrors (wide : 9 ≤ c.regs.wtop) (maxw : c.regs.maxw ≤ c.regs.wtop)
    (step : firstCodeStep P bf (decReset c) = .go c') : c'.Mirrors := by
  rcases firstCodeStep_cases P bf (decReset c) with ⟨-, h⟩ | ⟨_, -, -, h⟩ | ⟨_, -, -, -, h⟩ | ⟨b, -, -, h⟩
  case inr.inr.inr =>
    cases h.symm.trans step
    have top : 2 ^ 9 ≤ 2 ^ c.regs.wtop := Nat.pow_le_pow_right (by decide) wide
    have first : firstCode c.regs.blk ≤ 2 ^ c.regs.wtop :=
      Nat.le_trans (firstCode_le _) (Nat.le_trans (show 257 ≤ 2 ^ 9 by decide) top)
    exact ⟨trivial, rfl, first, ⟨Nat.le_refl 9, wide⟩, maxw, knownCodeIn_byte _ _ b⟩
  all_goals cases h.symm.trans step

/-- A code that is no RESET_CODE keeps the loop state: it stores the entry for d.next exactly where d.next advances. -/
theorem DecCtx.Mirrors.advanced {p0 : Nat} {c₁ : DecCtx} (h : c.Mirrors) (isCode : codeAt bf c = some code)
    (expanded : expandCode P code p0 (decAdvance c) = .ok c₁) : (c₁.advanced code).Mirrors := by
  obtain ⟨-, inWidth, -⟩ := codeAt_some isCode
  obtain ⟨wide, inTop⟩ := h.width_range
  have belowTop : code < 2 ^ c.regs.wtop := Nat.lt_of_lt_of_le inWidth (Nat.pow_le_pow_right (by decide) inTop)
  obtain ⟨meaning, -, stored⟩ := expandCode_ok.mp expanded
  have known : present c.regs code = true → knownCodeIn (firstCode c.regs.blk) c.dict code := (h.present_iff code).mp
  have width (r : DecRegs) (same : r.width = c.regs.width ∧ r.maxw = c.regs.maxw) :
      9 ≤ (decWidthStep r).width ∧ (decWidthStep r).width ≤ c.regs.wtop := by
    obtain ⟨grows, bounded⟩ := decWidthStep_width_le r
    have := h.maxw_le
    omega
  have next_eq := h.next_eq
  rcases stored with ⟨full, rfl⟩ | ⟨growing, -, rfl⟩
  · have notNext : code ≠ c.regs.next := by rintro rfl; exact absurd belowTop (Nat.not_lt.mpr full)
    have stays : ¬c.regs.next < 2 ^ c.regs.wtop := Nat.not_lt.mpr full
    refine ⟨?_, ?_, ?_, ?_, ?_, ?_⟩ <;>
      simp only [decWidthStep_blk, decWidthStep_next, decWidthStep_wtop, decWidthStep_maxw, decWidthStep_seen]
    · exact h.form
    · exact (if_neg stays).trans next_eq
    · exact (if_neg stays).trans_le h.next_le
    · exact width _ ⟨rfl, rfl⟩
    · exact h.maxw_le
    · exact known (meaning.resolve_right notNext)
  · have grows : c.regs.next < 2 ^ c.regs.wtop := growing
    refine ⟨?_, ?_, ?_, ?_, ?_, ?_⟩ <;>
      simp only [decWidthStep_blk, decWidthStep_next, decWidthStep_wtop, decWidthStep_maxw, decWidthStep_seen]
    · exact ⟨next_eq, h.seen_known, h.form⟩
    · refine (if_pos grows).trans ?_
      show c.regs.next + 1 = firstCode c.regs.blk + (c.dict.length + 1)
      omega
    · exact (if_pos grows).trans_le grows
    · exact width _ ⟨rfl, rfl⟩
    · exact h.maxw_le
    · rcases meaning with isPresent | isNext
      · exact knownCodeIn_cons _ (known isPresent)
      · have isNew : code = c.regs.next := isNext
        have first := firstCode_ge c.regs.blk
        refine .inr ?_
        show firstCode c.regs.blk ≤ code ∧ code < firstCode c.regs.blk + (c.dict.length + 1)
        omega

/-- Every code keeps the loop state. -/
theorem DecCtx.Mirrors.next (h : c.Mirrors) (step : mainStep P bf c = .go c') : c'.Mirrors := by
  rcases mainStep_cases P bf c with
    ⟨-, taken⟩ | ⟨-, -, taken⟩ | ⟨code, isCode, -, ⟨c₁, expanded, taken⟩ | ⟨_, _, -, taken⟩⟩
  case inr.inl =>
    have wide := Nat.le_trans h.width_range.1 h.width_range.2
    exact firstCodeStep_mirrors (c := decAdvance c) wide h.maxw_le (taken.symm.trans step)
  case inr.inr.inl =>
    cases taken.symm.trans step
    exact h.advanced isCode expanded
  all_goals cases taken.symm.trans step

/-- Settles O54: the first code establishes the loop state and every later one keeps it. -/
theorem decoderEntriesComplete : Obligations.DecoderEntriesComplete := fun _ _ _ _ =>
  ⟨firstCodeStep_mirrors, fun h => h.next, fun h => h.present_iff⟩

/-! ### The end of the main loop -/

/-- A first code takes d.width bits of the stream. -/
theorem firstCodeStep_advances (step : firstCodeStep P bf c = .go c') :
    c'.regs.pos = c.regs.pos + c.regs.width ∧ c'.regs.width = c.regs.width ∧ c'.regs.pos ≤ 8 * bf.size.toNat := by
  rcases firstCodeStep_cases P bf c with ⟨-, h⟩ | ⟨_, -, -, h⟩ | ⟨_, -, -, -, h⟩ | ⟨_, isCode, -, h⟩
  case inr.inr.inr =>
    cases h.symm.trans step
    exact ⟨rfl, rfl, (codeAt_some isCode).1⟩
  all_goals cases h.symm.trans step

/-- Each turn of the main loop takes at least nine bits of the stream. -/
theorem mainStep_advances (wide : 9 ≤ c.regs.width) (step : mainStep P bf c = .go c') :
    9 ≤ c'.regs.width ∧ c.regs.pos + 9 ≤ c'.regs.pos ∧ c'.regs.pos ≤ 8 * bf.size.toNat := by
  rcases mainStep_cases P bf c with
    ⟨-, taken⟩ | ⟨-, -, taken⟩ | ⟨code, isCode, -, ⟨c₁, expanded, taken⟩ | ⟨_, _, -, taken⟩⟩
  case inr.inl =>
    obtain ⟨pos, width, inside⟩ := firstCodeStep_advances (taken.symm.trans step)
    have start : c'.regs.pos = c.regs.pos + c.regs.width + 9 := pos
    exact ⟨Nat.le_of_eq width.symm, by omega, inside⟩
  case inr.inr.inl =>
    cases taken.symm.trans step
    obtain ⟨inside, -⟩ := codeAt_some isCode
    have kept : c₁.regs.pos = c.regs.pos + c.regs.width ∧ c₁.regs.width = c.regs.width := by
      obtain ⟨-, -, ⟨-, rfl⟩ | ⟨-, -, rfl⟩⟩ := expandCode_ok.mp expanded <;> exact ⟨rfl, rfl⟩
    obtain ⟨pos, width⟩ := kept
    have grows : c₁.regs.width ≤ (c₁.advanced code).regs.width := (decWidthStep_width_le (decNext code c₁.regs)).1
    have same : (c₁.advanced code).regs.pos = c₁.regs.pos := decWidthStep_pos _
    omega
  all_goals cases taken.symm.trans step

/-- With at least as many turns as the rest of the stream has codes, more turns change nothing. -/
theorem mainLoop_enough {k n : Nat} (wide : 9 ≤ c.regs.width) (enough : (8 * bf.size.toNat - c.regs.pos) / 9 + 1 ≤ k)
    (more : k ≤ n) : mainLoop P bf n c = mainLoop P bf k c := by
  induction k generalizing c n with
  | zero => omega
  | succ k ih =>
    obtain ⟨n, rfl⟩ : ∃ m, n = m + 1 := ⟨n - 1, by omega⟩
    rw [mainLoop, mainLoop]
    cases step : mainStep P bf c with
    | ended c' => rfl
    | raised e c' => rfl
    | go c' =>
      obtain ⟨wide', advances, inside⟩ := mainStep_advances wide step
      exact ih wide' (by omega) (by omega)

/-- Settles O55: after the header the rest of the stream has no more codes than the bound. -/
theorem decompressTerminates : Obligations.DecompressTerminates := by
  intro P bf c n started wide more
  have rest : (8 * bf.size.toNat - c.regs.pos) / 9 + 1 ≤ codeReads bf :=
    Nat.add_le_add_right (Nat.div_le_div_right (Nat.sub_le_sub_left started _)) 1
  exact mainLoop_enough wide rest more

end Sys2Proof.Machine
end

section
/-! PROOF of O48, O49 and O50: DECOMPRESS of a stream without a code, with a bad first code, and of byte codes of width 9
(42_decoder.md R204 to R213). -/
namespace Sys2Proof.Machine

variable {P : Params} {bf : BitField} {c c' : DecCtx} {code : Nat} {s : State}

/-! ### The command's two ends past a good header -/

theorem readFlags_ok (h : 3 ≤ bf.size.toNat) (h0 : bf.bytes.read .bf 0 = 0x1F) (h1 : bf.bytes.read .bf 1 = 0x9D) :
    readFlags bf = .ok (bf.bytes.read .bf 2).toNat := by
  rw [readFlags_of_three_le h, if_neg (not_not.mpr h0), if_neg (not_not.mpr h1)]

theorem decompressEnd_ok (fits : s.bf.size.toNat ≤ s.params.bfCap)
    (run : decompressRun s.params (wrapBF s.params s.bf) (decBegin s) = .ok c) :
    decompressEnd s =
      State.finishedWith (word c.regs.out)
        { s with
          bf := wrapBF s.params s.bf, dec := c.regs, ddict := c.dict, data := c.data, dataLen := word c.regs.out } := by
  rw [decompressEnd, if_neg (Bool.eq_false_iff.mp (bfOverCapacity_of_le fits)), run]
  rfl

/-- An error before any output leaves DATA (42_decoder.md R219). -/
theorem decompressEnd_raised_early {e : Raise} (fits : s.bf.size.toNat ≤ s.params.bfCap) (noOutput : c.regs.out = 0)
    (run : decompressRun s.params (wrapBF s.params s.bf) (decBegin s) = .raised e c) :
    decompressEnd s =
      raiseError e { s with bf := wrapBF s.params s.bf, dec := c.regs, ddict := c.dict, dataLen := 0 } := by
  rw [decompressEnd, if_neg (Bool.eq_false_iff.mp (bfOverCapacity_of_le fits)), run]
  simp only [decompressFailed, if_pos noOutput]

theorem decompressRun_ended {flags : Nat} (header : readFlags bf = .ok flags)
    (h : codeAt bf (c.primed flags) = none) : decompressRun P bf c = .ok (c.primed flags) := by
  simp only [decompressRun, header, firstCodeStep_ended h]

theorem decompressRun_badCode {flags : Nat} (header : readFlags bf = .ok flags)
    (h : codeAt bf (c.primed flags) = some code) (above : 256 ≤ code) :
    decompressRun P bf c =
      .raised (badCode code (firstCode (flagsBlk flags)) headerBits) (decAdvance (c.primed flags)) := by
  simp only [decompressRun, header, firstCodeStep_badCode h above]
  rfl

/-- The first code of a stream establishes the loop state (42_decoder.md R203, R204). -/
theorem primed_mirrors {flags : Nat} (step : firstCodeStep P bf (c.primed flags) = .go c') : c'.Mirrors :=
  firstCodeStep_mirrors (c := decStart { c with regs := decConfigure flags c.regs }) (Nat.le_max_left 9 _)
    (Nat.le_max_right 9 _) step

/-! ### No code, and a bad first code -/

/-- Settles O48: nine bits do not fit after the header, so the stream ends at its first code. -/
theorem decompressHeaderOnly : Obligations.DecompressHeaderOnly := by
  intro s fits size h0 h1
  have header : readFlags (wrapBF s.params s.bf) = .ok (s.bf.bytes.read .bf 2).toNat :=
    readFlags_ok (by show 3 ≤ s.bf.size.toNat; omega) h0 h1
  have noCode : codeAt (wrapBF s.params s.bf) ((decBegin s).primed (s.bf.bytes.read .bf 2).toNat) = none :=
    BitField.getInt_none (by show 8 * s.bf.size.toNat < 24 + 9; omega)
  exact ⟨_, exec_eq_next (decompressEnd_ok fits (decompressRun_ended header noCode)), rfl⟩

/-- FIRST_CODE as the diagnostics report it, read off the flags byte (00_scope.md R10, 30_encoding.md R101). -/
theorem word_firstCode_flagsBlk (flags : Byte) :
    word (firstCode (flagsBlk flags.toNat)) = if flags.getLsbD 7 then 257 else 256 := by
  rw [flagsBlk, BitVec.testBit_toNat]
  cases flags.getLsbD 7 <;> rfl

/-- Settles O49: the first code is read at bit 24 with width 9 and must be a byte. -/
theorem firstCodeMustBeByte : Obligations.FirstCodeMustBeByte := by
  intro s code fits h0 h1 isCode above
  obtain ⟨inside, -⟩ := BitField.getInt_spec isCode
  have long : 24 + 9 ≤ 8 * s.bf.size.toNat := inside
  have header : readFlags (wrapBF s.params s.bf) = .ok (s.bf.bytes.read .bf 2).toNat :=
    readFlags_ok (by show 3 ≤ s.bf.size.toNat; omega) h0 h1
  have run := decompressRun_badCode (P := s.params) (c := decBegin s) header isCode above
  have ended := decompressEnd_raised_early fits rfl run
  have expected : word (badCode code (firstCode (flagsBlk (s.bf.bytes.read .bf 2).toNat)) headerBits).expect = _ :=
    word_firstCode_flagsBlk (s.bf.bytes.read .bf 2)
  rw [raiseError_eq_failedAs, expected] at ended
  exact ⟨_, exec_eq_next ended⟩

/-! ### One code of the loop -/

/-- `c` after the code `code` that output `xs` and left the dictionary `dict` (42_decoder.md R209 to R213). -/
abbrev DecCtx.decoded (c : DecCtx) (code : Nat) (xs : List Byte) (dict : List Entry) : DecCtx :=
  DecCtx.advanced { (decAdvance c).withOutput xs with dict := dict } code

/-- In a loop state a code with a meaning, and the room for it, goes on. -/
theorem DecCtx.Mirrors.decodes (mirrors : c.Mirrors) (isCode : codeAt bf c = some code)
    (noReset : ¬(c.regs.blk = true ∧ code = resetCode)) {word : List Byte}
    (meaning : (knownCodeIn (firstCode c.regs.blk) c.dict code ∧ word = dictStr c.dict code) ∨
      (code = c.regs.next ∧ word = dictStr c.dict c.regs.seen ++ (dictStr c.dict c.regs.seen).take 1))
    (limit : c.regs.next < P.dictLimit ∨ 2 ^ c.regs.wtop ≤ c.regs.next)
    (room : c.regs.out + word.length ≤ P.dataCap) :
    ∃ dict, mainStep P bf c = .go (c.decoded code word dict) ∧
      (2 ^ c.regs.wtop ≤ c.regs.next → dict = c.dict) ∧
      (c.regs.next < 2 ^ c.regs.wtop →
        dict = { code := c.regs.next, pre := c.regs.seen, byte := firstByte word } :: c.dict) := by
  obtain ⟨hasWord, rfl⟩ := mirrors.expansion_eq meaning
  obtain ⟨dict, expanded, stored⟩ :=
    expandCode_stores (c := decAdvance c) (p0 := c.regs.pos) hasWord limit room
  exact ⟨dict, mainStep_go isCode noReset expanded, stored⟩

/-! ### Byte codes -/

/-- The rest of a stream of byte codes of width 9, its loop state, and the room for its output. -/
structure DecCtx.Literal (P : Params) (bf : BitField) (codes : List Byte) (c : DecCtx) : Prop where
  mirrors : c.Mirrors
  width : c.regs.width = 9
  maxw : c.regs.maxw ≤ 9
  wtop : c.regs.wtop = 9
  fits : c.regs.pos + 9 * codes.length ≤ 8 * bf.size.toNat
  rest : 8 * bf.size.toNat < c.regs.pos + 9 * (codes.length + 1)
  room : c.regs.out + codes.length ≤ P.dataCap
  held : ∀ k (h : k < codes.length), bf.holdsInt (c.regs.pos + 9 * k) 9 codes[k].toNat

/-- The first byte of what is left is decoded as itself, at the same width. -/
theorem DecCtx.Literal.step {b : Byte} {codes : List Byte} (h : c.Literal P bf (b :: codes)) :
    ∃ c', mainStep P bf c = .go c' ∧ c'.Literal P bf codes ∧ c'.regs.out = c.regs.out + 1 ∧
      c'.data = c.data.write c.regs.out b := by
  have fits := h.fits
  have rest := h.rest
  have room := h.room
  have width := h.width
  have maxw := h.maxw
  simp only [List.length_cons] at fits rest room
  have isCode : codeAt bf c = some b.toNat := by
    rw [codeAt, width]
    exact BitField.getInt_of_holdsInt (by omega) (h.held 0 (Nat.zero_lt_succ _))
  have noReset : ¬(c.regs.blk = true ∧ b.toNat = resetCode) := fun isReset => absurd b.isLt (by rw [isReset.2]; decide)
  have string : [b] = dictStr c.dict b.toNat := by
    rw [dictStr_byte c.dict b.isLt, BitVec.ofNat_toNat, BitVec.setWidth_eq]
  have limit : c.regs.next < P.dictLimit ∨ 2 ^ c.regs.wtop ≤ c.regs.next := by
    have := P.dictLimit_legal.1
    rw [h.wtop]
    omega
  obtain ⟨dict, step, -⟩ := h.mirrors.decodes isCode noReset (.inl ⟨knownCodeIn_byte _ _ b, string⟩) limit
    (Nat.le_trans (Nat.add_le_add_left (Nat.le_add_left 1 codes.length) _) room)
  have pos : (c.decoded b.toNat [b] dict).regs.pos = c.regs.pos + 9 := by rw [decWidthStep_pos, ← width]; rfl
  have out : (c.decoded b.toNat [b] dict).regs.out = c.regs.out + 1 := by rw [decWidthStep_out]; rfl
  refine ⟨_, step, ⟨h.mirrors.next step, ?_, ?_, ?_, ?_, ?_, ?_, fun k inside => ?_⟩, out, rfl⟩
  · obtain ⟨grows, bounded⟩ := decWidthStep_width_le
      (decNext b.toNat ({ (decAdvance c).withOutput [b] with dict := dict } : DecCtx).regs)
    have low : c.regs.width ≤ (c.decoded b.toNat [b] dict).regs.width := grows
    have high : (c.decoded b.toNat [b] dict).regs.width ≤ max c.regs.width c.regs.maxw := bounded
    omega
  · rw [decWidthStep_maxw]
    exact maxw
  · rw [decWidthStep_wtop]
    exact h.wtop
  · omega
  · omega
  · omega
  · have held := h.held (k + 1) (Nat.succ_lt_succ inside)
    have position : c.regs.pos + 9 * (k + 1) = c.regs.pos + 9 + 9 * k := by omega
    rw [pos, ← position]
    exact held

/-- A stream of byte codes decodes to those bytes, in as many turns and one more. -/
theorem DecCtx.Literal.loop {codes : List Byte} (h : c.Literal P bf codes) {n : Nat} (turns : codes.length < n) :
    ∃ c', mainLoop P bf n c = .ok c' ∧ c'.regs.out = c.regs.out + codes.length ∧
      c'.data = c.data.writeAll c.regs.out codes := by
  induction codes generalizing c n with
  | nil =>
    obtain ⟨n, rfl⟩ : ∃ m, n = m + 1 := ⟨n - 1, by omega⟩
    have noCode : codeAt bf c = none := BitField.getInt_none (by have := h.rest; rw [h.width]; exact this)
    exact ⟨c, by simp [mainLoop, mainStep, noCode], rfl, rfl⟩
  | cons b codes ih =>
    obtain ⟨n, rfl⟩ : ∃ m, n = m + 1 := ⟨n - 1, by omega⟩
    obtain ⟨c₁, step, literal, out, data⟩ := h.step
    obtain ⟨c', run, out', data'⟩ := ih literal (Nat.lt_of_succ_lt_succ turns)
    refine ⟨c', by rw [mainLoop, step]; exact run, ?_, ?_⟩
    · rw [out', out, List.length_cons]
      omega
    · rw [data', out, data]
      rfl

/-- Settles O50: the first byte is the first code, and the others are the main loop's. -/
theorem decompressLiteralStream : Obligations.DecompressLiteralStream := by
  intro s codes fits h0 h1 maxw inside rest room held
  have header : readFlags (wrapBF s.params s.bf) = .ok (s.bf.bytes.read .bf 2).toNat :=
    readFlags_ok (by show 3 ≤ s.bf.size.toNat; omega) h0 h1
  have run : ∃ c, decompressRun s.params (wrapBF s.params s.bf) (decBegin s) = .ok c ∧
      c.regs.out = codes.length ∧ c.data = s.data.writeAll 0 codes := by
    cases codes with
    | nil =>
      exact ⟨_, decompressRun_ended header (BitField.getInt_none rest), rfl, rfl⟩
    | cons b codes =>
      simp only [List.length_cons] at inside rest room
      have isCode : codeAt (wrapBF s.params s.bf) ((decBegin s).primed (s.bf.bytes.read .bf 2).toNat) = some b.toNat :=
        BitField.getInt_of_holdsInt (by show 24 + 9 ≤ 8 * s.bf.size.toNat; omega) (held 0 (Nat.zero_lt_succ _))
      have first := firstCodeStep_byte (P := s.params) isCode (by show 0 < s.params.dataCap; omega)
      have top : max 9 (flagsMaxw (s.bf.bytes.read .bf 2).toNat) = 9 := Nat.max_eq_left maxw
      have mirrors : DecCtx.Mirrors _ := primed_mirrors first
      have literal : DecCtx.Literal s.params (wrapBF s.params s.bf) codes _ :=
        ⟨mirrors, rfl, maxw, top, by show 24 + 9 + 9 * codes.length ≤ 8 * s.bf.size.toNat; omega,
          by show 8 * s.bf.size.toNat < 24 + 9 + 9 * (codes.length + 1); omega,
          by show 0 + 1 + codes.length ≤ s.params.dataCap; omega, fun k inside => by
            have later := held (k + 1) (Nat.succ_lt_succ inside)
            have position : 24 + 9 * (k + 1) = 24 + 9 + 9 * k := by omega
            exact position ▸ later⟩
      have turns : codes.length < codeReads (wrapBF s.params s.bf) := by
        show codes.length < (8 * s.bf.size.toNat - 24) / 9 + 1
        omega
      obtain ⟨c, loop, out, data⟩ := literal.loop turns
      refine ⟨c, by simp only [decompressRun, header, first]; exact loop, ?_, data⟩
      rw [out, List.length_cons]
      show 0 + 1 + codes.length = _
      omega
  obtain ⟨c, run, out, data⟩ := run
  have ended := decompressEnd_ok fits run
  rw [out] at ended
  refine ⟨c.regs, c.dict, c.data, exec_eq_next ended, fun k inside => ?_, fun i above => ?_⟩
  · have byte := Memory.read_writeAll .data s.data 0 codes k inside
    rwa [Nat.zero_add, ← data] at byte
  · rw [data, Memory.read_writeAll_ne _ _ _ _ (.inr (by omega))]

end Sys2Proof.Machine
end

section
/-! SUPPORT. What holds of the encoder's stores, dictionary and registers at every point of a COMPRESS, also where it
fails (10_state.md R40 to R47). -/
namespace Sys2Proof.Machine

variable {P : Params} {c c' : EncCtx} {b : Byte} {bf : BitField} {p n len maxw : Nat}

/-- The state in which a piece of pseudocode stopped, at its end or where it raised. -/
def Flow.final {α : Type} : Flow α → α
  | .ok a => a
  | .raised _ a => a

/-! ### The BitField -/

/-- The BitField is canonical and within BF. -/
def EncCtx.Stored (P : Params) (c : EncCtx) : Prop := c.bf.bytes.wf ∧ c.bf.bytes.within P.bfCap

theorem EncCtx.Stored.written (h : c.Stored P) {w v : Nat} (written : c.bf.setInt P p w v = .ok bf) :
    bf.bytes.wf ∧ bf.bytes.within P.bfCap := by
  obtain ⟨canonical, within⟩ := h
  exact BitField.setInt_keeps written canonical within

theorem EncCtx.Stored.afterGrow (h : c.Stored P) (grown : grow P p b c = .ok c') : c'.Stored P := by
  rcases grow_ok_cases grown with ⟨-, -, rfl⟩ | ⟨-, _, _, -, rfl⟩ | ⟨-, -, _, written, rfl⟩
  · exact h
  · exact h
  · exact h.written written

theorem EncCtx.Stored.afterByte (h : c.Stored P) (scanned : scanByte P b c = .ok c') : c'.Stored P := by
  rcases scanByte_ok_cases scanned with ⟨-, rfl⟩ | ⟨_, _, -, -, rfl⟩ | ⟨p, bf, c₁, -, -, written, grown, rfl⟩
  · exact h
  · exact h
  · have sent : (c.counted.sent bf).Stored P := h.written written
    have grew := sent.afterGrow grown
    exact grew

theorem EncCtx.Stored.raised {e : Raise} (h : c.Stored P) (fit : c.CodesFit) (raised : scanByte P b c = .raised e c') :
    c'.Stored P := by
  rcases fit.scanByte_raised raised with ⟨-, ⟨-, rfl⟩ | ⟨p, bf, written, rfl, -⟩⟩
  · exact h
  · exact h.written written

theorem EncCtx.Stored.flush (h : c.Stored P) (fit : c.CodesFit) : (flush P c).final.Stored P := by
  cases flushed : Machine.flush P c with
  | ok c' =>
    rcases flush_ok flushed with ⟨-, rfl⟩ | ⟨p, bf, -, written, rfl⟩
    · exact h
    · exact h.written written
  | raised e c' =>
    obtain ⟨-, -, rfl⟩ := fit.flush_raised flushed
    exact h

/-! ### The dictionary and the registers -/

/-- The position, the checkpoint and the baseline are bounded; the dictionary is in prefix-pair form with unique pairs,
codes below e.next and DICT_LIMIT; and the pending code has a string. -/
structure EncCtx.Sound (P : Params) (c : EncCtx) : Prop where
  pos_le : c.regs.pos ≤ 8 * P.bfCap
  ckpt_le : ∀ k, c.regs.ckpt = some k → k ≤ c.regs.pos + checkpointBits
  base_le : ∀ x, c.regs.base = some x → x ≤ c.regs.consumed
  form : dictFrom (firstCode c.regs.blk) c.dict
  next_eq : c.regs.next = firstCode c.regs.blk + c.dict.length
  unique : dictUnique c.dict
  below : ∀ x ∈ c.dict, x.code < P.dictLimit
  seen_known : ∀ p, c.regs.seen = some p → knownCodeIn (firstCode c.regs.blk) c.dict p

theorem EncCtx.Sound.withSeen (h : c.Sound P) (known : knownCodeIn (firstCode c.regs.blk) c.dict p) :
    (c.withSeen p).Sound P :=
  { h with seen_known := fun _ set => Option.some.inj set ▸ known }

theorem EncCtx.Sound.counted (h : c.Sound P) : c.counted.Sound P :=
  { h with base_le := fun x set => Nat.le_succ_of_le (h.base_le x set) }

theorem EncCtx.Sound.advanced (h : c.Sound P) : (encAdvance c).Sound P := { h with }

/-- An emission writes inside BF, up to the new position. -/
theorem EncCtx.Sound.sent (h : c.Sound P) {code : Nat} (some_bit : 0 < c.regs.width)
    (written : c.bf.setInt P c.regs.pos c.regs.width code = .ok bf) : (c.sent bf).Sound P := by
  obtain ⟨-, room, -⟩ := BitField.setInt_spec written
  exact { h with
    pos_le := by show c.regs.pos + c.regs.width ≤ _; omega
    ckpt_le := fun k set => Nat.le_trans (h.ckpt_le k set) (Nat.add_le_add_right (Nat.le_add_right _ _) _) }

theorem EncCtx.Sound.stepped (h : c.Sound P) : c.stepped.Sound P := by
  rcases encWidthStep_cases c.regs with ⟨-, step⟩ | ⟨-, -, step⟩ | ⟨-, -, step⟩ <;> rw [EncCtx.stepped, step]
  · exact h
  · exact { h with }
  · exact { h with }

/-- Grow stores a pair that was not there, or tracks the ratio, or starts again; the byte that made the miss is known
afterwards. -/
theorem EncCtx.Sound.afterGrow (h : c.Sound P) (wide : 9 ≤ c.regs.width) (within : c.regs.width ≤ c.regs.maxw)
    (isSeen : c.regs.seen = some p) (absent : dictLookup c.dict p b = none) (grown : grow P p b c = .ok c') :
    (c'.withSeen b.toNat).Sound P := by
  have stepped := h.stepped
  rcases grow_ok_cases grown with ⟨-, limit, rfl⟩ | ⟨-, ckpt, base, ⟨ckpts, bases⟩, rfl⟩ | ⟨-, -, bf, written, rfl⟩
  · have next := stepped.next_eq
    have known := stepped.seen_known p ((encWidthStep_seen c.regs).trans isSeen)
    refine EncCtx.Sound.withSeen { stepped with
      form := ⟨next, known, stepped.form⟩
      next_eq := congrArg (· + 1) next
      unique := dictUnique_cons stepped.unique absent
      below := fun x mem => ?_
      seen_known := fun q set => knownCodeIn_cons _ (stepped.seen_known q set) } (knownCodeIn_byte _ _ b)
    rcases List.mem_cons.mp mem with rfl | mem
    · exact (encWidthStep_next c.regs).symm ▸ limit
    · exact stepped.below x mem
  · exact EncCtx.Sound.withSeen { stepped with
      ckpt_le := fun k set => (ckpts k set).elim (stepped.ckpt_le k) id
      base_le := fun x set => (bases x set).elim (stepped.base_le x) id } (knownCodeIn_byte _ _ b)
  · have some_bit : 0 < c.stepped.regs.width :=
      Nat.zero_lt_of_lt (Nat.le_trans wide (encWidthStep_width c.regs within).1)
    rw [← encWidthStep_pos c.regs] at written
    have sent := stepped.sent some_bit written
    exact { sent with
      ckpt_le := nofun
      base_le := nofun
      form := trivial
      next_eq := rfl
      unique := List.Pairwise.nil
      below := nofun
      seen_known := fun _ set => Option.some.inj set ▸ knownCodeIn_byte _ _ b }

theorem EncCtx.Sound.afterByte (h : c.Sound P) (fit : c.CodesFit) (scanned : scanByte P b c = .ok c') :
    c'.Sound P := by
  obtain ⟨wide, within⟩ := fit.width_range
  rcases scanByte_ok_cases scanned with
    ⟨-, rfl⟩ | ⟨p, code, -, found, rfl⟩ | ⟨p, bf, c₁, isSeen, absent, written, grown, rfl⟩
  · exact h.counted.withSeen (knownCodeIn_byte _ _ b)
  · obtain ⟨x, mem, -, -, rfl⟩ := dictLookup_some found
    exact h.counted.withSeen (knownCodeIn_of_mem h.form mem)
  · have sent := h.counted.sent (Nat.zero_lt_of_lt wide) written
    exact sent.afterGrow wide within isSeen absent grown

/-- Every working register within its stated width (10_state.md R47). -/
theorem EncCtx.Sound.inRange (h : c.Sound P) (fit : c.CodesFit) (hm : c.regs.maxw ≤ 31)
    (consumed : c.regs.consumed < 2 ^ 32) (idx : c.regs.idx < 2 ^ 32) : c.regs.inRange := by
  obtain ⟨wide, within⟩ := fit.width_range
  have cap := P.bfCap_legal.2
  have pos := h.pos_le
  have top : 2 ^ c.regs.width ≤ 2 ^ 31 := Nat.pow_le_pow_right (by decide) (Nat.le_trans within hm)
  refine ⟨by omega, ⟨wide, Nat.le_trans within hm⟩, Nat.le_trans fit.next_le top, ⟨Nat.le_trans wide within, hm⟩,
    fun k set => ?_, fun x set => Nat.lt_of_le_of_lt (h.base_le x set) consumed, consumed,
    fun p set => Nat.lt_of_lt_of_le (fit.seen_lt p set) top, idx⟩
  have := h.ckpt_le k set
  rw [checkpointBits] at this
  omega

/-! ### The whole command -/

/-- What holds of the dictionary and the registers wherever a COMPRESS stops. -/
def EncCtx.Stopped (P : Params) (c : EncCtx) : Prop := c.Sound P ∧ c.regs.inRange

/-- What holds before each byte of the scan, with `n` of the `len` bytes still to read. -/
structure EncCtx.Running (P : Params) (bf : BitField) (maxw len n : Nat) (c : EncCtx) : Prop where
  scanning : c.Scanning bf maxw len n
  sound : c.Sound P

theorem EncCtx.start_running (P : Params) (blk : Bool) (wide : 9 ≤ maxw) (size : bf.size.toNat = 3) :
    (EncCtx.start maxw blk bf).Running P bf maxw len len := by
  have cap := P.bfCap_legal.1
  exact ⟨EncCtx.start_scanning blk wide size,
    { pos_le := by show 24 ≤ _; omega
      ckpt_le := nofun
      base_le := nofun
      form := trivial
      next_eq := rfl
      unique := List.Pairwise.nil
      below := nofun
      seen_known := nofun }⟩

theorem EncCtx.Running.next (h : c.Running P bf maxw len (n + 1)) (scanned : scanByte P b c = .ok c') :
    (encAdvance c').Running P bf maxw len n :=
  ⟨h.scanning.next scanned, (h.sound.afterByte h.scanning.fit scanned).advanced⟩

theorem EncCtx.Running.stopped (h : c.Running P bf maxw len n) (hm : maxw ≤ 31) (hl : len < 2 ^ 32) : c.Stopped P := by
  have consumed := h.scanning.consumed
  have idx := h.scanning.idx
  exact ⟨h.sound, h.sound.inRange h.scanning.fit (h.scanning.maxw ▸ hm) (by omega) (by omega)⟩

/-- A byte that fails stops where it counted the byte, or where its code was sent and the width step was done. -/
theorem EncCtx.Running.raised_stopped {e : Raise} (h : c.Running P bf maxw len (n + 1)) (hm : maxw ≤ 31)
    (hl : len < 2 ^ 32) (raised : scanByte P b c = .raised e c') : c'.Stopped P := by
  obtain ⟨⟨fit, -, isMax, consumed, idx⟩, sound⟩ := h
  have inWord : c.regs.maxw ≤ 31 := isMax ▸ hm
  have counts : c.counted.regs.consumed < 2 ^ 32 := by show c.regs.consumed + 1 < 2 ^ 32; omega
  have place : c.counted.regs.idx < 2 ^ 32 := by show c.regs.idx < 2 ^ 32; omega
  rcases fit.scanByte_raised raised with ⟨-, ⟨-, rfl⟩ | ⟨p, bf, written, rfl, -⟩⟩
  · exact ⟨sound.counted, sound.counted.inRange fit.counted inWord counts place⟩
  · have sent := (sound.counted.sent (Nat.zero_lt_of_lt fit.width_range.1) written).stepped
    have stepped := (fit.counted.sent bf).stepped
    exact ⟨sent, sent.inRange stepped ((encWidthStep_maxw _).trans_le inWord) ((encWidthStep_consumed _).trans_lt counts)
      ((encWidthStep_idx _).trans_lt place)⟩

/-- The flush stops after its emission, or where it found no room. -/
theorem EncCtx.Running.flush_stopped (h : c.Running P bf maxw len 0) (hm : maxw ≤ 31) (hl : len < 2 ^ 32) :
    (flush P c).final.Stopped P := by
  have stopped := h.stopped hm hl
  obtain ⟨⟨fit, -, isMax, consumed, idx⟩, sound⟩ := h
  cases flushed : flush P c with
  | ok c' =>
    rcases flush_ok flushed with ⟨-, rfl⟩ | ⟨p, bf, -, written, rfl⟩
    · exact stopped
    · have sent := sound.sent (Nat.zero_lt_of_lt fit.width_range.1) written
      exact ⟨sent, sent.inRange (fit.sent bf) (isMax ▸ hm) (by show c.regs.consumed < _; omega)
        (by show c.regs.idx < _; omega)⟩
  | raised e c' =>
    obtain ⟨-, -, rfl⟩ := fit.flush_raised flushed
    exact stopped

/-- Wherever a COMPRESS past its start checks stops, its stores, its dictionary and its registers are well formed. -/
theorem compressRun_stopped {data : Memory} (blk : Bool) (h9 : 9 ≤ maxw) (h31 : maxw ≤ 31) (hl : len < 2 ^ 32)
    (stored : c.Stored P) :
    (compressRun P data len maxw blk c).final.Stored P ∧ (compressRun P data len maxw blk c).final.Stopped P := by
  obtain ⟨bf, header, run⟩ := compressRun_eq (P := P) h31 blk data len c
  have begin : (EncCtx.start maxw blk bf).Running P bf maxw len len ∧ (EncCtx.start maxw blk bf).Stored P :=
    ⟨EncCtx.start_running P blk h9 header.size, header.stored stored.1 stored.2⟩
  have keeps : ∀ n (c c' : EncCtx), c.Running P bf maxw len (n + 1) ∧ c.Stored P →
      scanByte P (data.read .data c.regs.idx) c = .ok c' →
      (encAdvance c').Running P bf maxw len n ∧ (encAdvance c').Stored P :=
    fun _ _ _ ⟨running, stored⟩ step =>
      have after := stored.afterByte step
      ⟨running.next step, after⟩
  rw [run]
  cases scanned : scanLoop P data len (EncCtx.start maxw blk bf) with
  | ok c₁ =>
    obtain ⟨last, stored⟩ :=
      scanLoop_induct (fun n c => c.Running P bf maxw len n ∧ c.Stored P) keeps len _ c₁ begin scanned
    exact ⟨stored.flush last.scanning.fit, last.flush_stopped h31 hl⟩
  | raised e c₁ =>
    obtain ⟨m, d, ⟨before, stored⟩, failed⟩ :=
      scanLoop_raised (fun n c => c.Running P bf maxw len n ∧ c.Stored P) keeps len _ e c₁ begin scanned
    exact ⟨stored.raised before.scanning.fit failed, before.raised_stopped h31 hl failed⟩

end Sys2Proof.Machine
end

section
/-! SUPPORT. What holds of the decoder's store, dictionary and registers at every point of a DECOMPRESS, also where it
fails (10_state.md R42 to R48). -/
namespace Sys2Proof.Machine

variable {P : Params} {bf : BitField} {c c' : DecCtx} {code : Nat}

/-- DATA is canonical and within its capacity, the dictionary is in prefix-pair form with codes below DICT_LIMIT, and the
registers are within their stated widths. -/
structure DecCtx.Sound (P : Params) (c : DecCtx) : Prop where
  canonical : c.data.wf
  within : c.data.within P.dataCap
  form : ∃ blk, dictFrom (firstCode blk) c.dict
  below : ∀ x ∈ c.dict, x.code < P.dictLimit
  range : c.regs.inRange

/-- A position inside a BitField that fits its store fits d.pos (00_scope.md R9). -/
theorem pos_lt_of_fits {p : Nat} (fits : bf.size.toNat ≤ P.bfCap) (inside : p ≤ 8 * bf.size.toNat) : p < 2 ^ 33 := by
  have := P.bfCap_legal.2
  omega

/-- A code that was read leaves d.pos inside the BitField. -/
theorem DecCtx.Sound.decAdvance (h : c.Sound P) (fits : bf.size.toNat ≤ P.bfCap) (isCode : codeAt bf c = some code) :
    (decAdvance c).Sound P := by
  obtain ⟨-, rest⟩ := h.range
  exact { h with range := ⟨pos_lt_of_fits fits (codeAt_some isCode).1, rest⟩ }

theorem DecCtx.Sound.decReset (h : c.Sound P) : (decReset c).Sound P := by
  obtain ⟨pos, -, -, rest⟩ := h.range
  have next : firstCode c.regs.blk ≤ 2 ^ 31 := Nat.le_trans (firstCode_le _) (by decide)
  exact { h with
    form := ⟨true, trivial⟩
    below := nofun
    range := ⟨pos, ⟨Nat.le_refl 9, by show 9 ≤ 31; decide⟩, next, rest⟩ }

/-- An output that fits DATA. -/
theorem DecCtx.Sound.withOutput (h : c.Sound P) {xs : List Byte} (room : xs = [] ∨ c.regs.out + xs.length ≤ P.dataCap) :
    (c.withOutput xs).Sound P := by
  rcases room with rfl | room
  · exact h
  · have cap := P.dataCap_legal.2
    obtain ⟨pos, width, next, maxw, wtop, seen, -⟩ := h.range
    exact { h with
      canonical := Memory.wf_writeAll h.canonical _ _
      within := Memory.within_writeAll h.within room
      range := ⟨pos, width, next, maxw, wtop, seen, by show c.regs.out + xs.length < 2 ^ 32; omega⟩ }

/-- An entry for d.next, where the previous code is known. -/
theorem DecCtx.Sound.withEntry (h : c.Sound P) (b : Byte) (form : dictFrom (firstCode c.regs.blk) c.dict)
    (next_eq : c.regs.next = firstCode c.regs.blk + c.dict.length) (limit : c.regs.next < P.dictLimit)
    (known : knownCodeIn (firstCode c.regs.blk) c.dict c.regs.seen) : (c.withEntry c.regs.seen b).Sound P := by
  refine { h with form := ⟨c.regs.blk, next_eq, known, form⟩, below := fun x mem => ?_ }
  rcases List.mem_cons.mp mem with rfl | mem
  · exact limit
  · exact h.below x mem

/-- The state in which a step stopped. -/
def DecStep.final : DecStep → DecCtx
  | .go c => c
  | .ended c => c
  | .raised _ c => c

/-- A first code outputs a byte, or stops before its output. -/
theorem firstCodeStep_sound (h : c.Sound P) (fits : bf.size.toNat ≤ P.bfCap) :
    (firstCodeStep P bf c).final.Sound P := by
  rcases firstCodeStep_cases P bf c with
    ⟨-, step⟩ | ⟨_, isCode, -, step⟩ | ⟨_, isCode, -, -, step⟩ | ⟨b, isCode, room, step⟩ <;> rw [step]
  · exact h
  · exact h.decAdvance fits isCode
  · exact h.decAdvance fits isCode
  · have output := (h.decAdvance fits isCode).withOutput (xs := [b]) (.inr room)
    obtain ⟨pos, width, next, maxw, wtop, -, out⟩ := output.range
    exact { output with range := ⟨pos, width, next, maxw, wtop, Nat.lt_trans b.isLt (by decide), out⟩ }

/-- In a loop state the registers are as wide as d.wtop allows. -/
theorem DecCtx.Sound.advanced (h : c'.Sound P) (mirrors : (c'.advanced code).Mirrors) (inWidth : code < 2 ^ 31) :
    (c'.advanced code).Sound P := by
  obtain ⟨pos, -, -, maxw, wtop, -, out⟩ := h.range
  obtain ⟨wide, inTop⟩ := mirrors.width_range
  have isTop : (c'.advanced code).regs.wtop = c'.regs.wtop := decWidthStep_wtop _
  have top : 2 ^ (c'.advanced code).regs.wtop ≤ 2 ^ 31 := Nat.pow_le_pow_right (by decide) (isTop ▸ wtop.2)
  have pos' : (c'.advanced code).regs.pos = c'.regs.pos := decWidthStep_pos _
  have maxw' : (c'.advanced code).regs.maxw = c'.regs.maxw := decWidthStep_maxw _
  have seen' : (c'.advanced code).regs.seen = code := decWidthStep_seen _
  have out' : (c'.advanced code).regs.out = c'.regs.out := decWidthStep_out _
  exact { h with
    range := ⟨pos' ▸ pos, ⟨wide, Nat.le_trans inTop (isTop ▸ wtop.2)⟩, Nat.le_trans mirrors.next_le top, maxw' ▸ maxw,
      isTop ▸ wtop, seen'.trans_lt inWidth, out' ▸ out⟩ }

theorem mainStep_sound (h : c.Sound P) (mirrors : c.Mirrors) (fits : bf.size.toNat ≤ P.bfCap) :
    (mainStep P bf c).final.Sound P := by
  rcases mainStep_cases P bf c with
    ⟨-, step⟩ | ⟨isReset, -, step⟩ | ⟨code, isCode, -, ⟨c₁, expanded, step⟩ | ⟨e, c₁, raised, step⟩⟩ <;> rw [step]
  case inl => exact h
  case inr.inl => exact firstCodeStep_sound (h.decAdvance fits isReset).decReset fits
  case inr.inr.inl =>
    obtain ⟨-, inWidth, -⟩ := codeAt_some isCode
    have narrow := h.range.2.1.2
    have inWord : code < 2 ^ 31 := Nat.lt_of_lt_of_le inWidth (Nat.pow_le_pow_right (by decide) narrow)
    have advance := h.decAdvance fits isCode
    have sound : c₁.Sound P := by
      obtain ⟨-, room, ⟨-, rfl⟩ | ⟨-, limit, rfl⟩⟩ := expandCode_ok.mp expanded
      · exact advance.withOutput (.inr room)
      · exact (advance.withOutput (.inr room)).withEntry _ mirrors.form mirrors.next_eq limit mirrors.seen_known
    exact sound.advanced (mirrors.advanced isCode expanded) inWord
  case inr.inr.inr =>
    have advance := h.decAdvance fits isCode
    rcases expandCode_raised raised with ⟨-, -, -, rfl⟩ | ⟨-, ys, room, rfl | ⟨-, -, -, limit, rfl⟩⟩
    · exact advance
    · exact advance.withOutput room
    · exact (advance.withOutput room).withEntry _ mirrors.form mirrors.next_eq limit mirrors.seen_known

theorem mainLoop_sound (n : Nat) (h : c.Sound P) (mirrors : c.Mirrors) (fits : bf.size.toNat ≤ P.bfCap) :
    (mainLoop P bf n c).final.Sound P := by
  induction n generalizing c with
  | zero => exact h
  | succ n ih =>
    have one := mainStep_sound h mirrors fits
    rw [mainLoop]
    cases step : mainStep P bf c <;> rw [step] at one
    case ended => exact one
    case raised => exact one
    case go => exact ih one (mirrors.next step)

/-- Where the first code is read the registers are what the flags byte and the reset made of them. -/
theorem DecCtx.Sound.primed (h : c.Sound P) (flags : Nat) : (c.primed flags).Sound P := by
  obtain ⟨-, -, -, -, -, seen, -⟩ := h.range
  have five : flagsMaxw flags ≤ 31 := Nat.le_of_lt_succ (Nat.mod_lt _ (by decide))
  have next : firstCode (flagsBlk flags) ≤ 2 ^ 31 := Nat.le_trans (firstCode_le _) (by decide)
  have configured : DecCtx.Sound P { c with regs := { (c.primed flags).regs with next := 0 } } :=
    { h with
      range := ⟨by show 24 < 2 ^ 33; decide, ⟨Nat.le_refl 9, by show 9 ≤ 31; decide⟩, Nat.zero_le _, five,
        ⟨Nat.le_max_left 9 _, Nat.max_le.mpr ⟨by decide, five⟩⟩, seen, by show 0 < 2 ^ 32; decide⟩ }
  exact configured.decReset

theorem decompressRun_sound (h : c.Sound P) (fits : bf.size.toNat ≤ P.bfCap) : (decompressRun P bf c).final.Sound P := by
  cases header : readFlags bf with
  | error e =>
    rw [decompressRun_headerError header]
    exact h
  | ok flags =>
    have first := firstCodeStep_sound (h.primed flags) fits
    rcases decompressRun_cases header with ⟨c₁, step, run⟩ | ⟨e, c₁, step, run⟩ | ⟨c₁, step, run⟩ <;>
      rw [step] at first <;> rw [run]
    · exact first
    · exact first
    · exact mainLoop_sound _ first (primed_mirrors step) fits

end Sys2Proof.Machine
end

section
/-! PROOF of O35 and O36: the invariant of the machine, at reset and over every step (10_state.md R40 to R48). -/
namespace Sys2Proof.Machine

variable {s t : State}

/-- Settles O35: the stores and the dictionaries are empty, and the registers have the model's own values (log 11). -/
theorem resetSatisfiesInvariant : Obligations.ResetSatisfiesInvariant where
  bfCanonical := List.Pairwise.nil
  bfWithin := nofun
  dataCanonical := List.Pairwise.nil
  dataWithin := nofun
  edictForm := ⟨false, trivial⟩
  edictUnique := List.Pairwise.nil
  edictBelow := nofun
  ddictForm := ⟨false, trivial⟩
  ddictBelow := nofun
  encRange := by simp [State.reset, EncRegs.initial, EncRegs.inRange]
  decRange := by simp [State.reset, DecRegs.initial, DecRegs.inRange]

/-! ### What the invariant is about -/

/-- The invariant speaks of the stores, the dictionaries, the working registers and the parameters alone. -/
theorem State.Inv.of_eq (h : s.Inv) (params : t.params = s.params) (bytes : t.bf.bytes = s.bf.bytes)
    (data : t.data = s.data) (enc : t.enc = s.enc) (edict : t.edict = s.edict) (dec : t.dec = s.dec)
    (ddict : t.ddict = s.ddict) : t.Inv where
  bfCanonical := bytes ▸ h.bfCanonical
  bfWithin := bytes ▸ params ▸ h.bfWithin
  dataCanonical := data ▸ h.dataCanonical
  dataWithin := data ▸ params ▸ h.dataWithin
  edictForm := edict ▸ h.edictForm
  edictUnique := edict ▸ h.edictUnique
  edictBelow := edict ▸ params ▸ h.edictBelow
  ddictForm := ddict ▸ h.ddictForm
  ddictBelow := ddict ▸ params ▸ h.ddictBelow
  encRange := enc ▸ h.encRange
  decRange := dec ▸ h.decRange

theorem State.Inv.failedWith (h : s.Inv) (e : ErrCode) : (s.failedWith e).Inv := h.of_eq rfl rfl rfl rfl rfl rfl rfl

/-! ### The commands -/

theorem State.Inv.withBytes (h : s.Inv) {bf : BitField} (canonical : bf.bytes.wf)
    (within : bf.bytes.within s.params.bfCap) : State.Inv { s with bf := bf } :=
  { h with bfCanonical := canonical, bfWithin := within }

theorem State.Inv.setint (h : s.Inv) (w : Nat) : (setintEnd w s).Inv := by
  rcases setintEnd_cases w s with ⟨-, ended⟩ | ended | ⟨bf, written, ended⟩ <;> rw [ended]
  · exact h.failedWith _
  · exact h.failedWith _
  · obtain ⟨canonical, within⟩ := BitField.setInt_keeps written h.bfCanonical h.bfWithin
    exact (h.withBytes canonical within).of_eq rfl rfl rfl rfl rfl rfl rfl

theorem State.Inv.getbit (h : s.Inv) : (getbitEnd s).Inv := by
  rcases getbitEnd_cases s with ended | ⟨bf, grown, ended⟩ <;> rw [ended]
  · exact h.failedWith _
  · obtain ⟨canonical, within⟩ := BitField.ensureBit_keeps grown h.bfCanonical h.bfWithin
    exact (h.withBytes canonical within).of_eq rfl rfl rfl rfl rfl rfl rfl

theorem State.Inv.getint (h : s.Inv) (w : Nat) : (getintEnd w s).Inv := by
  rcases getintEnd_cases w s with ended | ⟨-, -, ended⟩ | ⟨_, -, ended⟩ <;> rw [ended]
  · exact h.failedWith _
  · exact h.of_eq rfl rfl rfl rfl rfl rfl rfl
  · exact h.of_eq rfl rfl rfl rfl rfl rfl rfl

/-- Where COMPRESS stopped, put into the state. -/
theorem State.Inv.withEncoder (h : s.Inv) {c : EncCtx} (stored : c.Stored s.params) (stopped : c.Stopped s.params) :
    State.Inv { s with bf := c.bf, enc := c.regs, edict := c.dict } := by
  obtain ⟨canonical, within⟩ := stored
  obtain ⟨sound, range⟩ := stopped
  exact { h with
    bfCanonical := canonical
    bfWithin := within
    edictForm := ⟨c.regs.blk, sound.form⟩
    edictUnique := sound.unique
    edictBelow := sound.below
    encRange := range }

theorem State.Inv.compress (h : s.Inv) (maxw : Nat) (blk : Bool) : (compressEnd maxw blk s).Inv := by
  rcases compressEnd_cases maxw blk s with
    ⟨-, ended⟩ | ⟨-, -, ended⟩ | ⟨⟨h9, h31⟩, -, ⟨c, run, ended⟩ | ⟨e, c, run, ended⟩⟩ <;> rw [ended]
  · exact h.failedWith _
  · exact h.failedWith _
  all_goals
    obtain ⟨stored, stopped⟩ := compressRun_stopped (data := s.data) (c := s.encBegin) blk h9 h31 s.dataLen.isLt
      ⟨h.bfCanonical, h.bfWithin⟩
    rw [run] at stored stopped
    have encoded := h.withEncoder stored stopped
  · exact encoded.of_eq rfl rfl rfl rfl rfl rfl rfl
  · exact (encoded.withBytes (bf := compressFailed c.bf) (Memory.wf_forgetBelow encoded.bfCanonical _)
      (Memory.within_forgetBelow encoded.bfWithin _)).of_eq rfl rfl rfl rfl rfl rfl rfl

/-- Where DECOMPRESS stopped, put into the state, with the store DATA it leaves. -/
theorem State.Inv.withDecoder (h : s.Inv) {c : DecCtx} {data : Memory} (sound : c.Sound s.params) (canonical : data.wf)
    (within : data.within s.params.dataCap) : State.Inv { s with dec := c.regs, ddict := c.dict, data := data } :=
  { h with
    dataCanonical := canonical
    dataWithin := within
    ddictForm := sound.form
    ddictBelow := sound.below
    decRange := sound.range }

theorem State.Inv.decompress (h : s.Inv) : (decompressEnd s).Inv := by
  obtain ⟨pos, width, next, maxw, wtop, seen, -⟩ := h.decRange
  have begin : (decBegin s).Sound s.params :=
    { canonical := h.dataCanonical, within := h.dataWithin, form := h.ddictForm, below := h.ddictBelow
      range := ⟨pos, width, next, maxw, wtop, seen, by show 0 < 2 ^ 32; decide⟩ }
  rcases decompressEnd_cases s with ⟨-, ended⟩ | ⟨fits, ⟨c, run, ended⟩ | ⟨e, c, run, ended⟩⟩
  case inl =>
    rw [ended]
    exact h.failedWith _
  all_goals
    have sound := decompressRun_sound (bf := wrapBF s.params s.bf) begin fits
    rw [run] at sound
    rw [ended]
  case inr.inl =>
    exact (h.withDecoder sound sound.canonical sound.within).of_eq rfl rfl rfl rfl rfl rfl rfl
  case inr.inr =>
    by_cases noOutput : c.regs.out = 0
    · rw [decompressFailed, if_pos noOutput]
      exact (h.withDecoder sound h.dataCanonical h.dataWithin).of_eq rfl rfl rfl rfl rfl rfl rfl
    · rw [decompressFailed, if_neg noOutput]
      exact (h.withDecoder sound (Memory.wf_forget s.data) (Memory.within_forget s.data _)).of_eq
        rfl rfl rfl rfl rfl rfl rfl

theorem State.Inv.endOf (h : s.Inv) (i : Instr) : (endOf i s).Inv := by
  cases i with
  | setbit =>
    rw [Machine.endOf, setbitEnd_eq_setintEnd_one]
    exact h.setint 1
  | getbit => exact h.getbit
  | setint w => exact h.setint w
  | getint w => exact h.getint w
  | compress maxw blk => exact h.compress maxw blk
  | decompress => exact h.decompress

/-! ### The steps -/

theorem State.Inv.turnOf (h : s.Inv) : (turnOf s).Inv := by
  unfold Machine.turnOf
  split
  · cases decode s.cmd with
    | ok i => exact h.endOf i
    | error e => exact h.failedWith _
  · exact h

theorem State.Inv.writeReg (h : s.Inv) (r : Reg) (v : Word) : (writeReg r v s).Inv := by
  cases r <;> exact h.of_eq rfl rfl rfl rfl rfl rfl rfl

theorem State.Inv.writeRegIdle (h : s.Inv) (offset width : Nat) (v : Word) : (writeRegIdle offset width v s).Inv := by
  unfold Machine.writeRegIdle
  split
  · cases regAt offset with
    | none => exact h
    | some r => exact h.writeReg r v
  · exact h

theorem State.Inv.writeBfbIdle (h : s.Inv) (offset width : Nat) (v : Word) : (writeBfbIdle offset width v s).Inv := by
  by_cases inside : width = 8 ∧ offset < s.params.bfCap
  · obtain ⟨rfl, below⟩ := inside
    rw [writeBfbIdle_inside below]
    exact h.withBytes (bf := { s.bf with bytes := _ }) (Memory.wf_write h.bfCanonical _ _)
      (Memory.within_write h.bfWithin below _)
  · rw [writeBfbIdle_ignored inside]
    exact h

theorem State.Inv.writeDatabIdle (h : s.Inv) (offset width : Nat) (v : Word) : (writeDatabIdle offset width v s).Inv := by
  by_cases inside : width = 8 ∧ offset < s.params.dataCap
  · obtain ⟨rfl, below⟩ := inside
    rw [writeDatabIdle_inside below]
    exact { h with
      dataCanonical := Memory.wf_write h.dataCanonical _ _
      dataWithin := Memory.within_write h.dataWithin below _ }
  · rw [writeDatabIdle_ignored inside]
    exact h

theorem State.Inv.writeUnlessBusy (h : s.Inv) {f : State → State} (idle : (f s).Inv) : (writeUnlessBusy f s).Inv := by
  unfold Machine.writeUnlessBusy
  split
  · exact h.of_eq rfl rfl rfl rfl rfl rfl rfl
  · exact idle

theorem State.Inv.hostAccess (h : s.Inv) (a : Access) : (hostAccess a s).Inv := by
  cases a with
  | read sp offset width =>
    obtain ⟨d, n, read⟩ := hostAccess_read sp offset width s
    rw [read]
    exact h.of_eq rfl rfl rfl rfl rfl rfl rfl
  | write sp offset width v =>
    cases sp with
    | reg =>
      rw [Machine.hostAccess, writeRegSpace]
      split
      · exact h
      · split
        · exact h.writeRegIdle offset width v
        · exact h.writeUnlessBusy (h.writeRegIdle offset width v)
    | bfb => exact h.writeUnlessBusy (h.writeBfbIdle offset width v)
    | datab => exact h.writeUnlessBusy (h.writeDatabIdle offset width v)

theorem State.Inv.platformReset (h : s.Inv) : (platformReset s).Inv :=
  { h with
    bfCanonical := Memory.wf_forget _
    bfWithin := Memory.within_forget _ _
    dataCanonical := Memory.wf_forget _
    dataWithin := Memory.within_forget _ _ }

theorem State.Inv.withInputs (h : s.Inv) (is : List Input) : State.Inv { s with inputs := is } :=
  h.of_eq rfl rfl rfl rfl rfl rfl rfl

/-- Settles O36: the engine's turn, a host access and the platform's reset each keep the invariant. -/
theorem stepKeepsInvariant : Obligations.StepKeepsInvariant := by
  intro s t inv next
  rcases step_cases s with ⟨-, step⟩ | ⟨_, rest, -, ⟨a, -, step⟩ | ⟨-, step⟩ | ⟨-, step⟩⟩
  all_goals cases step.symm.trans next
  case inl => exact inv.turnOf
  case inr.inl => exact (inv.withInputs rest).hostAccess a
  case inr.inr.inl => exact (inv.withInputs rest).turnOf
  case inr.inr.inr => exact (inv.withInputs rest).platformReset

end Sys2Proof.Machine
end

section
/-! SUPPORT. The decoder's run without its bound on the code reads, and the codes the encoder has still to write
(42_decoder.md R200, R217, 41_encoder.md R160). -/
namespace Sys2Proof.Machine

variable {P : Params} {bf : BitField} {src : Memory} {len : Nat}

/-! ### The decoder's run -/

/-- The run that goes on from the result of a step, in at most `n` turns of the main loop. -/
def DecStep.resume (P : Params) (bf : BitField) (n : Nat) : DecStep → Flow DecCtx
  | .go c => mainLoop P bf n c
  | .ended c => .ok c
  | .raised e c => .raised e c

theorem mainLoop_succ (n : Nat) (c : DecCtx) : mainLoop P bf (n + 1) c = (mainStep P bf c).resume P bf n := by
  rw [mainLoop]
  cases mainStep P bf c <;> rfl

theorem mainStep_ended {c : DecCtx} (h : codeAt bf c = none) : mainStep P bf c = .ended c := by simp [mainStep, h]

theorem decompressRun_eq {c : DecCtx} {flags : Nat} (header : readFlags bf = .ok flags) :
    decompressRun P bf c = (firstCodeStep P bf (c.primed flags)).resume P bf (codeReads bf) := by
  simp only [decompressRun, header]
  cases firstCodeStep P bf (c.primed flags) <;> rfl

/-- DATA agrees with `src` as far as it was output. -/
def DecCtx.Restored (src : Memory) (c : DecCtx) : Prop :=
  ∀ i, i < c.regs.out → c.data.read .data i = src.read .data i

/-- From the result of a step the stream ends by itself, with the first `len` bytes of `src` output. -/
inductive DecStep.Restores (P : Params) (bf : BitField) (src : Memory) (len : Nat) : DecStep → Prop
  | ended {c : DecCtx} (out : c.regs.out = len) (restored : c.Restored src) : Restores P bf src len (.ended c)
  | go {c : DecCtx} (rest : Restores P bf src len (mainStep P bf c)) : Restores P bf src len (.go c)

theorem DecStep.Restores.resume {x : DecStep} (h : x.Restores P bf src len) :
    ∃ turns c, c.regs.out = len ∧ c.Restored src ∧ ∀ n, turns ≤ n → x.resume P bf n = .ok c := by
  induction h with
  | ended out restored => exact ⟨0, _, out, restored, fun _ _ => rfl⟩
  | go _ ih =>
    obtain ⟨turns, c, out, restored, run⟩ := ih
    refine ⟨turns + 1, c, out, restored, fun n enough => ?_⟩
    obtain ⟨n, rfl⟩ : ∃ m, n = m + 1 := ⟨n - 1, by omega⟩
    exact (mainLoop_succ n _).trans (run n (Nat.le_of_succ_le_succ enough))

/-- The bound on the code reads cuts nothing off. -/
theorem DecStep.Restores.run {c : DecCtx} {flags : Nat} (header : readFlags bf = .ok flags)
    (h : (firstCodeStep P bf (c.primed flags)).Restores P bf src len) :
    ∃ c', decompressRun P bf c = .ok c' ∧ c'.regs.out = len ∧ c'.Restored src := by
  obtain ⟨turns, c', out, restored, run⟩ := h.resume
  refine ⟨c', ?_, out, restored⟩
  rw [decompressRun_eq header, ← run (max turns (codeReads bf)) (Nat.le_max_left _ _)]
  cases step : firstCodeStep P bf (c.primed flags) with
  | ended _ => rfl
  | raised _ _ => rfl
  | go c₁ =>
    obtain ⟨pos, width, -⟩ := firstCodeStep_advances step
    have started : c₁.regs.pos = headerBits + initWidth := pos
    exact (decompressTerminates P bf c₁ _ (started ▸ by decide) (Nat.le_of_eq width.symm) (Nat.le_max_right _ _)).symm

/-- Bytes of `src` output behind bytes of `src`. -/
theorem DecCtx.Restored.withOutput {c : DecCtx} (h : c.Restored src) {xs : List Byte}
    (bytes : ∀ k (inside : k < xs.length), xs[k] = src.read .data (c.regs.out + k)) : (c.withOutput xs).Restored src := by
  intro i below
  rcases Nat.lt_or_ge i c.regs.out with old | new
  · rw [Memory.read_writeAll_ne _ _ _ _ (.inl old), h i old]
  · obtain ⟨k, rfl⟩ := Nat.exists_eq_add_of_le new
    have inside : k < xs.length := Nat.lt_of_add_lt_add_left below
    rw [Memory.read_writeAll _ _ _ _ k inside, bytes k inside]

/-! ### The rest of the encoder's run -/

variable {hdr : BitField} {maxw n : Nat} {c : EncCtx}

/-- The scan of the last `n` bytes and the flush end in the stream `bf`. -/
def EncCtx.Ends (P : Params) (src : Memory) (bf : BitField) (n : Nat) (c : EncCtx) : Prop :=
  ∃ c', (scanLoop P src n c).andThen (flush P) = .ok c' ∧ c'.bf = bf

theorem EncCtx.Ends.step (h : c.Ends P src bf (n + 1)) :
    ∃ c', scanByte P (src.read .data c.regs.idx) c = .ok c' ∧ (encAdvance c').Ends P src bf n := by
  obtain ⟨c₂, run, isEnd⟩ := h
  rw [scanLoop] at run
  cases scanned : scanByte P (src.read .data c.regs.idx) c with
  | ok c' => exact ⟨c', rfl, c₂, by rw [scanned] at run; exact run, isEnd⟩
  | raised e c' => rw [scanned] at run; cases run

/-- The rest of the run only appends to the stream. -/
theorem EncCtx.Ends.appended (h : c.Ends P src bf n) (fit : c.CodesFit)
    (size : c.bf.size.toNat = (c.regs.pos + 7) / 8) : ∃ p, c.bf.Appended c.regs.pos bf p := by
  obtain ⟨c₂, run, rfl⟩ := h
  obtain ⟨c₁, scanned, flushed⟩ := Flow.andThen_eq_ok.mp run
  obtain ⟨fit₁, scan⟩ := scanLoop_induct (fun _ d => d.CodesFit ∧ c.bf.Appended c.regs.pos d.bf d.regs.pos)
    (fun _ d d' ⟨fit, before⟩ step =>
      have after := (fit.afterByte step).advanced
      have appended := scanByte_appends fit before.size step
      ⟨after, before.trans appended⟩) n c c₁ ⟨fit, .refl size⟩ scanned
  exact ⟨_, scan.trans (flush_appends fit₁ scan.size flushed)⟩

end Sys2Proof.Machine
end

section
/-! PROOF of O56: the decoder follows the encoder one code behind, so DECOMPRESS restores what COMPRESS took in
(41_encoder.md R165 to R176, 42_decoder.md R206 to R216). -/
namespace Sys2Proof.Machine

variable {P : Params} {hdr bf bf' : BitField} {src : Memory} {c c' : EncCtx} {d d' : DecCtx} {x : DecStep} {b : Byte}
  {p code n len maxw : Nat}

theorem encWidthStep_width_eq (r : EncRegs) :
    (encWidthStep r).width = if 2 ^ r.width ≤ r.next ∧ r.width < r.maxw then r.width + 1 else r.width := by
  rcases encWidthStep_cases r with ⟨inside, step⟩ | ⟨atCap, narrow, step⟩ | ⟨-, widest, step⟩ <;> rw [step]
  · rw [if_neg (by omega)]
  · rw [if_pos ⟨atCap, narrow⟩]
  · rw [if_neg (by omega)]

/-! ### One code behind -/

/-- The registers that the encoder and the decoder share, where the decoder reads the code the encoder writes next. -/
structure DecCtx.Shares (c : EncCtx) (d : DecCtx) : Prop where
  pos : d.regs.pos = c.regs.pos
  width : d.regs.width = c.regs.width
  maxw : d.regs.maxw = c.regs.maxw
  wtop : d.regs.wtop = c.regs.maxw
  blk : d.regs.blk = c.regs.blk

/-- The string of the pending code `p` is what the decoder has still to output of the bytes consumed. -/
structure DecCtx.Behind (src : Memory) (c : EncCtx) (p : Nat) (d : DecCtx) : Prop where
  shares : d.Shares c
  count : d.regs.out + (dictStr c.dict p).length = c.regs.consumed
  restored : d.Restored src
  pending : ∀ k (inside : k < (dictStr c.dict p).length), (dictStr c.dict p)[k] = src.read .data (d.regs.out + k)

/-- How the dictionaries are related before the decoder reads the pending code `p`, and the step that reads it: after a
dictionary reset both are empty; while the dictionary grows the decoder lacks the newest entry, whose byte is the first of
the pending string; in the full state they are the same. -/
inductive Phase (P : Params) (bf : BitField) (c : EncCtx) (p : Nat) : DecCtx → DecStep → Prop
  | fresh {d : DecCtx} (empty : c.dict = []) (isByte : p < 256) :
      Phase P bf c p (decReset d) (firstCodeStep P bf (decReset d))
  | growing {d : DecCtx} (mirrors : d.Mirrors) (room : d.regs.next < 2 ^ c.regs.maxw)
      (newest : c.dict =
        { code := d.regs.next, pre := d.regs.seen, byte := firstByte (dictStr c.dict p) } :: d.dict) :
      Phase P bf c p d (mainStep P bf d)
  | full {d : DecCtx} (mirrors : d.Mirrors) (top : 2 ^ c.regs.maxw ≤ d.regs.next) (same : c.dict = d.dict) :
      Phase P bf c p d (mainStep P bf d)

/-- The decoder has read the code `p`, and stands where the encoder `e` does after its emission and the width step of
Grow; only the byte that made the miss is still to output. -/
structure DecCtx.CaughtUp (src : Memory) (e : EncCtx) (p : Nat) (d : DecCtx) : Prop where
  mirrors : d.Mirrors
  shares : d.Shares e
  seen : d.regs.seen = p
  dict : d.dict = e.dict
  next : d.regs.next = e.regs.next
  out : e.regs.consumed = d.regs.out + 1
  restored : d.Restored src

/-- The registers of `d'` but d.next and d.out, after the code `p` was read at `d`: the width step looks at the d.next
that the code left (42_decoder.md R205, R212, R213). -/
structure DecCtx.Took (d : DecCtx) (p : Nat) (d' : DecCtx) : Prop where
  pos : d'.regs.pos = d.regs.pos + d.regs.width
  width : d'.regs.width =
    if 2 ^ d.regs.width ≤ d'.regs.next ∧ d.regs.width < d.regs.maxw then d.regs.width + 1 else d.regs.width
  maxw : d'.regs.maxw = d.regs.maxw
  wtop : d'.regs.wtop = d.regs.wtop
  blk : d'.regs.blk = d.regs.blk
  seen : d'.regs.seen = p

/-- With the encoder's dictionary and every byte consumed output, the decoder is where the encoder's emission and width
step lead. -/
theorem DecCtx.Took.caughtUp (took : d.Took p d') (bf' : BitField) (shares : d.Shares c) (sound : c.Sound P)
    (mirrors : d'.Mirrors) (dict : d'.dict = c.dict) (out : d'.regs.out = c.regs.consumed) (restored : d'.Restored src) :
    d'.CaughtUp src (c.counted.sent bf').stepped p := by
  obtain ⟨pos, width, maxw, wtop, blk, seen⟩ := took
  obtain ⟨samePos, sameWidth, sameMaxw, sameTop, sameBlk⟩ := shares
  have next : d'.regs.next = c.regs.next := by rw [mirrors.next_eq, dict, blk, sameBlk, sound.next_eq]
  refine ⟨mirrors, ⟨?_, ?_, ?_, ?_, ?_⟩, seen, dict, ?_, ?_, restored⟩
  · rw [encWidthStep_pos, pos, samePos, sameWidth]
  · rw [encWidthStep_width_eq, width, next, sameWidth, sameMaxw]
  · rw [encWidthStep_maxw, maxw, sameMaxw]
  · rw [encWidthStep_maxw, wtop, sameTop]
  · rw [encWidthStep_blk, blk, sameBlk]
  · rw [encWidthStep_next, next]
  · rw [encWidthStep_consumed, out]

/-! ### The code that is read -/

/-- A first code: a byte, which both the dictionaries and the width stay without (42_decoder.md R206). -/
theorem Phase.read_fresh (bf' : BitField) (behind : (decReset d).Behind src c p) (sound : c.Sound P) (fit : c.CodesFit)
    (empty : c.dict = []) (isByte : p < 256) (isCode : codeAt bf (decReset d) = some p)
    (room : c.regs.consumed ≤ P.dataCap) :
    ∃ d', firstCodeStep P bf (decReset d) = .go d' ∧ d'.CaughtUp src (c.counted.sent bf').stepped p := by
  obtain ⟨shares, count, restored, pending⟩ := behind
  obtain ⟨b, rfl⟩ : ∃ b : Byte, b.toNat = p := ⟨BitVec.ofNat 8 p, Nat.mod_eq_of_lt isByte⟩
  have string : dictStr c.dict b.toNat = [b] := by
    rw [dictStr_byte c.dict isByte, BitVec.ofNat_toNat, BitVec.setWidth_eq]
  rw [string] at count pending
  have out : (decReset d).regs.out + 1 = c.regs.consumed := count
  have first := firstCodeStep_byte (P := P) isCode (by omega)
  have wide : 9 ≤ d.regs.wtop := by
    have range := fit.width_range
    have isTop : d.regs.wtop = c.regs.maxw := shares.wtop
    omega
  have inTop : d.regs.maxw ≤ d.regs.wtop := Nat.le_of_eq (shares.maxw.trans shares.wtop.symm)
  have narrow : firstCode d.regs.blk < 2 ^ 9 := Nat.lt_of_le_of_lt (firstCode_le _) (by decide)
  refine ⟨_, first, DecCtx.Took.caughtUp (d := decReset d) ?took bf' shares sound (firstCodeStep_mirrors wide inTop first)
    empty.symm out (restored.withOutput pending)⟩
  exact ⟨rfl, (if_neg fun wider => Nat.not_le.mpr narrow wider.1).symm, rfl, rfl, rfl, rfl⟩

/-- A known code is never RESET_CODE in block mode (00_scope.md R10). -/
theorem knownCodeIn_noReset {blk : Bool} {dict : List Entry} (known : knownCodeIn (firstCode blk) dict code) :
    ¬(blk = true ∧ code = resetCode) := by
  rintro ⟨rfl, rfl⟩
  rcases known with isByte | ⟨assigned, -⟩
  · exact absurd isByte (by decide)
  · exact absurd assigned (by decide)

/-- The string of a code in the encoder's dictionary is what the code means to a decoder that lacks its newest entry
(42_decoder.md R209, R210). -/
theorem DecCtx.Mirrors.meaning_of_newest (mirrors : d.Mirrors) {dict : List Entry}
    (newest : dict = { code := d.regs.next, pre := d.regs.seen, byte := firstByte (dictStr dict p) } :: d.dict)
    (known : knownCodeIn (firstCode d.regs.blk) dict p) :
    (knownCodeIn (firstCode d.regs.blk) d.dict p ∧ dictStr dict p = dictStr d.dict p) ∨
      (p = d.regs.next ∧ dictStr dict p = dictStr d.dict d.regs.seen ++ (dictStr d.dict d.regs.seen).take 1) := by
  have isNext := mirrors.next_eq
  have first := firstCode_ge d.regs.blk
  by_cases isNewest : p = d.regs.next
  · have string : dictStr dict p = dictStr d.dict d.regs.seen ++ [firstByte (dictStr dict p)] :=
      (congrArg₂ dictStr newest isNewest).trans (dictStr_cons_eq d.dict
        { code := d.regs.next, pre := d.regs.seen, byte := firstByte (dictStr dict p) } (by show 256 ≤ d.regs.next; omega))
    obtain ⟨y, ys, previous⟩ := List.exists_cons_of_ne_nil (dictStr_ne_nil d.dict d.regs.seen)
    have byte : firstByte (dictStr dict p) = y := by
      rw [string, firstByte_append (dictStr_ne_nil _ _), previous]
      rfl
    exact .inr ⟨isNewest, by rw [string, byte, previous]; rfl⟩
  · refine .inl ⟨?_, ?_⟩
    · rcases known with isByte | ⟨assigned, inside⟩
      · exact .inl isByte
      · rw [newest, List.length_cons] at inside
        exact .inr ⟨assigned, by omega⟩
    · conv => lhs; rw [newest]
      exact dictStr_cons_ne _ _ fun same => isNewest same.symm

/-- A later code, with the meaning that its string in the encoder's dictionary gives it. -/
theorem Phase.read_later (bf' : BitField) (behind : d.Behind src c p) (sound : c.Sound P) (mirrors : d.Mirrors)
    (known : knownCodeIn (firstCode d.regs.blk) c.dict p) (isCode : codeAt bf d = some p)
    (meaning : (knownCodeIn (firstCode d.regs.blk) d.dict p ∧ dictStr c.dict p = dictStr d.dict p) ∨
      (p = d.regs.next ∧ dictStr c.dict p = dictStr d.dict d.regs.seen ++ (dictStr d.dict d.regs.seen).take 1))
    (stores : (2 ^ c.regs.maxw ≤ d.regs.next ∧ c.dict = d.dict) ∨
      (d.regs.next < 2 ^ c.regs.maxw ∧ c.dict =
        { code := d.regs.next, pre := d.regs.seen, byte := firstByte (dictStr c.dict p) } :: d.dict))
    (room : c.regs.consumed ≤ P.dataCap) :
    ∃ d', mainStep P bf d = .go d' ∧ d'.CaughtUp src (c.counted.sent bf').stepped p := by
  obtain ⟨shares, count, restored, pending⟩ := behind
  have wtop := shares.wtop
  have limit : d.regs.next < P.dictLimit ∨ 2 ^ d.regs.wtop ≤ d.regs.next := by
    rcases stores with ⟨top, -⟩ | ⟨-, newest⟩
    · exact .inr (wtop ▸ top)
    · exact .inl (sound.below { code := d.regs.next, pre := _, byte := _ } (newest ▸ List.mem_cons_self))
  obtain ⟨dict, step, unstored, stored⟩ :=
    mirrors.decodes isCode (knownCodeIn_noReset known) meaning limit (count.trans_le room)
  have mirrors' := mirrors.next step
  have sameDict : dict = c.dict := by
    rcases stores with ⟨top, same⟩ | ⟨below, newest⟩
    · rw [unstored (wtop ▸ top), same]
    · rw [stored (wtop ▸ below), ← newest]
  subst sameDict
  have output := restored.withOutput pending
  have restored' : (d.decoded p (dictStr c.dict p) c.dict).Restored src := fun i below => by
    rw [decWidthStep_out] at below
    exact output i below
  have width : (d.decoded p (dictStr c.dict p) c.dict).regs.width = _ := decWidthStep_width _
  have took : d.Took p (d.decoded p (dictStr c.dict p) c.dict) :=
    ⟨decWidthStep_pos _, by rw [width, decWidthStep_next]; rfl, decWidthStep_maxw _, decWidthStep_wtop _,
      decWidthStep_blk _, decWidthStep_seen _⟩
  exact ⟨_, step, took.caughtUp bf' shares sound mirrors' rfl ((decWidthStep_out _).trans count) restored'⟩

/-- The decoder reads the code that the encoder wrote, and catches up with it. -/
theorem Phase.read (bf' : BitField) (phase : Phase P bf c p d x) (behind : d.Behind src c p) (sound : c.Sound P) (fit : c.CodesFit)
    (isSeen : c.regs.seen = some p) (held : bf.holdsInt c.regs.pos c.regs.width p)
    (inside : c.regs.pos + c.regs.width ≤ 8 * bf.size.toNat) (room : c.regs.consumed ≤ P.dataCap) :
    ∃ d', x = .go d' ∧ d'.CaughtUp src (c.counted.sent bf').stepped p := by
  have isCode : codeAt bf d = some p := by
    rw [codeAt, behind.shares.pos, behind.shares.width]
    exact BitField.getInt_of_holdsInt inside held
  have known : knownCodeIn (firstCode d.regs.blk) c.dict p := behind.shares.blk ▸ sound.seen_known p isSeen
  cases phase with
  | fresh empty isByte => exact Phase.read_fresh bf' behind sound fit empty isByte isCode room
  | growing mirrors below newest =>
    exact Phase.read_later bf' behind sound mirrors known isCode (mirrors.meaning_of_newest newest known)
      (.inr ⟨below, newest⟩) room
  | full mirrors top same =>
    exact Phase.read_later bf' behind sound mirrors known isCode (.inl ⟨same ▸ known, congrArg (dictStr · p) same⟩)
      (.inl ⟨top, same⟩) room

/-! ### The byte that the encoder takes -/

/-- A byte taken where the decoder has output everything before it. -/
theorem DecCtx.Behind.of_byte (shares : d.Shares c) (restored : d.Restored src) (consumed : c.regs.consumed = d.regs.out + 1)
    (byte : b = src.read .data d.regs.out) : d.Behind src c b.toNat := by
  have string : dictStr c.dict b.toNat = [b] := by
    rw [dictStr_byte c.dict b.isLt, BitVec.ofNat_toNat, BitVec.setWidth_eq]
  refine ⟨shares, by rw [string, consumed]; rfl, restored, fun k inside => ?_⟩
  simp only [string, List.length_singleton, Nat.lt_one_iff] at inside
  subst inside
  simp only [string]
  exact byte

/-- A match extends the pending string by the byte (41_encoder.md R166, 10_state.md R46). -/
theorem DecCtx.Behind.extended (behind : d.Behind src c p) (sound : c.Sound P) {e : Entry} (mem : e ∈ c.dict)
    (pre : e.pre = p) (byte : e.byte = src.read .data c.regs.consumed) :
    d.Behind src (encAdvance (c.counted.withSeen e.code)) e.code := by
  obtain ⟨shares, count, restored, pending⟩ := behind
  have string : dictStr c.dict e.code = dictStr c.dict p ++ [e.byte] :=
    pre ▸ dictStr_entry (firstCode_ge _) sound.form e mem
  refine ⟨{ shares with }, ?_, restored, fun k inside => ?_⟩
  · show d.regs.out + (dictStr c.dict e.code).length = c.regs.consumed + 1
    rw [string, List.length_append, List.length_singleton, ← count, Nat.add_assoc]
  · have inside : k < (dictStr c.dict e.code).length := inside
    show (dictStr c.dict e.code)[k] = _
    simp only [string, List.length_append, List.length_singleton] at inside ⊢
    rcases Nat.lt_succ_iff_lt_or_eq.mp inside with old | rfl
    · rw [List.getElem_append_left old, pending k old]
    · rw [List.getElem_concat_length rfl, byte, count]

/-- The first byte of the pending string stays when a match extends it, and so does the phase. -/
theorem Phase.extended (phase : Phase P bf c p d x) (sound : c.Sound P) {e : Entry} (mem : e ∈ c.dict) (pre : e.pre = p) :
    Phase P bf (encAdvance (c.counted.withSeen e.code)) e.code d x := by
  have first : firstByte (dictStr c.dict e.code) = firstByte (dictStr c.dict p) := by
    rw [dictStr_entry (firstCode_ge _) sound.form e mem, pre, firstByte_append (dictStr_ne_nil _ _)]
  cases phase with
  | fresh empty => exact absurd (empty ▸ mem) List.not_mem_nil
  | growing mirrors room newest => exact .growing mirrors room (first.symm ▸ newest)
  | full mirrors top same => exact .full mirrors top same

/-- The decoder whose next step is `x` follows the encoder; and a dictionary in the full state is at its last code. -/
structure Follows (P : Params) (bf : BitField) (src : Memory) (c : EncCtx) (p : Nat) (d : DecCtx) (x : DecStep) : Prop where
  isSeen : c.regs.seen = some p
  top : c.regs.full = true → 2 ^ c.regs.maxw ≤ c.regs.next
  behind : d.Behind src c p
  phase : Phase P bf c p d x

/-- The width step enters the full state at the last code of the maximum width. -/
theorem EncCtx.stepped_top (top : c.regs.full = true → 2 ^ c.regs.maxw ≤ c.regs.next) (full : c.stepped.regs.full = true) :
    2 ^ c.regs.maxw ≤ c.regs.next := by
  rcases encWidthStep_cases c.regs with ⟨-, step⟩ | ⟨-, -, step⟩ | ⟨atCap, widest, -⟩
  · exact top ((congrArg EncRegs.full step).symm.trans full)
  · exact top ((congrArg EncRegs.full step).symm.trans full)
  · exact Nat.le_trans (Nat.pow_le_pow_right (by decide) widest) atCap

variable {e : EncCtx}

/-- Where Grow inserted an entry, the decoder lacks it (41_encoder.md R171). -/
theorem DecCtx.CaughtUp.inserted (caught : d.CaughtUp src e p) (notFull : e.regs.full = false)
    (room : e.regs.next < 2 ^ e.regs.maxw) (byte : b = src.read .data d.regs.out) :
    Follows P bf src (encAdvance ((e.withEntry p b).withSeen b.toNat)) b.toNat d (mainStep P bf d) := by
  obtain ⟨mirrors, shares, seen, dict, next, out, restored⟩ := caught
  refine ⟨rfl, fun full => absurd (notFull.symm.trans full) Bool.noConfusion,
    .of_byte { shares with } restored out byte, .growing mirrors (next ▸ room) ?_⟩
  show { code := e.regs.next, pre := p, byte := b } :: e.dict = _
  rw [dictStr_byte _ b.isLt, BitVec.ofNat_toNat, BitVec.setWidth_eq, next, seen, dict]
  rfl

/-- Where Grow left the dictionary full, the decoder lacks nothing (41_encoder.md R170). -/
theorem DecCtx.CaughtUp.kept (caught : d.CaughtUp src e p) (top : 2 ^ e.regs.maxw ≤ e.regs.next)
    (byte : b = src.read .data d.regs.out) (ckpt base : Option Nat) :
    Follows P bf src (encAdvance ((e.withMonitor ckpt base).withSeen b.toNat)) b.toNat d (mainStep P bf d) := by
  obtain ⟨mirrors, shares, -, dict, next, out, restored⟩ := caught
  exact ⟨rfl, fun _ => top, .of_byte { shares with } restored out byte, .full mirrors (next ▸ top) dict.symm⟩

/-- Where Grow reset the dictionary, the decoder reads the RESET_CODE and resets its own (41_encoder.md R176,
42_decoder.md R207). -/
theorem DecCtx.CaughtUp.reset (caught : d.CaughtUp src e p) (blk : e.regs.blk = true)
    (held : bf.holdsInt e.regs.pos e.regs.width resetCode) (inside : e.regs.pos + e.regs.width ≤ 8 * bf.size.toNat)
    (byte : b = src.read .data d.regs.out) (bf' : BitField) :
    Follows P bf src (encAdvance ((e.afterReset bf').withSeen b.toNat)) b.toNat (decReset (decAdvance d))
      (mainStep P bf d) := by
  obtain ⟨-, shares, -, -, -, out, restored⟩ := caught
  have isReset : codeAt bf d = some resetCode := by
    rw [codeAt, shares.pos, shares.width]
    exact BitField.getInt_of_holdsInt inside held
  have shares' : (decReset (decAdvance d)).Shares (encAdvance ((e.afterReset bf').withSeen b.toNat)) :=
    { shares with
      pos := congrArg₂ (· + ·) shares.pos shares.width
      width := rfl }
  rw [mainStep_reset (shares.blk.trans blk) isReset]
  exact ⟨rfl, nofun, .of_byte shares' restored out byte, .fresh rfl b.isLt⟩

/-- The decoder that caught up follows the encoder again after Grow. -/
theorem DecCtx.CaughtUp.afterGrow (caught : d.CaughtUp src c.stepped p) (fit : c.CodesFit)
    (top : c.regs.full = true → 2 ^ c.regs.maxw ≤ c.regs.next) (grown : grow P p b c = .ok c')
    (byte : b = src.read .data d.regs.out) {q : Nat} (rest : c'.bf.Appended c'.regs.pos bf q) :
    ∃ d', Follows P bf src (encAdvance (c'.withSeen b.toNat)) b.toNat d' (mainStep P bf d) := by
  rcases grow_ok_cases grown with ⟨notFull, -, rfl⟩ | ⟨full, ckpt, base, -, rfl⟩ | ⟨full, blk, bf₂, written, rfl⟩
  · have room : c.stepped.regs.next < 2 ^ c.stepped.regs.maxw := by
      rw [encWidthStep_next]
      exact Nat.lt_of_lt_of_le (fit.stepped_room notFull) (Nat.pow_le_pow_right (by decide) fit.stepped.width_range.2)
    exact ⟨d, caught.inserted notFull room byte⟩
  · have atTop : 2 ^ c.stepped.regs.maxw ≤ c.stepped.regs.next := by
      rw [encWidthStep_maxw, encWidthStep_next]
      exact EncCtx.stepped_top top full
    exact ⟨d, caught.kept atTop byte ckpt base⟩
  · obtain ⟨fits, -, isWritten⟩ := BitField.setInt_spec written
    rw [← encWidthStep_pos] at isWritten
    have held := rest.holdsInt (Nat.le_refl _) (BitField.writtenWith_holdsInt fits isWritten)
    have inside : c.stepped.regs.pos + c.stepped.regs.width ≤ 8 * bf.size.toNat := by
      have size := rest.size
      have grows : c.stepped.regs.pos + c.stepped.regs.width ≤ q := rest.pos_le
      omega
    exact ⟨_, caught.reset ((encWidthStep_blk _).trans blk) held inside byte bf₂⟩

/-! ### The whole stream -/

/-- What the decoder reads next is there: the pending code, in a stream that continues its emission. -/
theorem Follows.read (follows : Follows P bf src c p d x) (fit : c.CodesFit) (sound : c.Sound P)
    (room : c.regs.consumed ≤ P.dataCap) {q : Nat} (written : c.bf.setInt P c.regs.pos c.regs.width p = .ok bf')
    (rest : bf'.Appended (c.regs.pos + c.regs.width) bf q) :
    ∃ d', x = .go d' ∧ d'.CaughtUp src (c.counted.sent bf').stepped p := by
  obtain ⟨isSeen, -, behind, phase⟩ := follows
  obtain ⟨fits, -, isWritten⟩ := BitField.setInt_spec written
  have held := rest.holdsInt (Nat.le_refl _) (BitField.writtenWith_holdsInt fits isWritten)
  have size := rest.size
  have grows := rest.pos_le
  exact phase.read bf' behind sound fit isSeen held (by omega) room

/-- The flush writes the last pending code, which is all that is left of the stream (41_encoder.md R177). -/
theorem Follows.restores_last (follows : Follows P bf src c p d x) (running : c.Running P hdr maxw len 0)
    (ends : c.Ends P src bf 0) (room : len ≤ P.dataCap) : x.Restores P bf src len := by
  obtain ⟨⟨fit, stream, -, consumed, -⟩, sound⟩ := running
  obtain ⟨c₂, run, rfl⟩ := ends
  have flushed : flush P c = .ok c₂ := run
  rcases flush_ok flushed with ⟨unseen, -⟩ | ⟨p', bf', isSeen, written, rfl⟩
  · exact absurd (unseen.symm.trans follows.isSeen) nofun
  · cases isSeen.symm.trans follows.isSeen
    have sent := BitField.Appended.of_setInt stream.size (Nat.zero_lt_of_lt fit.width_range.1) written
    obtain ⟨d', rfl, caught⟩ := follows.read fit sound (by omega) written (.refl sent.size)
    obtain ⟨mirrors, ⟨pos, -⟩, -, -, -, out, restored⟩ := caught
    rw [encWidthStep_pos] at pos
    rw [encWidthStep_consumed] at out
    have atEnd : d'.regs.pos = c.regs.pos + c.regs.width := pos
    have isOut : c.regs.consumed + 1 = d'.regs.out + 1 := out
    have noCode : codeAt bf' d' = none := BitField.getInt_none (by
      have wide := mirrors.width_range.1
      have size := sent.size
      omega)
    exact .go (mainStep_ended noCode ▸ .ended (by omega) restored)

/-- A decoder that follows the encoder restores the bytes that the encoder has still to take. -/
theorem Follows.restores (follows : Follows P bf src c p d x) (running : c.Running P hdr maxw len n)
    (ends : c.Ends P src bf n) (room : len ≤ P.dataCap) : x.Restores P bf src len := by
  induction n generalizing c p d x with
  | zero => exact follows.restores_last running ends room
  | succ n ih =>
    obtain ⟨c', scanned, later⟩ := ends.step
    have running' := running.next scanned
    obtain ⟨⟨fit, stream, -, consumed, idx⟩, sound⟩ := running
    have sameIdx : c.regs.idx = c.regs.consumed := by omega
    rw [sameIdx] at scanned
    rcases scanByte_ok_cases scanned with
      ⟨unseen, -⟩ | ⟨p', code, isSeen, found, rfl⟩ | ⟨p', bf', c₁, isSeen, -, written, grown, rfl⟩
    · exact absurd (unseen.symm.trans follows.isSeen) nofun
    · cases isSeen.symm.trans follows.isSeen
      obtain ⟨e, mem, pre, byte, rfl⟩ := dictLookup_some found
      have follows' : Follows P bf src (encAdvance (c.counted.withSeen e.code)) e.code d x :=
        ⟨rfl, follows.top, follows.behind.extended sound mem pre byte, follows.phase.extended sound mem pre⟩
      exact ih follows' running' later
    · cases isSeen.symm.trans follows.isSeen
      have sent := BitField.Appended.of_setInt stream.size (Nat.zero_lt_of_lt fit.width_range.1) written
      have grew := grow_appends (fit.counted.sent bf') sent.size grown
      obtain ⟨q, rest⟩ := later.appended running'.scanning.fit running'.scanning.size
      obtain ⟨d', rfl, caught⟩ := follows.read fit sound (by omega) written (grew.trans rest)
      have out := caught.out
      rw [encWidthStep_consumed] at out
      have isOut : c.regs.consumed = d'.regs.out := Nat.succ.inj out
      obtain ⟨d'', follows'⟩ :=
        caught.afterGrow (fit.counted.sent bf') follows.top grown (congrArg (src.read .data) isOut) rest
      exact .go (ih follows' running' later)

/-- After the header the decoder is where the encoder starts, and the first byte is the first pending code. -/
theorem EncCtx.Ends.restores {blk : Bool} {flags : Nat} (ends : (EncCtx.start maxw blk hdr).Ends P src bf len)
    (isMaxw : flagsMaxw flags = maxw) (isBlk : flagsBlk flags = blk) (wide : 9 ≤ maxw) (size : hdr.size.toNat = 3)
    (room : len ≤ P.dataCap) (d : DecCtx) : (firstCodeStep P bf (d.primed flags)).Restores P bf src len := by
  have running := EncCtx.start_running (len := len) P blk wide size
  cases len with
  | zero =>
    obtain ⟨c₂, run, rfl⟩ := ends
    cases run
    have noCode : codeAt hdr (d.primed flags) = none :=
      BitField.getInt_none (by show 8 * hdr.size.toNat < 24 + 9; omega)
    exact firstCodeStep_ended noCode ▸ .ended rfl nofun
  | succ n =>
    obtain ⟨c', scanned, later⟩ := ends.step
    have running' := running.next scanned
    cases (scanByte_first rfl).symm.trans scanned
    have shares : (d.primed flags).Shares (EncCtx.oneTaken maxw blk hdr (src.read .data 0)) :=
      ⟨rfl, rfl, isMaxw, (Nat.max_eq_right (isMaxw ▸ wide)).trans isMaxw, isBlk⟩
    have follows : Follows P bf src (EncCtx.oneTaken maxw blk hdr (src.read .data 0)) _ (d.primed flags) _ :=
      ⟨rfl, nofun, .of_byte shares nofun rfl rfl,
        .fresh (d := decStart { d with regs := decConfigure flags d.regs }) rfl (src.read .data 0).isLt⟩
    exact follows.restores running' later room

/-- A COMPRESS that succeeds stayed within BF. -/
theorem EncCtx.Running.pos_le_of_ok (running : c.Running P hdr maxw len n) (hm : maxw ≤ 31) (hl : len < 2 ^ 32)
    (run : (scanLoop P src n c).andThen (flush P) = .ok c') : c'.regs.pos ≤ 8 * P.bfCap := by
  obtain ⟨c₁, scanned, flushed⟩ := Flow.andThen_eq_ok.mp run
  have last := scanLoop_induct (fun n c => c.Running P hdr maxw len n) (fun _ _ _ h step => h.next step) n c c₁ running
    scanned
  obtain ⟨sound, -⟩ := last.flush_stopped hm hl
  rw [flushed] at sound
  exact sound.pos_le

/-- The decoder reads the encoder's configuration from the flags byte (30_encoding.md R101, 42_decoder.md R203). -/
theorem flags_read (blk : Bool) (h31 : maxw ≤ 31) :
    flagsMaxw (BitVec.ofNat 8 (maxw + 128 * blk.toNat)).toNat = maxw ∧
      flagsBlk (BitVec.ofNat 8 (maxw + 128 * blk.toNat)).toNat = blk := by
  have small : maxw + 128 * blk.toNat < 2 ^ 8 := by
    have := Bool.toNat_le blk
    omega
  rw [BitVec.toNat_ofNat, Nat.mod_eq_of_lt small]
  refine ⟨by rw [flagsMaxw]; omega, ?_⟩
  rw [flagsBlk, Nat.testBit_eq_decide_div_mod_eq]
  cases blk
  · exact decide_eq_false (by show ¬(maxw + 0) / 2 ^ 7 % 2 = 1; omega)
  · exact decide_eq_true (by show (maxw + 128) / 2 ^ 7 % 2 = 1; omega)

/-- A COMPRESS that ends without error ran to the end of its flush. -/
theorem compressEnd_completed {s : State} {blk : Bool} (noError : (compressEnd maxw blk s).status.err = .none) :
    9 ≤ maxw ∧ maxw ≤ 31 ∧ s.dataLen.toNat ≤ s.params.dataCap ∧
      ∃ c, compressRun s.params s.data s.dataLen.toNat maxw blk s.encBegin = .ok c ∧
        compressEnd maxw blk s = State.finishedWith c.bf.size { s with bf := c.bf, enc := c.regs, edict := c.dict } := by
  rcases compressEnd_cases maxw blk s with
    ⟨-, ended⟩ | ⟨-, -, ended⟩ | ⟨⟨h9, h31⟩, fits, ⟨c, run, ended⟩ | ⟨e, c, run, ended⟩⟩
  case inr.inr.inl => exact ⟨h9, h31, fits, c, run, ended⟩
  case inr.inr.inr =>
    rw [ended, raiseError_status, compressRun_capacity h9 h31 run] at noError
    cases noError
  all_goals
    rw [ended] at noError
    cases noError

/-- Settles O56: after the header the decoder follows the encoder to the end of the stream. -/
theorem compressThenDecompressRestores : Obligations.CompressThenDecompressRestores := by
  intro s t u maxw blk _ compressed noError sameBf sameParams acceptedU
  obtain ⟨-, -, noErrorU, -⟩ := acceptedU
  have ended : compressEnd maxw blk s = t := Host.Outcome.next.inj compressed
  rw [← ended] at noError sameBf sameParams ⊢
  obtain ⟨h9, h31, fits, c, ran, completed⟩ := compressEnd_completed noError
  rw [completed] at sameBf sameParams ⊢
  have sameParams : u.params = s.params := sameParams
  have sameBf : u.bf = c.bf := sameBf
  have sameBytes : u.bf.bytes = c.bf.bytes := congrArg BitField.bytes sameBf
  have sameSize : u.bf.size = c.bf.size := congrArg BitField.size sameBf
  obtain ⟨hdr, header, run⟩ := compressRun_eq (P := s.params) h31 blk s.data s.dataLen.toNat s.encBegin
  have ended := run.symm.trans ran
  have running := EncCtx.start_running (len := s.dataLen.toNat) s.params blk h9 header.size
  obtain ⟨stream, -⟩ := compressRun_ok running.scanning ended
  obtain ⟨magic0, magic1, flags⟩ := header.bytes stream
  obtain ⟨isMaxw, isBlk⟩ := flags_read blk h31
  have pos := running.pos_le_of_ok h31 s.dataLen.isLt ended
  have size := stream.size
  have longer := stream.pos_le
  have wrapped : wrapBF s.params c.bf = c.bf := by rw [wrapBF, ← header.order, ← stream.order]
  have readsFlags := readFlags_ok (bf := c.bf) (by omega) magic0 magic1
  rw [flags] at readsFlags
  have ends : (EncCtx.start maxw blk hdr).Ends s.params s.data c.bf s.dataLen.toNat := ⟨c, ended, rfl⟩
  obtain ⟨d, decoded, out, restored⟩ := (ends.restores isMaxw isBlk h9 header.size fits _).run (c := decBegin u) readsFlags
  rw [← wrapped, ← sameBf, ← sameParams] at decoded
  have finished := decompressEnd_ok (by rw [sameBf, sameParams]; omega) decoded
  have length : word d.regs.out = s.dataLen := by rw [out]; exact BitVec.ofNat_toNat ..
  rw [length] at finished
  exact ⟨_, exec_eq_next finished, noErrorU, rfl, rfl, sameBytes, sameSize,
    fun i below => restored i (out ▸ below)⟩

end Sys2Proof.Machine
end
